-- ==== Sys2Proof/Word.lean ====
section
/-! DEFINITION. The words that cross the block's interface (spec 30_encoding R66, R69; 20_memory R51, R52). -/

namespace Sys2Proof

/-- One whole word of the interface or of a register. The header is a 32-bit word (R66); an operand, a response and a
data register hold one `NUM` word, of 32 bits under `binary32` and of 64 bits under `binary64` (R69, R8). Words cross the
interface whole and are never split into bytes (R51, R52). -/
inductive Word where
  | w32 (bits : BitVec 32)
  | w64 (bits : BitVec 64)
  deriving DecidableEq, Repr, Inhabited

end Sys2Proof
end

