-- ==== Sys2Proof/Config.lean ====
section
/-! DEFINITION. The implementation parameters of the block (spec 00_scope R7, R12; 92_eei_decisions D2, D17): the number format,
the literals, and the library of transcendental functions, which no rule gives a value to. -/

namespace Sys2Proof

/-- The number formats that have a wire form (R7, R69). The third value of `NUM`, `real`, has none: it is the reference
semantics, and `Sys2Proof.Machine.realArith` reads the same rules over the real numbers. -/
inductive NumFormat where
  | binary32
  | binary64
  deriving DecidableEq, Repr, Inhabited

/-- The word of the format whose bits are the number given, from its least significant bits. -/
def NumFormat.word (f : NumFormat) (bits : Nat) : Word :=
  match f with
  | .binary32 => .w32 (BitVec.ofNat 32 bits)
  | .binary64 => .w64 (BitVec.ofNat 64 bits)

/-- How many bits a word of the format has (R8, R69). -/
def NumFormat.width : NumFormat → Nat
  | .binary32 => 32
  | .binary64 => 64

/-- The format a word has the width of. -/
def Word.format : Word → NumFormat
  | .w32 _ => .binary32
  | .w64 _ => .binary64

/-- The bits of a word, as a number. -/
def Word.bits : Word → Nat
  | .w32 b => b.toNat
  | .w64 b => b.toNat

/-- A literal of the spec, as the exact fraction it is written as. A number format turns it into one of its values by
rounding to nearest, ties to even (R11, R76). -/
structure Literal where
  num : Nat
  den : Nat
  deriving DecidableEq, Repr

/-- `PEAK` (R7): the level at the end of Attack. No command writes it (D16). -/
def Config.peak : Literal := ⟨1, 1⟩

/-- `EPS` (R7): the floor applied before every logarithm. -/
def Config.eps : Literal := ⟨1, 100000⟩

/-- `RELEASE_FLOOR` (R7), in seconds. -/
def Config.releaseFloor : Literal := ⟨6, 100⟩

/-- `ATTACK_RATE` (R7): the constant of the Attack curve. -/
def Config.attackRate : Literal := ⟨6, 1⟩

/-- `TC_PER_OCTAVE` (R7): time-cents per doubling. -/
def Config.tcPerOctave : Literal := ⟨1200, 1⟩

/-- `CB_PER_DECADE` (R7): centibels per factor of 10. -/
def Config.cbPerDecade : Literal := ⟨200, 1⟩

/-- The four functions that a floating format takes from a library (R12). -/
inductive LibraryFunction where
  | exp
  | ln
  | pow2
  | pow10
  deriving DecidableEq, Repr, Inhabited

/-- FREE VALUE (R12, I3; log entry 11). What the library of an implementation answers, for every function, format and operand.
It has no body. `Sys2Proof.Machine` holds its answers to what I3 (a) to (g) and R107 say of them, and to nothing more. -/
opaque Config.library : LibraryFunction → NumFormat → Word → Word

/-- The number format that `State.reset` names. DESIGN CHOICE (log entry 1): the spec leaves `NUM` open (D2). -/
def Config.resetFormat : NumFormat := .binary32

end Sys2Proof
end

