-- ==== Sys2Proof/Syntax.lean ====
section
/-! DEFINITION. The six commands (spec 30_encoding R67, R70, R71), one constructor per row of opcode_table.json. -/

namespace Sys2Proof

/-- One command with its operand words. -/
inductive Instr where
  /-- CREATE (R92): the sample rate in Hz. -/
  | create (sampleRate : Word)
  /-- DESTROY (R93). -/
  | destroy
  /-- CONFIG (R102), its operands in the order of R71. -/
  | config (delayTc attackTc holdTc decayTc sustainCb releaseTc : Word)
  /-- NOTE_ON (R120). -/
  | noteOn
  /-- NOTE_OFF (R121). -/
  | noteOff
  /-- NEXT (R130). -/
  | next
  deriving DecidableEq, Repr

/-- The operand words of a command, in the order the channel carries them (R70, R71). -/
def Instr.operands : Instr → List Word
  | .create sr => [sr]
  | .destroy => []
  | .config d a h dc s r => [d, a, h, dc, s, r]
  | .noteOn => []
  | .noteOff => []
  | .next => []

end Sys2Proof
end

