-- ==== Sys2Proof/WellFormed.lean ====
section
/-! DEFINITION. When a command is well formed under a number format (spec 30_encoding R69, R70). -/

namespace Sys2Proof

/-- The word is one whole word of the format (R69). -/
def Word.fits (f : NumFormat) (w : Word) : Bool := decide (w.format = f)

/-- Every operand is one whole `NUM` word (R69, R72). There is nothing else to check: any `NUM` value may stand as an operand,
and the commands themselves fault on the values they exclude (R92, R102). -/
def Instr.wellFormed (f : NumFormat) (i : Instr) : Bool := i.operands.all (Word.fits f)

end Sys2Proof
end

