-- ==== Sys2Proof/Decode.lean ====
section
/-! DEFINITION. Decoding the command channel and encoding a command (spec 30_encoding R66 to R75). -/

namespace Sys2Proof

/-- The six opcodes (R67). -/
inductive Opcode where
  | create
  | destroy
  | config
  | noteOn
  | noteOff
  | next
  deriving DecidableEq, Repr

/-- The header field `op`, bits 2:0 (R66). -/
def headerOp (h : BitVec 32) : BitVec 3 := h.extractLsb' 0 3

/-- The header field `rsv`, bits 31:3 (R66). -/
def headerRsv (h : BitVec 32) : BitVec 29 := h.extractLsb' 3 29

/-- The opcode values of R67; 0 and 7 are illegal. -/
def opcodeOf (op : BitVec 3) : Option Opcode :=
  match op.toNat with
  | 1 => some .create
  | 2 => some .destroy
  | 3 => some .config
  | 4 => some .noteOn
  | 5 => some .noteOff
  | 6 => some .next
  | _ => none

/-- The header's meaning, total on all 32-bit words (R73); `none` is ILLEGAL (R68, R74). -/
def decodeHeader (h : BitVec 32) : Option Opcode :=
  if headerRsv h = 0 then opcodeOf (headerOp h) else none

/-- How many operand words follow the header (R70). -/
def operandCount : Opcode → Nat
  | .create => 1
  | .destroy => 0
  | .config => 6
  | .noteOn => 0
  | .noteOff => 0
  | .next => 0

/-- What stands at the front of the command channel. -/
inductive Decoded where
  /-- A whole command, and the channel after it. -/
  | command (i : Instr) (rest : List Word)
  /-- A word that spells no command, and the channel after that one word (R73, R74). -/
  | illegal (rest : List Word)
  /-- Not yet a whole command: the channel is empty, or operand words are still to come (R65, R70). -/
  | incomplete
  /-- An operand word that is not one whole `NUM` word (R69). -/
  | operandWidth
  deriving DecidableEq, Repr

/-- The command of an opcode with its operand words; `none` where their number is not R70's. -/
def instrOf : Opcode → List Word → Option Instr
  | .create, [sr] => some (.create sr)
  | .destroy, [] => some .destroy
  | .config, [d, a, h, dc, s, r] => some (.config d a h dc s r)
  | .noteOn, [] => some .noteOn
  | .noteOff, [] => some .noteOff
  | .next, [] => some .next
  | _, _ => none

/-- The operand words of a legal header, taken from the words after it (R70, R73). -/
def decodeOperands (f : NumFormat) (op : Opcode) (after : List Word) : Decoded :=
  let ws := after.take (operandCount op)
  if ws.all (Word.fits f) then
    match instrOf op ws with
    | some i => .command i (after.drop (operandCount op))
    | none => .incomplete
  else .operandWidth

/-- Decoding, total on every list of words. The header is always the first word (R73). A 64-bit word is no header and spells no
command (DEDUCED, log entry 5). -/
def decode (f : NumFormat) : List Word → Decoded
  | [] => .incomplete
  | .w64 _ :: rest => .illegal rest
  | .w32 h :: rest =>
    match decodeHeader h with
    | none => .illegal rest
    | some op => decodeOperands f op rest

/-- The whole commands at the front of a stream, at most as many as the first argument says. -/
def decodeStream (f : NumFormat) : Nat → List Word → List Instr
  | 0, _ => []
  | n + 1, ws =>
    match decode f ws with
    | .command i rest => i :: decodeStream f n rest
    | _ => []

/-- The opcode of a command (R67). -/
def Instr.opcode : Instr → Opcode
  | .create _ => .create
  | .destroy => .destroy
  | .config _ _ _ _ _ _ => .config
  | .noteOn => .noteOn
  | .noteOff => .noteOff
  | .next => .next

/-- The header word of an opcode (R67). -/
def encodeHeader : Opcode → BitVec 32
  | .create => 0x00000001#32
  | .destroy => 0x00000002#32
  | .config => 0x00000003#32
  | .noteOn => 0x00000004#32
  | .noteOff => 0x00000005#32
  | .next => 0x00000006#32

/-- The words of a command: its header, then its operand words (R65, R70). -/
def encode (i : Instr) : List Word := .w32 (encodeHeader i.opcode) :: i.operands

/-- The `n` words of the format that a number's bits spell, the first from the least significant bits. -/
def wordsOfBits (f : NumFormat) : Nat → Nat → List Word
  | 0, _ => []
  | n + 1, bits => f.word (bits % 2 ^ f.width) :: wordsOfBits f n (bits / 2 ^ f.width)

/-- The words of one command given as one number, numbered as opcode_table.json numbers them: the header in bits 31:0, the
operand words above it, every bit from `nbits` up zero. -/
def tableWords (f : NumFormat) (nbits w : Nat) : List Word :=
  let bits := w % 2 ^ nbits
  let header := BitVec.ofNat 32 bits
  .w32 header :: wordsOfBits f (((decodeHeader header).map operandCount).getD 0) (bits / 2 ^ 32)

/-- The command that the decoder reads from an opcode-table word, its operand words laid out under `binary32`. -/
def decodeTableWord (nbits w : Nat) : Option Instr :=
  match decode .binary32 (tableWords .binary32 nbits w) with
  | .command i _ => some i
  | _ => none

end Sys2Proof
end

