-- ==== Sys2Proof/Machine/Float.lean ====
section
/-! DEFINITION. IEEE 754 arithmetic on the words of the two floating formats, rounded to nearest, ties to even
(spec 00_scope R11; 30_encoding R69; 93_implementation_defined G1, G2, G3). Every operation computes the exact result and then rounds it
once. PRESUMED (log entry 14): the spec itself marks the meaning of IEEE 754 as general knowledge. -/

namespace Sys2Proof

/-- The precision of the format in bits, the implicit leading bit counted (R69). -/
def NumFormat.precision : NumFormat → Nat
  | .binary32 => 24
  | .binary64 => 53

/-- The least subnormal of the format is two to the minus this (G3). -/
def NumFormat.scale : NumFormat → Nat
  | .binary32 => 149
  | .binary64 => 1074

/-- The magnitude bits of infinity: the exponent field all ones, the fraction zero (R69). -/
def NumFormat.infinity : NumFormat → Nat
  | .binary32 => 0x7F800000
  | .binary64 => 0x7FF0000000000000

/-- The position of the sign bit (R69). -/
def NumFormat.signBit : NumFormat → Nat
  | .binary32 => 31
  | .binary64 => 63

/-- Exact values are counted in units of the format's least subnormal; this many make 1. -/
def NumFormat.unit (f : NumFormat) : Nat := 2 ^ f.scale

/-- What a word means: NaN, an infinity, or plus or minus a whole number of units. -/
inductive Datum where
  | nan
  | inf (neg : Bool)
  | fin (neg : Bool) (units : Nat)
  deriving DecidableEq, Repr

/-- The bits of a word below its sign bit. -/
def Word.magnitude (w : Word) : Nat := w.bits % 2 ^ w.format.signBit

/-- The sign bit of a word. -/
def Word.negative (w : Word) : Bool := w.bits.testBit w.format.signBit

/-- The value of finite magnitude bits, in units of the format's least subnormal: a subnormal is its fraction, a normal number its
fraction with the leading bit, shifted by the exponent (R69). -/
def magnitudeValue (f : NumFormat) (m : Nat) : Nat :=
  let exponent := m / 2 ^ (f.precision - 1)
  let fraction := m % 2 ^ (f.precision - 1)
  if exponent = 0 then fraction else (2 ^ (f.precision - 1) + fraction) * 2 ^ (exponent - 1)

/-- The meaning of a word in the format (R69). A word of the other width is no value of the format and reads as NaN: no register
or operand of a run is one (log entry 6). -/
def Word.datum (f : NumFormat) (w : Word) : Datum :=
  if w.format = f then
    if w.magnitude < f.infinity then .fin w.negative (magnitudeValue f w.magnitude)
    else if w.magnitude = f.infinity then .inf w.negative
    else .nan
  else .nan

/-- The word of a sign and magnitude bits. -/
def NumFormat.signed (f : NumFormat) (neg : Bool) (m : Nat) : Word :=
  f.word (if neg then 2 ^ f.signBit + m else m)

/-- The magnitude bits of the fraction `n / d` of the format's least subnormal, rounded to nearest, ties to even (R11). Magnitude
bits count up with the value they mean, so rounding up is adding one; past the largest finite value that is infinity. -/
def roundMagnitude (f : NumFormat) (n d : Nat) : Nat :=
  let whole := n / d
  let shift := whole.log2 + 1 - f.precision
  let kept := whole / 2 ^ shift
  let below := shift * 2 ^ (f.precision - 1) + kept
  let left := n - kept * 2 ^ shift * d
  let step := 2 ^ shift * d
  let rounded := if step < 2 * left ∨ (2 * left = step ∧ below % 2 = 1) then below + 1 else below
  min rounded f.infinity

/-- An exact result before it is rounded: NaN, an infinity, or a signed fraction of units. -/
inductive Exact where
  | nan
  | inf (neg : Bool)
  | frac (neg : Bool) (n d : Nat)
  deriving DecidableEq, Repr

/-- Narrow an exact result to the format (R11). A NaN is the quiet NaN of the test vectors (log entry 14). -/
def Exact.narrow (f : NumFormat) : Exact → Word
  | .nan => f.signed false (f.infinity + 2 ^ (f.precision - 2))
  | .inf neg => f.signed neg f.infinity
  | .frac neg n d => f.signed neg (roundMagnitude f n d)

/-- The signed number of units. -/
def signedUnits (neg : Bool) (n : Nat) : Int := if neg then -(n : Int) else (n : Int)

/-- The exact value of a word as it stands. -/
def Datum.exact : Datum → Exact
  | .nan => .nan
  | .inf neg => .inf neg
  | .fin neg n => .frac neg n 1

/-- The exact sum. A zero sum is plus zero unless both operands are minus zero. -/
def Datum.add : Datum → Datum → Exact
  | .nan, _ => .nan
  | _, .nan => .nan
  | .inf a, .inf b => if a = b then .inf a else .nan
  | .inf a, .fin _ _ => .inf a
  | .fin _ _, .inf b => .inf b
  | .fin a m, .fin b n =>
    let x := signedUnits a m + signedUnits b n
    .frac (if x = 0 then a && b else decide (x < 0)) x.natAbs 1

/-- The exact product. -/
def Datum.mul (f : NumFormat) : Datum → Datum → Exact
  | .nan, _ => .nan
  | _, .nan => .nan
  | .inf a, .inf b => .inf (a != b)
  | .inf a, .fin b n => if n = 0 then .nan else .inf (a != b)
  | .fin a m, .inf b => if m = 0 then .nan else .inf (a != b)
  | .fin a m, .fin b n => .frac (a != b) (m * n) f.unit

/-- The exact quotient. -/
def Datum.div (f : NumFormat) : Datum → Datum → Exact
  | .nan, _ => .nan
  | _, .nan => .nan
  | .inf _, .inf _ => .nan
  | .inf a, .fin b _ => .inf (a != b)
  | .fin a _, .inf b => .frac (a != b) 0 1
  | .fin a m, .fin b n =>
    if n = 0 then (if m = 0 then .nan else .inf (a != b)) else .frac (a != b) (m * f.unit) n

/-- The value with its sign turned; exact in every format (R101). -/
def Datum.neg : Datum → Datum
  | .nan => .nan
  | .inf a => .inf (!a)
  | .fin a n => .fin (!a) n

/-- The ordering `≤` of the format; false where an operand is NaN (R11). -/
def Datum.le : Datum → Datum → Bool
  | .nan, _ => false
  | _, .nan => false
  | .inf true, _ => true
  | _, .inf false => true
  | .inf false, _ => false
  | _, .inf true => false
  | .fin a m, .fin b n => decide (signedUnits a m ≤ signedUnits b n)

/-- `finite(v)`: false for NaN and the infinities (R11). -/
def Datum.isFinite : Datum → Bool
  | .fin _ _ => true
  | _ => false

/-- The value is NaN. -/
def Datum.isNaN : Datum → Bool
  | .nan => true
  | _ => false

/-- A literal as a value of the format (R76: rounded to nearest, ties to even). -/
def Literal.word (f : NumFormat) (l : Literal) : Word := (Exact.frac false (l.num * f.unit) l.den).narrow f

/-- `a + b` of the format. -/
def floatAdd (f : NumFormat) (a b : Word) : Word := ((a.datum f).add (b.datum f)).narrow f

/-- `a - b` of the format. -/
def floatSub (f : NumFormat) (a b : Word) : Word := ((a.datum f).add (b.datum f).neg).narrow f

/-- `a · b` of the format. -/
def floatMul (f : NumFormat) (a b : Word) : Word := ((a.datum f).mul f (b.datum f)).narrow f

/-- `a / b` of the format. -/
def floatDiv (f : NumFormat) (a b : Word) : Word := ((a.datum f).div f (b.datum f)).narrow f

/-- `-a` of the format. -/
def floatNeg (f : NumFormat) (a : Word) : Word := (a.datum f).neg.exact.narrow f

/-- `a ≤ b`. -/
def floatLe (f : NumFormat) (a b : Word) : Bool := (a.datum f).le (b.datum f)

/-- `a < b`: ordered, and not `b ≤ a`. -/
def floatLt (f : NumFormat) (a b : Word) : Bool := floatLe f a b && !floatLe f b a

/-- `finite(a)` (R11). -/
def floatFinite (f : NumFormat) (a : Word) : Bool := (a.datum f).isFinite

/-- `a` is NaN. -/
def floatNaN (f : NumFormat) (a : Word) : Bool := (a.datum f).isNaN

end Sys2Proof
end

