-- ==== Sys2Proof/Machine/Library.lean ====
section
/-! DEFINITION. `exp`, `ln`, `pow2` and `pow10` under a floating format (spec 00_scope R12; 93_implementation_defined I3; 41_configuration
R104, R107). Each is the free library `Config.library`, held to what the spec says of it: exact values (I3 b, f), ranges (I3 c, e, g; R104;
R107), monotonicity (I3 d); being a function, each is deterministic (I3 a). Nothing else is known of them.

A value that is not NaN has a RANK: its place in the format's order, from minus infinity (0) to plus infinity. Bounds and
monotonicity are said of ranks. -/

namespace Sys2Proof

/-- The rank of the value a word means, in the format's order; NaN has none. -/
def Word.rank (f : NumFormat) (w : Word) : Option Nat :=
  match w.datum f with
  | .nan => none
  | .inf neg => some (if neg then 0 else 2 * f.infinity)
  | .fin neg n =>
    let m := roundMagnitude f n 1
    some (if neg then f.infinity - m else f.infinity + m)

/-- The word of a rank. Zero is plus zero. -/
def NumFormat.ofRank (f : NumFormat) (r : Nat) : Word :=
  if r < f.infinity then f.signed true (f.infinity - r) else f.signed false (min (r - f.infinity) f.infinity)

/-- The rank of zero. -/
def NumFormat.zeroRank (f : NumFormat) : Nat := f.infinity

/-- The rank of plus infinity. -/
def NumFormat.topRank (f : NumFormat) : Nat := 2 * f.infinity

/-- The rank of a literal's value. -/
def Literal.rank (f : NumFormat) (l : Literal) : Nat :=
  f.zeroRank + roundMagnitude f (l.num * f.unit) l.den

/-- The rank of 1. -/
def NumFormat.oneRank (f : NumFormat) : Nat := Literal.rank f ⟨1, 1⟩

/-- The rank the library answers at a rank (that of minus infinity where it answers NaN). -/
def libraryRank (fn : LibraryFunction) (f : NumFormat) (r : Nat) : Nat :=
  ((Config.library fn f (f.ofRank r)).rank f).getD 0

/-- The least function that never falls and lies nowhere below `g`. A `g` that never falls is its own hull, so the hulls of all
functions are exactly the functions that never fall (I3 d; log entry 11). -/
def hull (g : Nat → Nat) : Nat → Nat
  | 0 => g 0
  | n + 1 => if g (n + 1) ≤ hull g n then hull g n else g (n + 1)

/-- `r` moved into the range from `lo` to `hi`. -/
def clampRank (lo hi r : Nat) : Nat := if r ≤ lo then lo else if hi ≤ r then hi else r

/-- The rank of `ln`: 0 at 1 (I3 b), never falling (I3 d), finite at every finite operand not below `EPS` (I3 e). -/
def lnRank (f : NumFormat) (r : Nat) : Nat :=
  let free := hull (libraryRank .ln f) r
  if r = f.oneRank then f.zeroRank
  else if f.oneRank < r then clampRank f.zeroRank (if r < f.topRank then f.topRank - 1 else f.topRank) free
  else if Config.eps.rank f ≤ r then clampRank 1 f.zeroRank free
  else clampRank 0 f.zeroRank free

/-- `ln` of the format (R12). -/
def floatLn (f : NumFormat) (w : Word) : Word :=
  match w.rank f with
  | none => Config.library .ln f w
  | some r => f.ofRank (lnRank f r)

/-- The lowest rank at which I3 (c) bounds `exp`: that of `ln(EPS) - 1`, with the format's own `ln`. Where that is higher, the operands
that I3 (c) says its range covers: `-6x` (R133), and a `lerp_log` result, which lies at or above `ln(EPS)` "up to the rounding of its two
operations", that is at most one place below it (DEDUCED, log entry 12). -/
def expDomainRank (f : NumFormat) : Nat :=
  let lnEps := floatLn f (Config.eps.word f)
  min ((floatNeg f (Config.attackRate.word f)).rank f |>.getD 0)
    (min ((floatSub f lnEps (Literal.word f ⟨1, 1⟩)).rank f |>.getD 0) ((lnEps.rank f).getD 0 - 1))

/-- The rank of `exp`: 1 at 0 (I3 b), never falling (I3 d), in `(0, 1]` on the operands of I3 (c). -/
def expRank (f : NumFormat) (r : Nat) : Nat :=
  let free := hull (libraryRank .exp f) r
  if r = f.zeroRank then f.oneRank
  else if f.zeroRank < r then clampRank f.oneRank f.topRank free
  else if expDomainRank f ≤ r then clampRank (f.zeroRank + 1) f.oneRank free
  else clampRank 0 f.oneRank free

/-- `exp` of the format (R12). -/
def floatExp (f : NumFormat) (w : Word) : Word :=
  match w.rank f with
  | none => Config.library .exp f w
  | some r => f.ofRank (expRank f r)

/-- The largest exponent of a normal number of the format (G3). -/
def NumFormat.maxExponent : NumFormat → Nat
  | .binary32 => 127
  | .binary64 => 1023

/-- Minus the smallest exponent of a normal number of the format (G3). -/
def NumFormat.minExponent : NumFormat → Nat
  | .binary32 => 126
  | .binary64 => 1022

/-- The integer a number of units is, where it is one. -/
def integerOf (f : NumFormat) (units : Int) : Option Int :=
  if units % f.unit = 0 then some (units / f.unit) else none

/-- `base` to the integer power `k`, rounded once. -/
def powerWord (f : NumFormat) (base : Nat) (k : Int) : Word :=
  if 0 ≤ k then (Exact.frac false (base ^ k.natAbs * f.unit) 1).narrow f
  else (Exact.frac false f.unit (base ^ k.natAbs)).narrow f

/-- A finite non-negative answer of the library, at least the first rank and at most the second. -/
def libraryBetween (fn : LibraryFunction) (f : NumFormat) (lo hi : Nat) (w : Word) : Word :=
  f.ofRank (clampRank lo hi (((Config.library fn f w).rank f).getD 0))

/-- The value of a literal in the format, in units. -/
def Literal.units (f : NumFormat) (l : Literal) : Nat := magnitudeValue f (roundMagnitude f (l.num * f.unit) l.den)

/-- The time-cents, negated, from which down `pow2` is 0 (R107: "rounds to 0 for tc below about -180000, and under binary64 below
about -1290000"): there the power is half the least subnormal or less. -/
def NumFormat.tcUnderflow : NumFormat → Nat
  | .binary32 => 180000
  | .binary64 => 1290000

/-- The time-cents, negated, from which up `pow2` is above 0: there the power is the least subnormal or more (G3), so it does not underflow
(I3 g). DEDUCED (log entry 13): R107's "about" covers what lies between, where the answer may be 0. -/
def NumFormat.tcLeast : NumFormat → Nat
  | .binary32 => 178800
  | .binary64 => 1288800

/-- The centibels from which up `pow10` is 0: there the power is less than half the least subnormal. R107's "about 9031" under `binary32` is
this value. -/
def NumFormat.cbUnderflow : NumFormat → Nat
  | .binary32 => 9031
  | .binary64 => 64722

/-- The centibels up to which `pow10` is above 0: there the power is the least subnormal or more (G3). R107's "about 64660" under `binary64`
is this value. DEDUCED (log entry 13): R107's "about" covers what lies between this and `cbUnderflow`, where the answer may be 0. -/
def NumFormat.cbLeast : NumFormat → Nat
  | .binary32 => 8970
  | .binary64 => 64661

/-- The least rank of an answer that may be 0 at the operands below minus the literal, and is above 0 from it up: 0 comes of underflow only
(I3 g; R107). -/
def leastPower (f : NumFormat) (l : Literal) (units : Int) : Nat :=
  if -(l.units f : Int) ≤ units then f.zeroRank + 1 else f.zeroRank

/-- `pow2` at a finite operand: infinite from the format's overflow threshold on, and 0 from its underflow threshold down (R107);
exact at an integer whose power is a normal number (I3 f); otherwise finite, not negative (I3 g), and 0 only below the least subnormal. -/
def pow2Finite (f : NumFormat) (w : Word) (units : Int) : Word :=
  if ((f.maxExponent : Int) + 1) * f.unit ≤ units then f.signed false f.infinity
  else if units ≤ -(Literal.units f ⟨f.tcUnderflow, 1200⟩ : Int) then f.signed false 0
  else
    match integerOf f units, decide (-(f.minExponent : Int) * f.unit ≤ units) with
    | some k, true => powerWord f 2 k
    | _, _ => libraryBetween .pow2 f (leastPower f ⟨f.tcLeast, 1200⟩ units) (f.topRank - 1) w

/-- `pow2` of the format (R12). Of a NaN or an infinity, which no command hands it (R102), I3 says nothing: the answer there is the
free library's (DESIGN CHOICE, log entry 11). -/
def floatPow2 (f : NumFormat) (w : Word) : Word :=
  match w.datum f with
  | .fin neg n => pow2Finite f w (signedUnits neg n)
  | .inf _ => Config.library .pow2 f w
  | .nan => Config.library .pow2 f w

/-- Ten to this many hundredths is a finite number of the format, and ten to one hundredth more overflows (G3: 2^128 is about
10^38.532, 2^1024 about 10^308.255). -/
def NumFormat.pow10Overflow : NumFormat → Nat
  | .binary32 => 3853
  | .binary64 => 30825

/-- The greatest rank of `pow10` at an operand: infinity on overflow only (I3 g). -/
def greatestPower (f : NumFormat) (units : Int) : Nat :=
  if units * 100 ≤ f.pow10Overflow * f.unit then f.topRank - 1 else f.topRank

/-- `pow10` at a finite operand: 0 from the underflow threshold down (R107), infinite from the overflow threshold on (I3 g); correctly
rounded at an integer of at most 10 in absolute value (I3 f); otherwise not negative, infinite on overflow only and 0 on underflow only
(I3 g). Nothing else is assumed of it. -/
def pow10Finite (f : NumFormat) (w : Word) (units : Int) : Word :=
  if units ≤ -(Literal.units f ⟨f.cbUnderflow, 200⟩ : Int) then f.signed false 0
  else if (f.pow10Overflow + 1) * f.unit ≤ units * 100 then f.signed false f.infinity
  else
    match integerOf f units, decide (units.natAbs ≤ 10 * f.unit) with
    | some k, true => powerWord f 10 k
    | _, _ => libraryBetween .pow10 f (leastPower f ⟨f.cbLeast, 200⟩ units) (greatestPower f units) w

/-- `pow10` of the format (R12). Of a NaN or an infinity, which no command hands it (R102), I3 says nothing: the answer there is the
free library's (DESIGN CHOICE, log entry 11). -/
def floatPow10 (f : NumFormat) (w : Word) : Word :=
  match w.datum f with
  | .fin neg n => pow10Finite f w (signedUnits neg n)
  | .inf _ => Config.library .pow10 f w
  | .nan => Config.library .pow10 f w

end Sys2Proof
end

