-- ==== Sys2Proof/Machine/Arith.lean ====
section
/-! DEFINITION. The operations of `NUM` as one record, so that every rule is written once and read in every number format (spec 00_scope
R7, R11 to R14). -/

namespace Sys2Proof.Machine

/-- A number format: its operations (R11, R12) and its literals (R7). `V` is the type of its values. -/
structure Arith (V : Type) where
  zero : V
  one : V
  peak : V
  eps : V
  releaseFloor : V
  attackRate : V
  tcPerOctave : V
  cbPerDecade : V
  add : V → V → V
  sub : V → V → V
  mul : V → V → V
  div : V → V → V
  neg : V → V
  le : V → V → Bool
  lt : V → V → Bool
  finite : V → Bool
  isNaN : V → Bool
  exp : V → V
  ln : V → V
  pow2 : V → V
  pow10 : V → V

/-- `min(a, b)` (R12). -/
def Arith.min {V : Type} (O : Arith V) (a b : V) : V := if O.le a b then a else b

/-- `max(a, b)` (R12). -/
def Arith.max {V : Type} (O : Arith V) (a b : V) : V := if O.le a b then b else a

/-- `clamp(v, lo, hi) = min(hi, max(lo, v))` (R12). -/
def Arith.clamp {V : Type} (O : Arith V) (v lo hi : V) : V := O.min hi (O.max lo v)

/-- `lerp(a, b, t) = a + (b - a)·t` (R13). No command uses it: R13 defines it as the model of R14. -/
def Arith.lerp {V : Type} (O : Arith V) (a b t : V) : V := O.add a (O.mul (O.sub b a) t)

/-- `lerp_log(a, b, x)` (R14): both floored logarithms, the difference, the product with `x`, the sum. -/
def Arith.lerpLog {V : Type} (O : Arith V) (a b x : V) : V :=
  let la := O.ln (O.max a O.eps)
  let lb := O.ln (O.max b O.eps)
  O.add la (O.mul (O.sub lb la) x)

/-- The arithmetic of a floating format (R11, R12). -/
def floatArith (f : NumFormat) : Arith Word where
  zero := f.signed false 0
  one := Literal.word f ⟨1, 1⟩
  peak := Config.peak.word f
  eps := Config.eps.word f
  releaseFloor := Config.releaseFloor.word f
  attackRate := Config.attackRate.word f
  tcPerOctave := Config.tcPerOctave.word f
  cbPerDecade := Config.cbPerDecade.word f
  add := floatAdd f
  sub := floatSub f
  mul := floatMul f
  div := floatDiv f
  neg := floatNeg f
  le := floatLe f
  lt := floatLt f
  finite := floatFinite f
  isNaN := floatNaN f
  exp := floatExp f
  ln := floatLn f
  pow2 := floatPow2 f
  pow10 := floatPow10 f

end Sys2Proof.Machine
end

