-- ==== Sys2Proof/Machine/Flags.lean ====
section
/-! DEFINITION. The conditions the commands test. The block has no flags and no command writes one (spec 10_state R23); what other
hardware would leave in a flag is here a test made inside one command (00_scope R18). -/

namespace Sys2Proof.Machine

/-- `v ≤ 0`, the test of the zero-duration shortcuts (R133, R135, R137). -/
def Arith.notPositive {V : Type} (O : Arith V) (v : V) : Bool := O.le v O.zero

/-- `v > 0` (R92, R120, R133). -/
def Arith.positive {V : Type} (O : Arith V) (v : V) : Bool := O.lt O.zero v

/-- `elapsed ≥ duration`, the exit test of Delay and Hold (R145), for a finite duration. A Delay or a Hold of infinite duration never
exits (R198; 93_implementation_defined I9), not even where `elapsed` is infinite too and the test as R132 and R134 write it would
hold: where the two differ the model follows R198 and I9 (DEDUCED, log entry 10). -/
def Arith.reached {V : Type} (O : Arith V) (elapsed duration : V) : Bool := O.finite duration && O.le duration elapsed

/-- `x ≥ 1`, the exit test of Attack, Decay and Release (R145). -/
def Arith.complete {V : Type} (O : Arith V) (x : V) : Bool := O.le O.one x

/-- A sample rate that CREATE accepts: finite and `> 0` (R92). -/
def Arith.goodRate {V : Type} (O : Arith V) (sr : V) : Bool := O.finite sr && O.positive sr

end Sys2Proof.Machine
end

