-- ==== Sys2Proof/Machine/State.lean ====
section
/-! DEFINITION. The state of the block, of its two channels, and the machine after reset (spec 10_state, 30_encoding R65, 60_exceptions R171). -/

namespace Sys2Proof.Machine

/-- The stage register's seven values (R22). -/
inductive Stage where
  | idle
  | delay
  | attack
  | hold
  | decay
  | sustain
  | release
  deriving DecidableEq, Repr

/-- The fault codes (R171), in the order of their numbers 0 to 7. -/
inductive FaultCode where
  | none
  | illegalCommand
  | noInstance
  | alreadyCreated
  | useAfterDestroy
  | badSampleRate
  | nonfiniteOperand
  | unconfigured
  deriving DecidableEq, Repr

/-- The fault register (R30): the first fault's code and the position of its command. -/
structure FaultRecord where
  code : FaultCode
  index : Nat
  deriving DecidableEq, Repr

/-- The six configuration registers (R29), over the values `V` of the number format. -/
structure Settings (V : Type) where
  delay : V
  attack : V
  hold : V
  decay : V
  sustain : V
  release : V
  deriving DecidableEq, Repr

/-- The stage register (R22) with the six configuration registers (R29), which are all set or all unset (R120). The stage is Idle
while they are unset: "they read only configuration registers that are set in every stage other than Idle, because only NOTE_ON
leaves Idle and NOTE_ON requires a CONFIG" (R130). -/
inductive Phase (V : Type) where
  | unconfigured
  | configured (stage : Stage) (settings : Settings V)
  deriving DecidableEq, Repr

/-- The registers that hold values only between CREATE and DESTROY (R20, R38, R93). `phase` holds `stage` and the configuration. -/
structure Voice (V : Type) where
  sampleRate : V
  phase : Phase V
  elapsed : V
  level : V
  releaseStart : V
  deriving DecidableEq, Repr

/-- Where the envelope is in its lifetime (R21), with the registers of `Voice` where they hold values: in a Live envelope all of
them (R38), before CREATE (R21, R38) and after DESTROY (R93) none; a Faulted envelope keeps what the faulting command found
(R172; 93_implementation_defined I8), which no command reads. -/
inductive Life (V : Type) where
  | uncreated
  | live (v : Voice V)
  | destroyed
  | faulted (v : Option (Voice V))
  deriving DecidableEq, Repr

/-- The whole state of one envelope (R20), with the responses it has delivered, oldest first (R65, R201). -/
structure Block (V : Type) where
  life : Life V
  fault : FaultRecord
  cmdIndex : Nat
  responses : List V
  deriving DecidableEq, Repr

/-- The machine: one envelope whose values are words, its number format (R7), and the words that the host has sent and the block
has not taken yet (R65). -/
structure State extends Block Word where
  num : NumFormat
  channel : List Word
  deriving DecidableEq, Repr

/-- Why the machine stops: never. The spec's own faults are no stops: they are recorded in the fault register, and the machine goes on
(R172). A read of an unset register, which R9 and D9 of 92_eei_decisions call a fault, has no state of the model to happen in: every stage
but Idle comes with its configuration (R130), and Idle reads none. -/
inductive Fault where
  deriving DecidableEq, Repr

/-- Why the machine gives no meaning. -/
inductive Refusal where
  /-- An instruction without a meaning yet, by its mnemonic. Raised by an arm of `exec` alone. Safe. -/
  | notModelled (mnemonic : String)
  /-- The quotient of a timed stage would be NaN. Raised by NEXT in Attack, Decay and Release: 93_implementation_defined I5 says to
  refuse that NEXT (R176, R198). Safe. -/
  | nanQuotient
  /-- An operand word on the channel is not one whole `NUM` word (R69, R52), so no command was sent. Raised by `step`. Safe. -/
  | operandWidth
  deriving DecidableEq, Repr

/-- The machine of a number format before its first command: Uncreated, no command counted, no register holding a value (R38,
R190, R201), and both channels empty. -/
def State.resetIn (f : NumFormat) : State where
  life := .uncreated
  fault := ⟨.none, 0⟩
  cmdIndex := 0
  responses := []
  num := f
  channel := []

/-- The machine after reset. -/
def State.reset : State := State.resetIn Config.resetFormat

end Sys2Proof.Machine
end

