-- ==== Sys2Proof/Machine/Operands.lean ====
section
/-! DEFINITION. How CONFIG's operands become register values (spec 41_configuration R100 to R105). Every operand of the block is one
whole word taken as a `NUM` value (30_encoding R72); there is no other operand form. -/

namespace Sys2Proof.Machine

/-- Time-cents to seconds: one division, one `pow2` (R100). -/
def Arith.timecentsToSeconds {V : Type} (O : Arith V) (tc : V) : V := O.pow2 (O.div tc O.tcPerOctave)

/-- Centibels of attenuation to a linear gain: one negation, one division, one `pow10` (R101). -/
def Arith.cbAttenToLin {V : Type} (O : Arith V) (cb : V) : V := O.pow10 (O.div (O.neg cb) O.cbPerDecade)

/-- A duration operand: delay, attack, hold, decay (R103). -/
def Arith.ingestDuration {V : Type} (O : Arith V) (tc : V) : V := O.max O.zero (O.timecentsToSeconds tc)

/-- The sustain operand (R104): the clamp, which gives 1 where the attenuation is negative (R104, R107). Under `real` the clamp alone does
that; of a floating `pow10` I3 does not say that it is at least 1 there, so the rule's own sentence is a case of its own (DEDUCED, log
entry 23). -/
def Arith.ingestSustain {V : Type} (O : Arith V) (cb : V) : V :=
  if O.lt cb O.zero then O.one else O.clamp (O.cbAttenToLin cb) O.zero O.one

/-- The release operand, floored (R105). -/
def Arith.ingestRelease {V : Type} (O : Arith V) (tc : V) : V := O.max O.releaseFloor (O.ingestDuration tc)

/-- The six configuration registers that CONFIG writes (R102). -/
def Arith.ingest {V : Type} (O : Arith V) (d a h dc s r : V) : Settings V where
  delay := O.ingestDuration d
  attack := O.ingestDuration a
  hold := O.ingestDuration h
  decay := O.ingestDuration dc
  sustain := O.ingestSustain s
  release := O.ingestRelease r

/-- Every operand of CONFIG is finite (R102). -/
def Arith.allFinite {V : Type} (O : Arith V) (ws : List V) : Bool := ws.all O.finite

end Sys2Proof.Machine
end

