-- ==== Sys2Proof/Machine/Ops.lean ====
section
/-! DEFINITION. The operations that the commands share: raising a fault, the lifecycle check, the command frame (spec 40_lifecycle R90, R91;
60_exceptions R171 to R174), entering a stage and responding (00_scope R15), and the code numbers of 10_state. -/

namespace Sys2Proof.Machine

/-- The 2-bit code of `life` (R21). -/
def Life.code {V : Type} : Life V → BitVec 2
  | .uncreated => 0#2
  | .live _ => 1#2
  | .destroyed => 2#2
  | .faulted _ => 3#2

/-- The life is Faulted (R173). -/
def Life.isFaulted {V : Type} : Life V → Bool
  | .uncreated => false
  | .live _ => false
  | .destroyed => false
  | .faulted _ => true

/-- The registers of `Voice`, where they hold values. -/
def Life.voice {V : Type} : Life V → Option (Voice V)
  | .uncreated => none
  | .live v => some v
  | .destroyed => none
  | .faulted v => v

/-- The stage register (R22). While the configuration is unset it holds Idle (R130). -/
def Voice.stage {V : Type} (v : Voice V) : Stage :=
  match v.phase with
  | .unconfigured => .idle
  | .configured s _ => s

/-- The six configuration registers (R29), where they are set (R120). -/
def Voice.settings {V : Type} (v : Voice V) : Option (Settings V) :=
  match v.phase with
  | .unconfigured => none
  | .configured _ c => some c

/-- The 3-bit code of `stage` (R22). -/
def Stage.code : Stage → BitVec 3
  | .idle => 0#3
  | .delay => 1#3
  | .attack => 2#3
  | .hold => 3#3
  | .decay => 4#3
  | .sustain => 5#3
  | .release => 6#3

/-- The stage of a code; code 7 is never held and has no meaning (R22; 93_implementation_defined I7). -/
def Stage.ofCode (c : BitVec 3) : Option Stage :=
  match c.toNat with
  | 0 => some .idle
  | 1 => some .delay
  | 2 => some .attack
  | 3 => some .hold
  | 4 => some .decay
  | 5 => some .sustain
  | 6 => some .release
  | _ => none

/-- The number of a fault code (R171). -/
def FaultCode.number : FaultCode → Nat
  | .none => 0
  | .illegalCommand => 1
  | .noInstance => 2
  | .alreadyCreated => 3
  | .useAfterDestroy => 4
  | .badSampleRate => 5
  | .nonfiniteOperand => 6
  | .unconfigured => 7

/-- What a command's own rule does once the frame has accepted it: it is done, it raises one of the spec's faults, or it is refused. -/
inductive BodyResult (α : Type) where
  | done (a : α)
  | raises (c : FaultCode)
  | refuses (r : Refusal)
  deriving Repr

/-- The result with what is done changed. -/
def BodyResult.map {α β : Type} (g : α → β) : BodyResult α → BodyResult β
  | .done a => .done (g a)
  | .raises c => .raises c
  | .refuses r => .refuses r

/-- The last action of every command: `cmdIndex` counts it (R31, R90). -/
def Block.count {V : Type} (b : Block V) : Block V := { b with cmdIndex := b.cmdIndex + 1 }

/-- The registers of `Voice`, where they hold values. -/
def Block.voice {V : Type} (b : Block V) : Option (Voice V) := b.life.voice

/-- `raise Fault(c)`: the fault's record, the Faulted life, the count, and no other write (R172): the registers stay as they are. -/
def Block.raise {V : Type} (c : FaultCode) (b : Block V) : Block V :=
  { b with fault := ⟨c, b.cmdIndex⟩, life := .faulted b.voice, cmdIndex := b.cmdIndex + 1 }

/-- The end of a command's own rule: its writes and the count, or its fault, or its refusal (R90, R172). -/
def Block.conclude {V : Type} (b : Block V) : BodyResult (Block V) → Host.Outcome (Block V) Fault Refusal
  | .done b' => .next b'.count
  | .raises c => .next (b.raise c)
  | .refuses r => .refused r

/-- The frame of every legal command (R90): ignored but counted when Faulted (R173); otherwise what the command does before CREATE, what
it does to the registers of a Live envelope, or USE_AFTER_DESTROY, by the life it finds (R91). -/
def Block.frame {V : Type} (fresh : BodyResult (Block V)) (body : Voice V → BodyResult (Block V)) (b : Block V) :
    Host.Outcome (Block V) Fault Refusal :=
  match b.life with
  | .uncreated => b.conclude fresh
  | .live v => b.conclude (body v)
  | .destroyed => .next (b.raise .useAfterDestroy)
  | .faulted _ => .next b.count

/-- The frame of CREATE: its column of the table of R91. -/
def Block.beforeLive {V : Type} (fresh : BodyResult (Block V)) (b : Block V) : Host.Outcome (Block V) Fault Refusal :=
  b.frame fresh fun _ => .raises .alreadyCreated

/-- The frame of every other command: its column of the table of R91. -/
def Block.whileLive {V : Type} (body : Voice V → BodyResult (Block V)) (b : Block V) : Host.Outcome (Block V) Fault Refusal :=
  b.frame (.raises .noInstance) body

/-- A command on a Live envelope that writes registers of `Voice` and nothing else. -/
def Block.onVoice {V : Type} (g : Voice V → BodyResult (Voice V)) (b : Block V) : Host.Outcome (Block V) Fault Refusal :=
  b.whileLive fun v => (g v).map fun w => { b with life := .live w }

/-- A word that spells no command (R68, R74): ignored but counted when Faulted (R173), else it raises ILLEGAL_COMMAND before any
other check (R174). -/
def Block.illegal {V : Type} (b : Block V) : Block V :=
  if b.life.isFaulted then b.count else b.raise .illegalCommand

/-- `enter(s)`: the stage changes and `elapsed` starts at 0 (R15). The configuration, which is set wherever a stage is entered (R130),
stays. -/
def Voice.enter {V : Type} (O : Arith V) (s : Stage) (c : Settings V) (v : Voice V) : Voice V :=
  { v with phase := .configured s c, elapsed := O.zero }

/-- `respond(v)`: one word on the response channel (R15, R65). -/
def Block.respond {V : Type} (w : V) (b : Block V) : Block V := { b with responses := b.responses ++ [w] }

/-- The machine's outcome from its envelope's. -/
def State.lift (s : State) : Host.Outcome (Block Word) Fault Refusal → Host.Outcome State Fault Refusal
  | .next b => .next { s with toBlock := b }
  | .fault r => .fault r
  | .refused r => .refused r

/-- The arithmetic of the machine's number format. -/
def State.arith (s : State) : Arith Word := floatArith s.num

/-- A reset input of a signal-level implementation, if it has one: the envelope is Uncreated and nothing more; CREATE must follow (R190).
The channels belong to the interface and stay. -/
def State.resetInput (s : State) : State :=
  { s with life := .uncreated, fault := ⟨.none, 0⟩, cmdIndex := 0 }

end Sys2Proof.Machine
end

