-- ==== Sys2Proof/Machine/Configuration.lean ====
section
/-! DEFINITION. CONFIG (spec 41_configuration R102, R108). -/

namespace Sys2Proof.Machine

/-- CONFIG's writes: the six configuration registers and nothing else (R102, R108). -/
def Voice.configure {V : Type} (c : Settings V) (v : Voice V) : Voice V := { v with phase := .configured v.stage c }

/-- CONFIG's own rule on the registers: the finiteness check comes before any write (R102). -/
def Voice.config {V : Type} (O : Arith V) (d a h dc s r : V) (v : Voice V) : BodyResult (Voice V) :=
  if O.allFinite [d, a, h, dc, s, r] then .done (v.configure (O.ingest d a h dc s r)) else .raises .nonfiniteOperand

/-- CONFIG in its frame (R90, R102). -/
def Block.config {V : Type} (O : Arith V) (d a h dc s r : V) (b : Block V) : Host.Outcome (Block V) Fault Refusal :=
  b.onVoice (Voice.config O d a h dc s r)

/-- CONFIG (R102). -/
def execConfig (d a h dc su r : Word) (s : State) : Host.Outcome State Fault Refusal :=
  s.lift (s.toBlock.config s.arith d a h dc su r)

end Sys2Proof.Machine
end

