-- ==== Sys2Proof/Machine/Lifecycle.lean ====
section
/-! DEFINITION. CREATE and DESTROY (spec 40_lifecycle R92, R93). -/

namespace Sys2Proof.Machine

/-- The registers after CREATE (R92, R38). -/
def Voice.fresh {V : Type} (O : Arith V) (sr : V) : Voice V where
  sampleRate := sr
  phase := .unconfigured
  elapsed := O.zero
  level := O.zero
  releaseStart := O.zero

/-- CREATE's own rule (R92). -/
def Block.createBody {V : Type} (O : Arith V) (sr : V) (b : Block V) : BodyResult (Block V) :=
  if O.goodRate sr then .done { b with life := .live (Voice.fresh O sr), fault := ⟨.none, 0⟩ }
  else .raises .badSampleRate

/-- CREATE in its frame (R90, R92). -/
def Block.create {V : Type} (O : Arith V) (sr : V) (b : Block V) : Host.Outcome (Block V) Fault Refusal :=
  b.beforeLive (b.createBody O sr)

/-- DESTROY in its frame (R90, R93): the registers of `Voice` now hold no value. -/
def Block.destroy {V : Type} (b : Block V) : Host.Outcome (Block V) Fault Refusal :=
  b.whileLive fun _ => .done { b with life := .destroyed }

/-- CREATE (R92). -/
def execCreate (sr : Word) (s : State) : Host.Outcome State Fault Refusal :=
  s.lift (s.toBlock.create s.arith sr)

/-- DESTROY (R93). -/
def execDestroy (s : State) : Host.Outcome State Fault Refusal :=
  s.lift s.toBlock.destroy

end Sys2Proof.Machine
end

