-- ==== Sys2Proof/Machine/NoteControl.lean ====
section
/-! DEFINITION. NOTE_ON and NOTE_OFF (spec 42_note_control R120 to R122). -/

namespace Sys2Proof.Machine

/-- NOTE_ON's own rule on the registers (R120): `releaseStart` is not written. -/
def Voice.noteOn {V : Type} (O : Arith V) (v : Voice V) : BodyResult (Voice V) :=
  match v.phase with
  | .unconfigured => .raises .unconfigured
  | .configured _ c => .done { v.enter O (if O.positive c.delay then .delay else .attack) c with level := O.zero }

/-- NOTE_OFF's own rule on the registers (R121): nothing in Idle; elsewhere, Release included (R122), the level is captured and
Release entered. -/
def Voice.noteOff {V : Type} (O : Arith V) (v : Voice V) : Voice V :=
  match v.phase with
  | .unconfigured => v
  | .configured s c => if s = .idle then v else { v with releaseStart := v.level }.enter O .release c

/-- NOTE_ON in its frame (R90, R120). -/
def Block.noteOn {V : Type} (O : Arith V) (b : Block V) : Host.Outcome (Block V) Fault Refusal :=
  b.onVoice (Voice.noteOn O)

/-- NOTE_OFF in its frame (R90, R121). -/
def Block.noteOff {V : Type} (O : Arith V) (b : Block V) : Host.Outcome (Block V) Fault Refusal :=
  b.onVoice fun v => .done (v.noteOff O)

/-- NOTE_ON (R120). -/
def execNoteOn (s : State) : Host.Outcome State Fault Refusal :=
  s.lift (s.toBlock.noteOn s.arith)

/-- NOTE_OFF (R121). -/
def execNoteOff (s : State) : Host.Outcome State Fault Refusal :=
  s.lift (s.toBlock.noteOff s.arith)

end Sys2Proof.Machine
end

