-- ==== Sys2Proof/Machine/SampleStep.lean ====
section
/-! DEFINITION. NEXT and the stage steps (spec 43_sample_step R130 to R138, R144, R145). -/

namespace Sys2Proof.Machine

/-- `dt = 1 / sampleRate`, one division (R25). -/
def Voice.dt {V : Type} (O : Arith V) (v : Voice V) : V := O.div O.one v.sampleRate

/-- `elapsed + dt`, to which a timed stage advances (R132 to R137, R144). -/
def Voice.advanced {V : Type} (O : Arith V) (v : Voice V) : V := O.add v.elapsed (v.dt O)

/-- `x = min(1, elapsed / duration)` (R133, R135, R137); none where the quotient is NaN
(93_implementation_defined I5). -/
def Arith.fraction {V : Type} (O : Arith V) (elapsed duration : V) : Option V :=
  let q := O.div elapsed duration
  if O.isNaN q then none else some (O.min O.one q)

/-- The Attack curve `PEAK · (1 - exp(-ATTACK_RATE · x))`, in R133's order of operations. -/
def Arith.attackLevel {V : Type} (O : Arith V) (x : V) : V :=
  O.mul O.peak (O.sub O.one (O.exp (O.mul (O.neg O.attackRate) x)))

/-- The Decay curve (R135). -/
def Arith.decayLevel {V : Type} (O : Arith V) (sustain x : V) : V := O.exp (O.lerpLog O.peak sustain x)

/-- The Release curve (R137). -/
def Arith.releaseLevel {V : Type} (O : Arith V) (releaseStart x : V) : V := O.exp (O.lerpLog releaseStart O.eps x)

/-- `stepIdle` (R131). -/
def Voice.stepIdle {V : Type} (O : Arith V) (v : Voice V) : Voice V := { v with level := O.zero }

/-- `stepDelay` (R132). -/
def Voice.stepDelay {V : Type} (O : Arith V) (c : Settings V) (v : Voice V) : Voice V :=
  let e := v.advanced O
  let v' := { v with level := O.zero, elapsed := e }
  if O.reached e c.delay then v'.enter O .attack c else v'

/-- The exit of Attack, by shortcut or at the end of the curve (R133). The step up to `PEAK` is what R133 makes it: R141 calls it "at most
`PEAK · e^−6`" although it says itself that the value before lies below `PEAK · (1 − e^−6)`, which makes it more than that (DEDUCED,
log entry 22). -/
def Voice.leaveAttack {V : Type} (O : Arith V) (c : Settings V) (v : Voice V) : Voice V :=
  { v with level := O.peak }.enter O (if O.positive c.hold then .hold else .decay) c

/-- The exit of Decay (R135). -/
def Voice.leaveDecay {V : Type} (O : Arith V) (c : Settings V) (v : Voice V) : Voice V :=
  { v with level := c.sustain }.enter O .sustain c

/-- The exit of Release (R137). -/
def Voice.leaveRelease {V : Type} (O : Arith V) (c : Settings V) (v : Voice V) : Voice V :=
  { v with level := O.zero }.enter O .idle c

/-- A timed stage on its curve (R133, R135, R137): `elapsed` advances first (R144); then the exit test on the fraction `x` (R145), or
the curve's level at `x`. A NaN quotient is refused (I5). -/
def Voice.stepCurve {V : Type} (O : Arith V) (duration : V) (leave : Voice V → Voice V) (curve : V → V) (v : Voice V) :
    BodyResult (Voice V) :=
  let e := v.advanced O
  match O.fraction e duration with
  | none => .refuses .nanQuotient
  | some x => .done (if O.complete x then leave v else { v with elapsed := e, level := curve x })

/-- `stepAttack` (R133). -/
def Voice.stepAttack {V : Type} (O : Arith V) (c : Settings V) (v : Voice V) : BodyResult (Voice V) :=
  if O.notPositive c.attack then .done (v.leaveAttack O c)
  else v.stepCurve O c.attack (Voice.leaveAttack O c) O.attackLevel

/-- `stepHold` (R134). -/
def Voice.stepHold {V : Type} (O : Arith V) (c : Settings V) (v : Voice V) : Voice V :=
  let e := v.advanced O
  let v' := { v with level := O.peak, elapsed := e }
  if O.reached e c.hold then v'.enter O .decay c else v'

/-- `stepDecay` (R135). -/
def Voice.stepDecay {V : Type} (O : Arith V) (c : Settings V) (v : Voice V) : BodyResult (Voice V) :=
  if O.notPositive c.decay then .done (v.leaveDecay O c)
  else v.stepCurve O c.decay (Voice.leaveDecay O c) (O.decayLevel c.sustain)

/-- `stepSustain` (R136). -/
def Voice.stepSustain {V : Type} (c : Settings V) (v : Voice V) : Voice V := { v with level := c.sustain }

/-- `stepRelease` (R137). -/
def Voice.stepRelease {V : Type} (O : Arith V) (c : Settings V) (v : Voice V) : BodyResult (Voice V) :=
  if O.notPositive c.release then .done (v.leaveRelease O c)
  else v.stepCurve O c.release (Voice.leaveRelease O c) (O.releaseLevel v.releaseStart)

/-- The stage step of a stage, with the configuration set (R131 to R137). -/
def Voice.stepConfigured {V : Type} (O : Arith V) (s : Stage) (c : Settings V) (v : Voice V) : BodyResult (Voice V) :=
  match s with
  | .idle => .done (v.stepIdle O)
  | .delay => .done (v.stepDelay O c)
  | .attack => v.stepAttack O c
  | .hold => .done (v.stepHold O c)
  | .decay => v.stepDecay O c
  | .sustain => .done (v.stepSustain c)
  | .release => v.stepRelease O c

/-- One stage step (R130, R138). While the configuration is unset the stage is Idle, which reads no configuration register. -/
def Voice.next {V : Type} (O : Arith V) (v : Voice V) : BodyResult (Voice V) :=
  match v.phase with
  | .unconfigured => .done (v.stepIdle O)
  | .configured s c => v.stepConfigured O s c

/-- NEXT in its frame (R90, R130): the stage step, then the response, which is the level after it. -/
def Block.next {V : Type} (O : Arith V) (b : Block V) : Host.Outcome (Block V) Fault Refusal :=
  b.whileLive fun v => (v.next O).map fun w => Block.respond w.level { b with life := .live w }

/-- NEXT (R130). -/
def execNext (s : State) : Host.Outcome State Fault Refusal :=
  s.lift (s.toBlock.next s.arith)

end Sys2Proof.Machine
end

