-- ==== Sys2Proof/Machine/Dispatch.lean ====
section
/-! DEFINITION. One arm per command (spec opcode_table.json; 30_encoding R67). -/

namespace Sys2Proof.Machine

def exec (i : Instr) (s : State) : Host.Outcome State Fault Refusal :=
  match i with
  | .create sr => Sys2Proof.Machine.execCreate sr s
  | .destroy => Sys2Proof.Machine.execDestroy s
  | .config d a h dc su r => Sys2Proof.Machine.execConfig d a h dc su r s
  | .noteOn => Sys2Proof.Machine.execNoteOn s
  | .noteOff => Sys2Proof.Machine.execNoteOff s
  | .next => Sys2Proof.Machine.execNext s

end Sys2Proof.Machine
end

