-- ==== Sys2Proof/Machine/Step.lean ====
section
/-! DEFINITION. One step: the command at the front of the command channel (spec 20_memory R58; 30_encoding R65, R73; 40_lifecycle R90). -/

namespace Sys2Proof.Machine

/-- The state with its command channel replaced. -/
def State.withChannel (s : State) (ws : List Word) : State := { s with channel := ws }

/-- One step: take one whole command off the channel and run it. A word that spells no command runs the illegal command of R68
and R74. Where no whole command has arrived, the block does nothing (R185). -/
def step (s : State) : Host.Outcome State Fault Refusal :=
  match decode s.num s.channel with
  | .command i rest => exec i (s.withChannel rest)
  | .illegal rest => .next { s.withChannel rest with toBlock := s.toBlock.illegal }
  | .incomplete => .next s
  | .operandWidth => .refused .operandWidth

/-- The state with one command, given as one number, put at the front of the command channel, where `step` takes its next
command. -/
def State.withFetchWord (s : State) (nbits w : Nat) : State :=
  s.withChannel (tableWords s.num nbits w ++ s.channel)

end Sys2Proof.Machine
end

