-- ==== Sys2Proof/Machine/Assembler.lean ====
section
/-! DEFINITION. The assembler's text (spec 30_encoding R76, R77). -/

namespace Sys2Proof.Machine

/-- A decimal literal: sign, digits as one number, and the power of ten they are scaled by. -/
structure Decimal where
  neg : Bool
  digits : Nat
  exponent : Int
  deriving DecidableEq, Repr

/-- The literal as a `NUM` word, rounded to nearest, ties to even (R76). -/
def Decimal.word (f : NumFormat) (d : Decimal) : Word :=
  if 0 ≤ d.exponent then (Exact.frac d.neg (d.digits * 10 ^ d.exponent.natAbs * f.unit) 1).narrow f
  else (Exact.frac d.neg (d.digits * f.unit) (10 ^ d.exponent.natAbs)).narrow f

/-- A line of a command stream: a command, the pseudo-command RUN (R77), or nothing but a comment. -/
inductive AsmLine where
  | create (sampleRate : Decimal)
  | destroy
  | config (delayTc attackTc holdTc decayTc sustainCb releaseTc : Decimal)
  | noteOn
  | noteOff
  | next
  | run (count : Nat)
  | blank
  deriving DecidableEq, Repr

/-- The words of a line (R76, R77). RUN 0 is rejected. -/
def AsmLine.assemble (f : NumFormat) : AsmLine → Option (List Word)
  | .create sr => some (encode (.create (sr.word f)))
  | .destroy => some (encode .destroy)
  | .config d a h dc s r =>
    some (encode (.config (d.word f) (a.word f) (h.word f) (dc.word f) (s.word f) (r.word f)))
  | .noteOn => some (encode .noteOn)
  | .noteOff => some (encode .noteOff)
  | .next => some (encode .next)
  | .run n => if n = 0 then none else some (List.replicate n (encode .next)).flatten
  | .blank => some []

/-- The value of a decimal digit. -/
def digitValue (c : Char) : Option Nat :=
  if '0'.toNat ≤ c.toNat ∧ c.toNat ≤ '9'.toNat then some (c.toNat - '0'.toNat) else none

/-- The number that digits spell, read after the number so far. -/
def readDigits (soFar : Nat) : List Char → Option Nat
  | [] => some soFar
  | c :: cs =>
    match digitValue c with
    | some v => readDigits (10 * soFar + v) cs
    | none => none

/-- One digit or more. -/
def readNumber (cs : List Char) : Option Nat := if cs.isEmpty then none else readDigits 0 cs

/-- The text up to a character, and what follows it, where it occurs. -/
def splitAtChar (c : Char) (cs : List Char) : List Char × Option (List Char) :=
  match cs.dropWhile (fun x => x != c) with
  | [] => (cs, none)
  | _ :: after => (cs.takeWhile (fun x => x != c), some after)

/-- An optional sign: whether it is minus, and the text after it. -/
def readSign : List Char → Bool × List Char
  | '-' :: cs => (true, cs)
  | '+' :: cs => (false, cs)
  | cs => (false, cs)

/-- A decimal literal: an optional sign, digits, an optional fraction, an optional exponent (R76). DESIGN CHOICE (log entry 18): R76 writes
the exponent as an `e`, a plus or minus, and `N`; here its sign may be left out too. -/
def readDecimal (cs : List Char) : Option Decimal :=
  let (neg, unsigned) := readSign cs
  let (mantissa, power) := splitAtChar 'e' unsigned
  let (whole, fraction) := splitAtChar '.' mantissa
  let exponent : Option Int :=
    match power with
    | none => some 0
    | some p =>
      let (down, digits) := readSign p
      (readNumber digits).map fun n => if down then -(n : Int) else (n : Int)
  match readNumber whole, exponent with
  | some w, some e =>
    match fraction with
    | none => some ⟨neg, w, e⟩
    | some fr => if fr.isEmpty then none else (readDigits w fr).map fun d => ⟨neg, d, e - (fr.length : Int)⟩
  | _, _ => none

/-- A blank of the text. -/
def isBlank (c : Char) : Bool := c == ' ' || c == '\t'

/-- The text without blanks at either end. -/
def trimBlanks (cs : List Char) : List Char := ((cs.dropWhile isBlank).reverse.dropWhile isBlank).reverse

/-- The parts of a text between commas. -/
def splitCommas : List Char → List (List Char)
  | [] => [[]]
  | c :: cs =>
    match splitCommas cs with
    | [] => [[c]]
    | part :: parts => if c == ',' then [] :: part :: parts else (c :: part) :: parts

/-- The operands of a line, every one a decimal literal. -/
def readOperands (cs : List Char) : Option (List Decimal) :=
  if cs.isEmpty then some [] else (splitCommas cs).mapM fun part => readDecimal (trimBlanks part)

/-- One line of text (R76, R77): a comment runs from a semicolon to the end; mnemonics are upper case. -/
def readLine (cs : List Char) : Option AsmLine :=
  let text := trimBlanks (splitAtChar ';' cs).1
  let name := text.takeWhile fun c => !isBlank c
  let after := trimBlanks (text.dropWhile fun c => !isBlank c)
  if text.isEmpty then some .blank
  else if name = ['R', 'U', 'N'] then (readNumber after).map .run
  else
    match readOperands after with
    | none => none
    | some ops =>
      if name = ['C', 'R', 'E', 'A', 'T', 'E'] then
        match ops with
        | [sr] => some (.create sr)
        | _ => none
      else if name = ['D', 'E', 'S', 'T', 'R', 'O', 'Y'] then (if ops.isEmpty then some .destroy else none)
      else if name = ['C', 'O', 'N', 'F', 'I', 'G'] then
        match ops with
        | [d, a, h, dc, s, r] => some (.config d a h dc s r)
        | _ => none
      else if name = ['N', 'O', 'T', 'E', '_', 'O', 'N'] then (if ops.isEmpty then some .noteOn else none)
      else if name = ['N', 'O', 'T', 'E', '_', 'O', 'F', 'F'] then (if ops.isEmpty then some .noteOff else none)
      else if name = ['N', 'E', 'X', 'T'] then (if ops.isEmpty then some .next else none)
      else none

/-- The words of a command stream, one line of text for each command (R76). -/
def assembleText (f : NumFormat) (lines : List (List Char)) : Option (List Word) :=
  (lines.mapM fun l => (readLine l).bind fun a => a.assemble f).map List.flatten

end Sys2Proof.Machine
end

