-- ==== Sys2Proof/Machine/Bank.lean ====
section
/-! DEFINITION. Several envelopes, one for each voice (spec 20_memory R59; 60_exceptions R183; 40_lifecycle R94; 92_eei_decisions D23): each has its
own state and its own command stream, and shares nothing with the others. -/

namespace Sys2Proof.Machine

/-- One step of the envelope at place `k`; the others stand still. A place that holds none does nothing. A refusal of that envelope ends the
step of the whole bank: what the others do after it the model does not say (DESIGN CHOICE, log entry 20). -/
def bankStep (k : Nat) (bank : List State) : Host.Outcome (List State) Fault Refusal :=
  match bank[k]? with
  | none => .next bank
  | some s =>
    match step s with
    | .next t => .next (bank.set k t)
    | .fault r => .fault r
    | .refused r => .refused r

/-- The host sends words to the envelope at place `k` (R65). -/
def bankSend (k : Nat) (ws : List Word) (bank : List State) : List State :=
  bank.modify k fun s => s.withChannel (s.channel ++ ws)

/-- The host starts a new envelope, Uncreated: a destroyed one is never created again (R94). -/
def bankNew (f : NumFormat) (bank : List State) : List State := bank ++ [State.resetIn f]

end Sys2Proof.Machine
end

