-- ==== Sys2Proof/Machine/Reference.lean ====
section
/-! DEFINITION. The commands over any number format, and the exact `real` reference (spec 00_scope R7, R11, R12; 30_encoding R69: `real` "is
the reference semantics and has no wire form"). The rules are those of the machine, read over the real numbers. -/

namespace Sys2Proof.Machine

/-- A command with operands in `V`. -/
inductive Command (V : Type) where
  | create (sampleRate : V)
  | destroy
  | config (delayTc attackTc holdTc decayTc sustainCb releaseTc : V)
  | noteOn
  | noteOff
  | next
  deriving DecidableEq, Repr

/-- The command of an instruction word. -/
def Command.ofInstr : Instr → Command Word
  | .create sr => .create sr
  | .destroy => .destroy
  | .config d a h dc s r => .config d a h dc s r
  | .noteOn => .noteOn
  | .noteOff => .noteOff
  | .next => .next

/-- One command on one envelope, in the number format `O` (R90). -/
def Block.command {V : Type} (O : Arith V) (c : Command V) (b : Block V) : Host.Outcome (Block V) Fault Refusal :=
  match c with
  | .create sr => b.create O sr
  | .destroy => b.destroy
  | .config d a h dc s r => b.config O d a h dc s r
  | .noteOn => b.noteOn O
  | .noteOff => b.noteOff O
  | .next => b.next O

/-- An envelope before its first command (R38, R201). -/
def Block.uncreated (V : Type) : Block V where
  life := .uncreated
  fault := ⟨.none, 0⟩
  cmdIndex := 0
  responses := []

/-- A literal as a real number: exactly the fraction it is written as. -/
noncomputable def Literal.real (l : Literal) : ℝ := (l.num : ℝ) / (l.den : ℝ)

/-- `NUM = real` (R11, R12): exact arithmetic, the mathematical functions, every value finite. -/
noncomputable def realArith : Arith ℝ where
  zero := 0
  one := 1
  peak := Literal.real Config.peak
  eps := Literal.real Config.eps
  releaseFloor := Literal.real Config.releaseFloor
  attackRate := Literal.real Config.attackRate
  tcPerOctave := Literal.real Config.tcPerOctave
  cbPerDecade := Literal.real Config.cbPerDecade
  add := fun a b => a + b
  sub := fun a b => a - b
  mul := fun a b => a * b
  div := fun a b => a / b
  neg := fun a => -a
  le := fun a b => decide (a ≤ b)
  lt := fun a b => decide (a < b)
  finite := fun _ => true
  isNaN := fun _ => false
  exp := Real.exp
  ln := Real.log
  pow2 := fun v => (2 : ℝ) ^ v
  pow10 := fun v => (10 : ℝ) ^ v

end Sys2Proof.Machine
end

