-- ==== Sys2Proof/Safety.lean ====
section
/-! DEFINITION. What the claims are stated in: legal register values, the invariant, runs of commands, the order of use of the host (spec
10_state R29, R32; 70_reset_and_hazards R192, R201). -/

namespace Sys2Proof.Machine

/-- A level: finite, and between 0 and 1 (R32, R27). -/
def Arith.Level {V : Type} (O : Arith V) (v : V) : Prop :=
  O.finite v = true ∧ O.le O.zero v = true ∧ O.le v O.one = true

/-- The legal values of the configuration registers (R29, R106). A duration may be infinite under a floating format. -/
structure Settings.Legal {V : Type} (O : Arith V) (c : Settings V) : Prop where
  delay : O.le O.zero c.delay = true
  attack : O.le O.zero c.attack = true
  hold : O.le O.zero c.hold = true
  decay : O.le O.zero c.decay = true
  release : O.le O.releaseFloor c.release = true
  sustain : O.Level c.sustain

/-- What R32, R24 and R29 say of the registers of a Live envelope. -/
structure Voice.Sound {V : Type} (O : Arith V) (v : Voice V) : Prop where
  rate : O.goodRate v.sampleRate = true
  elapsed : O.le O.zero v.elapsed = true
  level : O.Level v.level
  releaseStart : O.Level v.releaseStart
  settings : ∀ c, v.settings = some c → c.Legal O

/-- The life with its registers, where they hold values, changed. -/
def Life.mapVoice {V : Type} (g : Voice V → Voice V) : Life V → Life V
  | .uncreated => .uncreated
  | .live v => .live (g v)
  | .destroyed => .destroyed
  | .faulted v => .faulted (v.map g)

/-- The invariant of an envelope: nothing counted before CREATE (R31, R38), the legal values of the registers of a Live envelope (R32), the
fault record (R30, R173), and the responses. -/
structure Block.Sound {V : Type} (O : Arith V) (b : Block V) : Prop where
  uncreated : b.life = .uncreated → b.cmdIndex = 0
  live : ∀ v, b.life = .live v → v.Sound O
  faulted : b.life.isFaulted = true ↔ b.fault.code ≠ .none
  recorded : b.life.isFaulted = true → b.fault.index < b.cmdIndex
  responses : ∀ r ∈ b.responses, O.Level r

/-- The invariant of the machine, in its own number format. -/
def State.Sound (s : State) : Prop := s.toBlock.Sound s.arith

/-- Commands one after the other, stopping at the first that gives no next state (R58). -/
def runCommands : List Instr → State → Host.Outcome State Fault Refusal
  | [], s => .next s
  | i :: is, s =>
    match exec i s with
    | .next t => runCommands is t
    | .fault r => .fault r
    | .refused r => .refused r

/-- A run's end is successful only without a fault recorded (R173, R201). -/
def State.Successful (s : State) : Prop := s.fault.code = .none

/-- Commands a host may send to a Live envelope (R192): CONFIG with finite operands at any time, NOTE_ON only after a CONFIG,
NOTE_OFF and NEXT at any time, DESTROY last. The first argument says whether a CONFIG has been sent. -/
def legalUse (f : NumFormat) : Bool → List Instr → Bool
  | _, [] => true
  | _, .config d a h dc s r :: is => [d, a, h, dc, s, r].all (floatFinite f) && legalUse f true is
  | configured, .noteOn :: is => configured && legalUse f configured is
  | configured, .noteOff :: is => legalUse f configured is
  | configured, .next :: is => legalUse f configured is
  | _, .destroy :: is => is.isEmpty
  | _, .create _ :: _ => false

/-- The order of use of R192: CREATE with a finite positive sample rate, then what `legalUse` allows. -/
def legalStream (f : NumFormat) : List Instr → Bool
  | .create sr :: is => (floatArith f).goodRate sr && legalUse f false is
  | _ => false

/-- `n` NEXT steps on the registers, with no other command between them. -/
def Voice.nextTimes {V : Type} (O : Arith V) : Nat → Voice V → BodyResult (Voice V)
  | 0, v => .done v
  | n + 1, v =>
    match v.next O with
    | .done v' => Voice.nextTimes O n v'
    | r => r

/-- The stage a voice is in lasts exactly `n` NEXT commands: it is still in it after every smaller number; the last leaves it
for `after`, with `elapsed` 0, and responds `level` (R143). -/
def Voice.StageLasts {V : Type} (O : Arith V) (v : Voice V) (n : Nat) (after : Stage) (level : V) : Prop :=
  0 < n ∧ (∀ k < n, ∃ w, Voice.nextTimes O k v = .done w ∧ w.stage = v.stage) ∧
    ∃ w, Voice.nextTimes O n v = .done w ∧ w.stage = after ∧ w.elapsed = O.zero ∧ w.level = level

end Sys2Proof.Machine
end

