-- ==== Sys2Proof/Certificates/Slice0/Obligations.lean ====
section
/-! DEFINITION. The statements for the provers, each about the machine over all states. -/

open Sys2Proof Sys2Proof.Machine

/-! Encoding and decoding (30_encoding). -/

/-- Words written out from R67, R71 and R78 decode to the commands they stand for. -/
def Obligations.WrittenWordsDecode : Prop :=
  decode .binary32 [.w32 0x00000001#32, .w32 0x41000000#32] = .command (.create (.w32 0x41000000#32)) [] ∧
  decode .binary64 [.w32 0x00000001#32, .w64 0x4020000000000000#64] = .command (.create (.w64 0x4020000000000000#64)) [] ∧
  decode .binary32 [.w32 0x00000002#32] = .command .destroy [] ∧
  decode .binary32 [.w32 0x00000003#32, .w32 0xC5610000#32, .w32 0xC5160000#32, .w32 0xC5610000#32, .w32 0xC4960000#32,
      .w32 0x43480000#32, .w32 0xC5160000#32] =
    .command (.config (.w32 0xC5610000#32) (.w32 0xC5160000#32) (.w32 0xC5610000#32) (.w32 0xC4960000#32)
      (.w32 0x43480000#32) (.w32 0xC5160000#32)) [] ∧
  decode .binary32 [.w32 0x00000004#32] = .command .noteOn [] ∧
  decode .binary32 [.w32 0x00000005#32] = .command .noteOff [] ∧
  decode .binary32 [.w32 0x00000006#32] = .command .next [] ∧
  decode .binary32 [.w32 0x80000006#32] = .illegal [] ∧
  decode .binary32 [.w32 0x00000009#32] = .illegal []

/-- R73, R74: the legal headers are exactly the six words of R67. -/
def Obligations.LegalHeadersAreTheSix : Prop :=
  ∀ h : BitVec 32, (decodeHeader h).isSome = true ↔
    h = 0x00000001#32 ∨ h = 0x00000002#32 ∨ h = 0x00000003#32 ∨ h = 0x00000004#32 ∨ h = 0x00000005#32 ∨ h = 0x00000006#32

/-- Decoding the words of a well-formed command gives it back, whatever follows it. -/
def Obligations.DecodeOfEncode : Prop :=
  ∀ (f : NumFormat) (i : Instr) (rest : List Word), i.wellFormed f = true → decode f (encode i ++ rest) = .command i rest

/-- A stream of well-formed commands decodes to exactly those commands, whatever follows them. -/
def Obligations.StreamDecodesToItsCommands : Prop :=
  ∀ (f : NumFormat) (is : List Instr) (rest : List Word), (∀ i ∈ is, i.wellFormed f = true) →
    decodeStream f is.length (is.flatMap encode ++ rest) = is

/-- R77: RUN n is n NEXT headers, and RUN 0 is no command. -/
def Obligations.RunExpandsToNexts : Prop :=
  ∀ (f : NumFormat) (n : Nat),
    (AsmLine.run n).assemble f = if n = 0 then none else some (List.replicate n (.w32 0x00000006#32))

/-! The step (40_lifecycle R90). -/

/-- What a step does: the whole command at the front of the channel runs, with the channel moved past it; a word that spells no
command is the illegal command; without a whole command nothing changes; an operand word of the wrong width is refused. -/
def Obligations.StepRunsTheDecodedCommand : Prop :=
  ∀ (s : State),
    (∀ i rest, decode s.num s.channel = .command i rest → step s = exec i { s with channel := rest }) ∧
    (∀ rest, decode s.num s.channel = .illegal rest →
      step s = .next (if s.life.isFaulted = true then { s with channel := rest, cmdIndex := s.cmdIndex + 1 }
        else { s with
          channel := rest, life := .faulted s.life.voice, fault := ⟨.illegalCommand, s.cmdIndex⟩,
          cmdIndex := s.cmdIndex + 1 })) ∧
    (decode s.num s.channel = .incomplete → step s = .next s) ∧
    (decode s.num s.channel = .operandWidth → step s = .refused .operandWidth)

/-- R68: a header with a reserved bit set raises ILLEGAL_COMMAND whatever its `op`. -/
def Obligations.ReservedBitsRaiseIllegalCommand : Prop :=
  ∀ (s : State) (h : BitVec 32) (rest : List Word), headerRsv h ≠ 0#29 → s.life.isFaulted = false →
    s.channel = .w32 h :: rest →
    step s = .next { s with
      channel := rest, life := .faulted s.life.voice, fault := ⟨.illegalCommand, s.cmdIndex⟩, cmdIndex := s.cmdIndex + 1 }

/-- Running the words of a stream of well-formed commands through the machine is running the commands in order, up to the first
that gives no next state. -/
def Obligations.RunOfStreamIsRunOfCommands : Prop :=
  ∀ (is : List Instr) (s : State) (rest : List Word), (∀ i ∈ is, i.wellFormed s.num = true) →
    core.run is.length { s with channel := is.flatMap encode ++ rest } = runCommands is { s with channel := rest }

/-! The frame of every command (40_lifecycle R90, R91; 60_exceptions). -/

/-- R31: `cmdIndex` is 0 before the first command and every received command adds 1: accepted, faulting, ignored or illegal. -/
def Obligations.EveryCommandIsCounted : Prop :=
  (∀ f, (State.resetIn f).cmdIndex = 0) ∧
  (∀ (i : Instr) (s t : State), exec i s = .next t → t.cmdIndex = s.cmdIndex + 1) ∧
  ∀ (s t : State) (rest : List Word), decode s.num s.channel = .illegal rest → step s = .next t → t.cmdIndex = s.cmdIndex + 1

/-- R91: the table of the lifecycle check, for every command and whatever its operands: the three faults where the table has them, and
none of the three where it accepts. -/
def Obligations.LifecycleCheck : Prop :=
  ∀ (i : Instr) (s : State),
    (s.life = .uncreated → (∀ sr, i ≠ .create sr) →
      exec i s = .next { s with life := .faulted none, fault := ⟨.noInstance, s.cmdIndex⟩, cmdIndex := s.cmdIndex + 1 }) ∧
    (∀ v, s.life = .live v → (∃ sr, i = .create sr) →
      exec i s =
        .next { s with life := .faulted (some v), fault := ⟨.alreadyCreated, s.cmdIndex⟩, cmdIndex := s.cmdIndex + 1 }) ∧
    (s.life = .destroyed →
      exec i s =
        .next { s with life := .faulted none, fault := ⟨.useAfterDestroy, s.cmdIndex⟩, cmdIndex := s.cmdIndex + 1 }) ∧
    ((s.life = .uncreated ∧ ∃ sr, i = .create sr) ∨ ((∃ v, s.life = .live v) ∧ ∀ sr, i ≠ .create sr) →
      ∀ t, exec i s = .next t → t.life.isFaulted = true →
        t.fault.code ≠ .noInstance ∧ t.fault.code ≠ .alreadyCreated ∧ t.fault.code ≠ .useAfterDestroy)

/-- R172: a command that raises a fault, and a word that spells no command, writes the record, the life and the count, and nothing else: no
other register, and no response. -/
def Obligations.FaultsArePrecise : Prop :=
  (∀ (i : Instr) (s t : State), s.life.isFaulted = false → exec i s = .next t → t.life.isFaulted = true →
    ∃ c : FaultCode, c ≠ .none ∧
      t = { s with life := .faulted s.life.voice, fault := ⟨c, s.cmdIndex⟩, cmdIndex := s.cmdIndex + 1 }) ∧
  ∀ (s t : State) (rest : List Word), s.life.isFaulted = false → decode s.num s.channel = .illegal rest → step s = .next t →
    t = { s with
      channel := rest, life := .faulted s.life.voice, fault := ⟨.illegalCommand, s.cmdIndex⟩, cmdIndex := s.cmdIndex + 1 }

/-- R173: in the Faulted state every command, and every word that spells none, only counts; and a sound Faulted state is no successful end. -/
def Obligations.FaultedOnlyCounts : Prop :=
  ∀ (s : State), s.life.isFaulted = true →
    (∀ i, exec i s = .next { s with cmdIndex := s.cmdIndex + 1 }) ∧
    (∀ rest, decode s.num s.channel = .illegal rest → step s = .next { s with channel := rest, cmdIndex := s.cmdIndex + 1 }) ∧
    (s.Sound → ¬ s.Successful)

/-- R173: Faulted is for good, however many steps follow: the life, the record, the registers (which the life holds) and the responses
stay. -/
def Obligations.FaultedForGood : Prop :=
  ∀ (n : Nat) (s t : State), s.life.isFaulted = true → core.run n s = .next t →
    t.life = s.life ∧ t.fault = s.fault ∧ t.responses = s.responses ∧ s.cmdIndex ≤ t.cmdIndex

/-- R94: a destroyed envelope is never created again, however many steps follow. -/
def Obligations.DestroyedIsNeverLiveAgain : Prop :=
  ∀ (n : Nat) (s t : State), s.life = .destroyed → core.run n s = .next t → t.life = .destroyed ∨ t.life = .faulted none

/-- CONFIG, NOTE_ON and NOTE_OFF twice in a row leave the same state as once, but for the count (R57). -/
def Obligations.RepeatedCommandsAreIdempotent : Prop :=
  ∀ (i : Instr) (s t : State), (i = .noteOn ∨ i = .noteOff ∨ ∃ d a h dc su r, i = .config d a h dc su r) →
    exec i s = .next t → exec i t = .next { t with cmdIndex := t.cmdIndex + 1 }

/-! CREATE and DESTROY (40_lifecycle). -/

/-- R92: CREATE's encoding, what it leaves when it is accepted, and when it raises each of its faults. -/
def Obligations.CreateResetsTheEnvelope : Prop :=
  ∀ (s : State) (sr : Word),
    encode (.create sr) = [.w32 0x00000001#32, sr] ∧
    (s.life = .uncreated → floatFinite s.num sr = true → floatLt s.num (s.num.word 0) sr = true →
      exec (.create sr) s = .next { s with
        life := .live
          { sampleRate := sr, phase := .unconfigured, elapsed := s.num.word 0, level := s.num.word 0,
            releaseStart := s.num.word 0 }
        fault := ⟨.none, 0⟩
        cmdIndex := s.cmdIndex + 1 }) ∧
    (s.life = .uncreated → (floatFinite s.num sr = false ∨ floatLt s.num (s.num.word 0) sr = false) →
      exec (.create sr) s =
        .next { s with life := .faulted none, fault := ⟨.badSampleRate, s.cmdIndex⟩, cmdIndex := s.cmdIndex + 1 }) ∧
    (∀ v, s.life = .live v → exec (.create sr) s =
        .next { s with life := .faulted (some v), fault := ⟨.alreadyCreated, s.cmdIndex⟩, cmdIndex := s.cmdIndex + 1 }) ∧
    (s.life = .destroyed → exec (.create sr) s =
        .next { s with life := .faulted none, fault := ⟨.useAfterDestroy, s.cmdIndex⟩, cmdIndex := s.cmdIndex + 1 })

/-- R93: DESTROY's encoding, what it leaves in every stage, its faults, and that every command after it faults. -/
def Obligations.DestroyEndsTheEnvelope : Prop :=
  ∀ (s : State),
    encode .destroy = [.w32 0x00000002#32] ∧
    (∀ v, s.life = .live v →
      exec .destroy s = .next { s with life := .destroyed, cmdIndex := s.cmdIndex + 1 } ∧
      ∀ i, exec i { s with life := .destroyed, cmdIndex := s.cmdIndex + 1 } = .next { s with
        life := .faulted none, fault := ⟨.useAfterDestroy, s.cmdIndex + 1⟩, cmdIndex := s.cmdIndex + 1 + 1 }) ∧
    (s.life = .uncreated → exec .destroy s =
        .next { s with life := .faulted none, fault := ⟨.noInstance, s.cmdIndex⟩, cmdIndex := s.cmdIndex + 1 }) ∧
    (s.life = .destroyed → exec .destroy s =
        .next { s with life := .faulted none, fault := ⟨.useAfterDestroy, s.cmdIndex⟩, cmdIndex := s.cmdIndex + 1 })

/-- R24: CREATE writes the sample rate, finite and positive, and no other command writes it. -/
def Obligations.SampleRateIsFixedAtCreation : Prop :=
  (∀ (s t : State) (sr : Word) (v : Voice Word), exec (.create sr) s = .next t → t.life = .live v →
    v.sampleRate = sr ∧ floatFinite t.num sr = true ∧ floatLt t.num (t.num.word 0) sr = true) ∧
  ∀ (i : Instr) (s t : State) (v v' : Voice Word), (∀ sr, i ≠ .create sr) → s.life.voice = some v → exec i s = .next t →
    t.life.voice = some v' → v'.sampleRate = v.sampleRate

/-! CONFIG (41_configuration). -/

/-- DERIVED from R102 to R105 and R107: CONFIG's encoding, the six registers it writes, and its faults, before any write.
That the sustain of a negative operand is exactly 1, as a case beside R104's clamp, is the model's own reading
(DEDUCED, log entry 23): R104 and R107 give the 1, and I3 does not say that a floating `pow10` is at least 1 there. -/
def Obligations.ConfigWritesTheSixRegisters : Prop :=
  ∀ (s : State) (d a h dc su r : Word),
    let O := floatArith s.num
    let seconds := fun tc => O.max O.zero (O.pow2 (O.div tc O.tcPerOctave))
    encode (.config d a h dc su r) = [.w32 0x00000003#32, d, a, h, dc, su, r] ∧
    (s.life = .uncreated → exec (.config d a h dc su r) s =
        .next { s with life := .faulted none, fault := ⟨.noInstance, s.cmdIndex⟩, cmdIndex := s.cmdIndex + 1 }) ∧
    (s.life = .destroyed → exec (.config d a h dc su r) s =
        .next { s with life := .faulted none, fault := ⟨.useAfterDestroy, s.cmdIndex⟩, cmdIndex := s.cmdIndex + 1 }) ∧
    (∀ v, s.life = .live v →
    ((∀ w ∈ [d, a, h, dc, su, r], floatFinite s.num w = true) →
      exec (.config d a h dc su r) s = .next { s with
        life := .live { v with
          phase := .configured v.stage
            { delay := seconds d, attack := seconds a, hold := seconds h, decay := seconds dc,
              sustain := if O.lt su O.zero then O.one
                else O.min O.one (O.max O.zero (O.pow10 (O.div (O.neg su) O.cbPerDecade))),
              release := O.max O.releaseFloor (seconds r) } }
        cmdIndex := s.cmdIndex + 1 }) ∧
    ((∃ w ∈ [d, a, h, dc, su, r], floatFinite s.num w = false) →
      exec (.config d a h dc su r) s =
        .next { s with life := .faulted (some v), fault := ⟨.nonfiniteOperand, s.cmdIndex⟩, cmdIndex := s.cmdIndex + 1 }))

/-- R108: CONFIG's frame. It leaves every register but the six, and where it faults it leaves those too. -/
def Obligations.ConfigFrame : Prop :=
  ∀ (s t : State) (d a h dc su r : Word), exec (.config d a h dc su r) s = .next t →
    (t.life.voice.map fun v => (v.sampleRate, v.stage, v.elapsed, v.level, v.releaseStart)) =
      (s.life.voice.map fun v => (v.sampleRate, v.stage, v.elapsed, v.level, v.releaseStart)) ∧
    t.num = s.num ∧ t.channel = s.channel ∧ t.responses = s.responses ∧
    ((∃ v w, s.life = .live v ∧ t.life = .live w ∧ t.fault = s.fault) ∨
      (t.life.isFaulted = true ∧ t.life.voice = s.life.voice))

/-- R106: in every format, what CONFIG writes is legal: the release is never below the floor, sustain lies in [0, 1], no duration
is negative or NaN. -/
def Obligations.ConfigWritesLegalValues : Prop :=
  ∀ (f : NumFormat) (d a h dc su r : Word), (∀ w ∈ [d, a, h, dc, su, r], floatFinite f w = true) →
    ((floatArith f).ingest d a h dc su r).Legal (floatArith f)

/-- R104 and R107: where CONFIG's conversions overflow, underflow and clamp in the two floating formats. A duration is 0 where the power is half
the least subnormal or less, above 0 where it is the least subnormal or more, and infinite from the overflow threshold on; a negative
attenuation gives a sustain of exactly 1, and a sustain is 0 and above 0 by the same two bounds. Each of R107's four thresholds is one of
the bounds; its "about" is taken to cover what lies between the two (the model's reading, log entry 13), and the sustain of 1
in a floating format is the case of log entry 23. -/
def Obligations.ConversionLimits : Prop :=
  ∀ (f : NumFormat) (zeroTc leastTc infiniteTc zeroCb leastCb : Nat) (tc cb : Word),
    (f, zeroTc, leastTc, infiniteTc, zeroCb, leastCb) ∈
      [(.binary32, 180000, 178800, 153600, 9031, 8970), (.binary64, 1290000, 1288800, 1228800, 64722, 64661)] →
    floatFinite f tc = true → floatFinite f cb = true →
    let number := fun n : Nat => Literal.word f ⟨n, 1⟩
    let minus := fun n : Nat => floatNeg f (Literal.word f ⟨n, 1⟩)
    let duration := (floatArith f).ingestDuration tc
    let sustain := (floatArith f).ingestSustain cb
    (floatLe f tc (minus zeroTc) = true → duration = f.word 0) ∧
    (floatLe f (minus leastTc) tc = true → floatLt f (f.word 0) duration = true) ∧
    (floatLe f (number infiniteTc) tc = true → duration = f.word f.infinity) ∧
    (floatLe f tc (number (infiniteTc - 1)) = true → floatFinite f duration = true) ∧
    (floatLt f cb (f.word 0) = true → sustain = number 1) ∧
    (floatLe f (number zeroCb) cb = true → sustain = f.word 0) ∧
    (floatLe f cb (number leastCb) = true → floatLt f (f.word 0) sustain = true)

/-! NOTE_ON and NOTE_OFF (42_note_control). -/

/-- R120: NOTE_ON's encoding, what it does in every stage, and its faults. -/
def Obligations.NoteOnStartsTheNote : Prop :=
  ∀ (s : State),
    encode .noteOn = [.w32 0x00000004#32] ∧
    (s.life = .uncreated → exec .noteOn s =
        .next { s with life := .faulted none, fault := ⟨.noInstance, s.cmdIndex⟩, cmdIndex := s.cmdIndex + 1 }) ∧
    (s.life = .destroyed → exec .noteOn s =
        .next { s with life := .faulted none, fault := ⟨.useAfterDestroy, s.cmdIndex⟩, cmdIndex := s.cmdIndex + 1 }) ∧
    (∀ v, s.life = .live v →
    (∀ c, v.settings = some c →
      exec .noteOn s = .next { s with
        life := .live { v with
          phase := .configured (if floatLt s.num (s.num.word 0) c.delay then .delay else .attack) c
          elapsed := s.num.word 0
          level := s.num.word 0 }
        cmdIndex := s.cmdIndex + 1 }) ∧
    (v.settings = none →
      exec .noteOn s =
        .next { s with life := .faulted (some v), fault := ⟨.unconfigured, s.cmdIndex⟩, cmdIndex := s.cmdIndex + 1 }))

/-- NOTE_ON's frame: the sample rate, `releaseStart` and the configuration stay. -/
def Obligations.NoteOnFrame : Prop :=
  ∀ (s t : State), exec .noteOn s = .next t →
    (t.life.voice.map fun v => (v.sampleRate, v.releaseStart, v.settings)) =
      (s.life.voice.map fun v => (v.sampleRate, v.releaseStart, v.settings)) ∧
    t.num = s.num ∧ t.channel = s.channel ∧ t.responses = s.responses ∧
    ((∃ v w, s.life = .live v ∧ t.life = .live w ∧ t.fault = s.fault) ∨
      (t.life.isFaulted = true ∧ t.life.voice = s.life.voice))

/-- R121: NOTE_OFF's encoding and faults; it captures the level and enters Release from every stage but Idle, Release included (R122); in
Idle it writes nothing. It needs no configuration. -/
def Obligations.NoteOffReleasesTheNote : Prop :=
  ∀ (s : State),
    encode .noteOff = [.w32 0x00000005#32] ∧
    (s.life = .uncreated → exec .noteOff s =
        .next { s with life := .faulted none, fault := ⟨.noInstance, s.cmdIndex⟩, cmdIndex := s.cmdIndex + 1 }) ∧
    (s.life = .destroyed → exec .noteOff s =
        .next { s with life := .faulted none, fault := ⟨.useAfterDestroy, s.cmdIndex⟩, cmdIndex := s.cmdIndex + 1 }) ∧
    (∀ v, s.life = .live v →
    (v.stage = .idle → exec .noteOff s = .next { s with cmdIndex := s.cmdIndex + 1 }) ∧
    (∀ stage c, v.phase = .configured stage c → stage ≠ .idle →
      exec .noteOff s = .next { s with
        life := .live { v with releaseStart := v.level, phase := .configured .release c, elapsed := s.num.word 0 }
        cmdIndex := s.cmdIndex + 1 }))

/-- NOTE_OFF's frame: the sample rate, the level and the configuration stay. -/
def Obligations.NoteOffFrame : Prop :=
  ∀ (s t : State), exec .noteOff s = .next t →
    (t.life.voice.map fun v => (v.sampleRate, v.level, v.settings)) = (s.life.voice.map fun v => (v.sampleRate, v.level, v.settings)) ∧
    t.num = s.num ∧ t.channel = s.channel ∧ t.responses = s.responses ∧
    ((∃ v w, s.life = .live v ∧ t.life = .live w ∧ t.fault = s.fault) ∨
      (t.life.isFaulted = true ∧ t.life.voice = s.life.voice))

/-! NEXT (43_sample_step). -/

/-- R131 and R136: NEXT in Idle responds 0, configured or not, and in Sustain the sustain register. -/
def Obligations.NextInIdleAndSustain : Prop :=
  ∀ (s : State) (v : Voice Word), s.life = .live v →
    (v.stage = .idle →
      exec .next s = .next { s with
        life := .live { v with level := s.num.word 0 }
        responses := s.responses ++ [s.num.word 0]
        cmdIndex := s.cmdIndex + 1 }) ∧
    (v.stage = .sustain → ∀ c, v.settings = some c →
      exec .next s = .next { s with
        life := .live { v with level := c.sustain }
        responses := s.responses ++ [c.sustain]
        cmdIndex := s.cmdIndex + 1 })

/-- R132 and R134: NEXT in Delay and in Hold. A stage of infinite duration goes on also where `elapsed + dt` is infinite (R198, I9; the
model's reading, log entry 10). -/
def Obligations.NextInDelayAndHold : Prop :=
  ∀ (s : State) (v : Voice Word) (c : Settings Word), s.life = .live v → v.settings = some c →
    let e := floatAdd s.num v.elapsed (floatDiv s.num (Literal.word s.num ⟨1, 1⟩) v.sampleRate)
    (v.stage = .delay →
      exec .next s = .next { s with
        life := .live (if floatFinite s.num c.delay = true ∧ floatLe s.num c.delay e = true then
            { v with level := s.num.word 0, phase := .configured .attack c, elapsed := s.num.word 0 }
          else { v with level := s.num.word 0, elapsed := e })
        responses := s.responses ++ [s.num.word 0]
        cmdIndex := s.cmdIndex + 1 }) ∧
    (v.stage = .hold →
      exec .next s = .next { s with
        life := .live (if floatFinite s.num c.hold = true ∧ floatLe s.num c.hold e = true then
            { v with level := Config.peak.word s.num, phase := .configured .decay c, elapsed := s.num.word 0 }
          else { v with level := Config.peak.word s.num, elapsed := e })
        responses := s.responses ++ [Config.peak.word s.num]
        cmdIndex := s.cmdIndex + 1 })

/-- R133: NEXT in Attack: the shortcut, the exit sample and the curve. -/
def Obligations.NextInAttack : Prop :=
  ∀ (s : State) (v : Voice Word) (c : Settings Word), s.life = .live v → v.settings = some c →
    v.stage = .attack →
    let O := floatArith s.num
    let after : Stage := if O.lt O.zero c.hold then .hold else .decay
    let e := O.add v.elapsed (O.div O.one v.sampleRate)
    let q := O.div e c.attack
    let x := O.min O.one q
    let level := O.mul O.peak (O.sub O.one (O.exp (O.mul (O.neg O.attackRate) x)))
    (O.le c.attack O.zero = true ∨ (O.isNaN q = false ∧ O.le O.one x = true) →
      exec .next s = .next { s with
        life := .live { v with level := O.peak, phase := .configured after c, elapsed := O.zero }
        responses := s.responses ++ [O.peak]
        cmdIndex := s.cmdIndex + 1 }) ∧
    (O.le c.attack O.zero = false → O.isNaN q = false → O.le O.one x = false →
      exec .next s = .next { s with
        life := .live { v with level := level, elapsed := e }
        responses := s.responses ++ [level]
        cmdIndex := s.cmdIndex + 1 })

/-- R135: NEXT in Decay: the shortcut, the exit sample and the curve; under `real` the curve is `max(sustain, EPS)^x`. -/
def Obligations.NextInDecay : Prop :=
  (∀ (s : State) (v : Voice Word) (c : Settings Word), s.life = .live v → v.settings = some c →
    v.stage = .decay →
    let O := floatArith s.num
    let e := O.add v.elapsed (O.div O.one v.sampleRate)
    let q := O.div e c.decay
    let x := O.min O.one q
    let la := O.ln (O.max O.peak O.eps)
    let lb := O.ln (O.max c.sustain O.eps)
    let level := O.exp (O.add la (O.mul (O.sub lb la) x))
    (O.le c.decay O.zero = true ∨ (O.isNaN q = false ∧ O.le O.one x = true) →
      exec .next s = .next { s with
        life := .live { v with level := c.sustain, phase := .configured .sustain c, elapsed := O.zero }
        responses := s.responses ++ [c.sustain]
        cmdIndex := s.cmdIndex + 1 }) ∧
    (O.le c.decay O.zero = false → O.isNaN q = false → O.le O.one x = false →
      exec .next s = .next { s with
        life := .live { v with level := level, elapsed := e }
        responses := s.responses ++ [level]
        cmdIndex := s.cmdIndex + 1 })) ∧
  ∀ sustain x : ℝ, realArith.decayLevel sustain x = max sustain (1 / 100000) ^ x

/-- R137: NEXT in Release: the shortcut, the exit sample and the curve; no release that CONFIG writes takes the shortcut; under `real` the
curve is `max(releaseStart, EPS)^(1-x) · EPS^x`. -/
def Obligations.NextInRelease : Prop :=
  (∀ (s : State) (v : Voice Word) (c : Settings Word), s.life = .live v → v.settings = some c →
    v.stage = .release →
    let O := floatArith s.num
    let e := O.add v.elapsed (O.div O.one v.sampleRate)
    let q := O.div e c.release
    let x := O.min O.one q
    let la := O.ln (O.max v.releaseStart O.eps)
    let lb := O.ln (O.max O.eps O.eps)
    let level := O.exp (O.add la (O.mul (O.sub lb la) x))
    (O.le c.release O.zero = true ∨ (O.isNaN q = false ∧ O.le O.one x = true) →
      exec .next s = .next { s with
        life := .live { v with level := O.zero, phase := .configured .idle c, elapsed := O.zero }
        responses := s.responses ++ [O.zero]
        cmdIndex := s.cmdIndex + 1 }) ∧
    (O.le c.release O.zero = false → O.isNaN q = false → O.le O.one x = false →
      exec .next s = .next { s with
        life := .live { v with level := level, elapsed := e }
        responses := s.responses ++ [level]
        cmdIndex := s.cmdIndex + 1 })) ∧
  (∀ (f : NumFormat) (tc : Word), floatFinite f tc = true → floatLe f ((floatArith f).ingestRelease tc) (f.word 0) = false) ∧
  ∀ start x : ℝ, realArith.releaseLevel start x = max start (1 / 100000) ^ (1 - x) * (1 / 100000 : ℝ) ^ x

/-- NEXT's frame: the sample rate, `releaseStart` and the configuration stay; an accepted NEXT responds one word, its level; a
faulting or ignored one responds nothing. -/
def Obligations.NextFrame : Prop :=
  ∀ (s t : State), exec .next s = .next t →
    (t.life.voice.map fun v => (v.sampleRate, v.releaseStart, v.settings)) =
      (s.life.voice.map fun v => (v.sampleRate, v.releaseStart, v.settings)) ∧
    t.num = s.num ∧ t.channel = s.channel ∧
    ((∃ v w, s.life = .live v ∧ t.life = .live w ∧ t.fault = s.fault ∧ t.responses = s.responses ++ [w.level]) ∨
      (t.life.isFaulted = true ∧ t.life.voice = s.life.voice ∧ t.responses = s.responses))

/-- Where NEXT does not complete on a Live envelope: a NaN quotient of the stage's duration is refused (I5). -/
def Obligations.NanQuotientIsRefused : Prop :=
  ∀ (s : State) (v : Voice Word) (c : Settings Word), s.life = .live v → v.settings = some c →
    let O := floatArith s.num
    let e := O.add v.elapsed (O.div O.one v.sampleRate)
    ((v.stage = .attack ∧ O.le c.attack O.zero = false ∧ O.isNaN (O.div e c.attack) = true) ∨
      (v.stage = .decay ∧ O.le c.decay O.zero = false ∧ O.isNaN (O.div e c.decay) = true) ∨
      (v.stage = .release ∧ O.le c.release O.zero = false ∧ O.isNaN (O.div e c.release) = true)) →
    exec .next s = .refused .nanQuotient

/-- R9, D9, R120, R130: the configuration is unset from CREATE to the first CONFIG and set from then on, and no command reads it while it is
unset: the stage is then Idle, where NEXT and NOTE_OFF complete, and NOTE_ON raises UNCONFIGURED. -/
def Obligations.UnsetConfigurationIsNeverRead : Prop :=
  (∀ (s t : State) (sr : Word) (w : Voice Word), exec (.create sr) s = .next t → t.life = .live w → w.settings = none) ∧
  (∀ (i : Instr) (s t : State) (v w : Voice Word), s.life = .live v → exec i s = .next t → t.life = .live w →
    (w.settings = none ↔ v.settings = none ∧ ∀ d a h dc su r, i ≠ .config d a h dc su r)) ∧
  ∀ (s : State) (v : Voice Word), s.life = .live v → v.settings = none →
    v.stage = .idle ∧
    exec .next s = .next { s with
      life := .live { v with level := s.num.word 0 }
      responses := s.responses ++ [s.num.word 0]
      cmdIndex := s.cmdIndex + 1 } ∧
    exec .noteOff s = .next { s with cmdIndex := s.cmdIndex + 1 } ∧
    exec .noteOn s =
      .next { s with life := .faulted (some v), fault := ⟨.unconfigured, s.cmdIndex⟩, cmdIndex := s.cmdIndex + 1 }

/-- R176: in a sound state NEXT is refused only where `elapsed + dt` and the stage's duration are both infinite; otherwise it
completes. -/
def Obligations.NextCompletesUnlessBothInfinite : Prop :=
  ∀ (s : State) (v : Voice Word), s.Sound → s.life = .live v →
    (∃ t w, exec .next s = .next t ∧ t.life = .live w) ∨
    (exec .next s = .refused .nanQuotient ∧
      floatFinite s.num (floatAdd s.num v.elapsed (floatDiv s.num (Literal.word s.num ⟨1, 1⟩) v.sampleRate)) = false ∧
      ∃ c, v.settings = some c ∧
        ((v.stage = .attack ∧ floatFinite s.num c.attack = false) ∨ (v.stage = .decay ∧ floatFinite s.num c.decay = false) ∨
          (v.stage = .release ∧ floatFinite s.num c.release = false)))

/-- R146 and R26: the transitions that NEXT makes, with their conditions; every one of them starts `elapsed` at 0. -/
def Obligations.NextTransitions : Prop :=
  ∀ (s t : State) (v w : Voice Word), s.life = .live v → exec .next s = .next t → t.life = .live w →
    w.stage ≠ v.stage →
    let O := floatArith s.num
    let e := O.add v.elapsed (O.div O.one v.sampleRate)
    let ends := fun duration => O.le duration O.zero = true ∨ O.le O.one (O.min O.one (O.div e duration)) = true
    w.elapsed = O.zero ∧
    ∃ c, v.settings = some c ∧
      ((v.stage = .delay ∧ w.stage = .attack ∧ O.le c.delay e = true) ∨
        (v.stage = .attack ∧ w.stage = .hold ∧ ends c.attack ∧ O.lt O.zero c.hold = true) ∨
        (v.stage = .attack ∧ w.stage = .decay ∧ ends c.attack ∧ O.lt O.zero c.hold = false) ∨
        (v.stage = .hold ∧ w.stage = .decay ∧ O.le c.hold e = true) ∨
        (v.stage = .decay ∧ w.stage = .sustain ∧ ends c.decay) ∨
        (v.stage = .release ∧ w.stage = .idle ∧ ends c.release))

/-- R123: a command that changes the stage of a Live envelope and is neither NOTE_ON nor NOTE_OFF is NEXT; and neither of the two
responds. -/
def Obligations.OnlyNoteCommandsAndNextChangeTheStage : Prop :=
  (∀ (i : Instr) (s t : State), (i = .noteOn ∨ i = .noteOff) → exec i s = .next t → t.responses = s.responses) ∧
  ∀ (i : Instr) (s t : State) (v w : Voice Word), s.life = .live v → exec i s = .next t → t.life.voice = some w →
    w.stage ≠ v.stage →
    i = .next ∨ (i = .noteOn ∧ (w.stage = .delay ∨ w.stage = .attack)) ∨ (i = .noteOff ∧ v.stage ≠ .idle ∧ w.stage = .release)

/-- R28: only NOTE_OFF changes `releaseStart` of a Live envelope, to the level it finds, which is the level it leaves; and no command but NEXT
in Release reads it: on an envelope with another `releaseStart` it does the same, that register apart. -/
def Obligations.ReleaseStartIsTheCapturedLevel : Prop :=
  (∀ (i : Instr) (s t : State) (v w : Voice Word), s.life = .live v → exec i s = .next t →
    t.life.voice = some w → w.releaseStart ≠ v.releaseStart → i = .noteOff ∧ w.releaseStart = v.level ∧ w.level = v.level) ∧
  ∀ (i : Instr) (s t : State) (v : Voice Word) (r : Word), s.life = .live v → exec i s = .next t →
    ¬ (i = .next ∧ v.stage = .release) →
    exec i { s with life := .live { v with releaseStart := r } } = .next { t with
      life := t.life.mapVoice fun w =>
        { w with releaseStart := if i = .noteOff ∧ v.stage ≠ .idle then w.releaseStart else r } }

/-- R33: after a NEXT that stays in a timed stage, `elapsed` is below that stage's duration, in both floating formats; but in a Delay or a Hold
where both are infinite, which stays (R198, I9; log entry 10). -/
def Obligations.ElapsedStaysBelowTheDuration : Prop :=
  ∀ (s t : State) (v w : Voice Word) (c : Settings Word), s.Sound → s.life = .live v → v.settings = some c →
    exec .next s = .next t → t.life = .live w → w.stage = v.stage →
    let infinity := s.num.word s.num.infinity
    (w.stage = .delay → floatLt s.num w.elapsed c.delay = true ∨ (w.elapsed = infinity ∧ floatFinite s.num c.delay = false)) ∧
    (w.stage = .attack → floatLt s.num w.elapsed c.attack = true) ∧
    (w.stage = .hold → floatLt s.num w.elapsed c.hold = true ∨ (w.elapsed = infinity ∧ floatFinite s.num c.hold = false)) ∧
    (w.stage = .decay → floatLt s.num w.elapsed c.decay = true) ∧
    (w.stage = .release → floatLt s.num w.elapsed c.release = true)

/-- R26: every change of stage starts `elapsed` at 0; NEXT adds `dt` to it in a timed stage that goes on, and leaves it alone in Idle and
Sustain; within a stage it never falls, but where NOTE_ON or NOTE_OFF enters the stage anew. -/
def Obligations.ElapsedIsTheTimeInTheStage : Prop :=
  ∀ (i : Instr) (s t : State) (v w : Voice Word), s.Sound → s.life = .live v → exec i s = .next t →
    t.life.voice = some w →
    (w.stage ≠ v.stage → w.elapsed = s.num.word 0) ∧
    (w.stage = v.stage → floatLe s.num v.elapsed w.elapsed = true ∨ ((i = .noteOn ∨ i = .noteOff) ∧ w.elapsed = s.num.word 0)) ∧
    (i = .next → w.stage = v.stage →
      ((v.stage = .idle ∨ v.stage = .sustain) → w.elapsed = v.elapsed) ∧
      ((v.stage ≠ .idle ∧ v.stage ≠ .sustain) →
        w.elapsed = floatAdd s.num v.elapsed (floatDiv s.num (Literal.word s.num ⟨1, 1⟩) v.sampleRate)))

/-- R198: a timed stage of infinite duration goes on. Delay responds 0 and Hold `PEAK`, whatever `elapsed + dt` is, and neither ever ends.
Where `elapsed + dt` is finite, Attack responds 0, Decay 1, which is `exp(ln(PEAK))` by I3 (b), and Release `exp` of the floored logarithm
of `releaseStart`, which the model does not take to be `max(releaseStart, EPS)` (log entry 11); with a sample rate of at least 1 these
never end either. -/
def Obligations.InfiniteDurationKeepsTheStage : Prop :=
  (∀ (s : State) (v : Voice Word) (c : Settings Word), s.life = .live v → v.settings = some c →
    let O := floatArith s.num
    let infinity := s.num.word s.num.infinity
    let e := O.add v.elapsed (O.div O.one v.sampleRate)
    let goesOn := fun level : Word => exec .next s = .next { s with
      life := .live { v with level := level, elapsed := e }
      responses := s.responses ++ [level]
      cmdIndex := s.cmdIndex + 1 }
    (v.stage = .delay → c.delay = infinity → goesOn O.zero) ∧
    (v.stage = .hold → c.hold = infinity → goesOn O.peak) ∧
    (O.finite e = true → O.le O.zero e = true →
      (v.stage = .attack → c.attack = infinity → goesOn O.zero) ∧
      (v.stage = .decay → c.decay = infinity → O.Level c.sustain → goesOn O.one) ∧
      (v.stage = .release → c.release = infinity → O.Level v.releaseStart →
        goesOn (O.exp (O.ln (O.max v.releaseStart O.eps)))))) ∧
  ∀ (f : NumFormat) (v : Voice Word) (c : Settings Word) (n : Nat), v.settings = some c →
    let infinity := f.word f.infinity
    let stays := ∃ w, Voice.nextTimes (floatArith f) n v = .done w ∧ w.stage = v.stage
    ((v.stage = .delay ∧ c.delay = infinity) ∨ (v.stage = .hold ∧ c.hold = infinity) → stays) ∧
    (v.Sound (floatArith f) → floatLe f (Literal.word f ⟨1, 1⟩) v.sampleRate = true → floatFinite f v.elapsed = true →
      (v.stage = .attack ∧ c.attack = infinity) ∨ (v.stage = .decay ∧ c.decay = infinity) ∨
        (v.stage = .release ∧ c.release = infinity) → stays)

/-! The whole machine. -/

/-- The machine before its first command, in every format, meets the invariant. -/
def Obligations.ResetIsSound : Prop := ∀ f : NumFormat, (State.resetIn f).Sound

/-- The machine before its first command (R38, R201): Uncreated, nothing counted, no register of the envelope holding a value. The
empty channels and the fault register's NONE are the model's choice (log entries 3, 4 and 7). -/
def Obligations.ResetIsUncreated : Prop :=
  ∀ f : NumFormat, (State.resetIn f).life = .uncreated ∧ (State.resetIn f).cmdIndex = 0 ∧ (State.resetIn f).life.voice = none ∧
    (State.resetIn f).fault = ⟨.none, 0⟩ ∧ (State.resetIn f).channel = [] ∧ (State.resetIn f).responses = [] ∧
    State.reset = State.resetIn Config.resetFormat

/-- R32 in both floating formats: every step keeps the invariant. In a Live envelope `elapsed ≥ 0`, the level is finite, not
negative (and not above 1), and the release is not below its floor whenever it is set. -/
def Obligations.StepKeepsSound : Prop := ∀ s t : State, s.Sound → step s = .next t → t.Sound

/-- R192, R201: a host that keeps the order of use never makes the envelope fault: its run is successful, or stops at a NEXT
that I5 refuses. -/
def Obligations.LegalUseNeverFaults : Prop :=
  ∀ (f : NumFormat) (is : List Instr), legalStream f is = true →
    (∃ t, runCommands is (State.resetIn f) = .next t ∧ t.Successful ∧ ((∃ v, t.life = .live v) ∨ t.life = .destroyed)) ∨
    runCommands is (State.resetIn f) = .refused .nanQuotient

/-- R59: steps of two different envelopes of a bank can be taken in either order, with the same results. -/
def Obligations.EnvelopesAreIndependent : Prop :=
  ∀ (j k : Nat) (bank one two : List State), j ≠ k → bankStep j bank = .next one → bankStep k one = .next two →
    ∃ other, bankStep k bank = .next other ∧ bankStep j other = .next two

/-! The floating formats (00_scope R11, R12; 93_implementation_defined I3). -/

/-- R11: rounding gives a nearest value of the format, and at a tie the one whose last bit is 0. -/
def Obligations.RoundingIsToNearestEven : Prop :=
  ∀ (f : NumFormat) (n d k : Nat), 0 < d → roundMagnitude f n d < f.infinity → k < f.infinity →
    |(n : ℚ) / d - magnitudeValue f (roundMagnitude f n d)| ≤ |(n : ℚ) / d - magnitudeValue f k| ∧
    (|(n : ℚ) / d - magnitudeValue f (roundMagnitude f n d)| = |(n : ℚ) / d - magnitudeValue f k| →
      k ≠ roundMagnitude f n d → roundMagnitude f n d % 2 = 0)

/-- I3 (d): `exp` and `ln` never fall. -/
def Obligations.ExpAndLnNeverFall : Prop :=
  ∀ (f : NumFormat) (a b : Word), floatLe f a b = true →
    floatLe f (floatExp f a) (floatExp f b) = true ∧ floatLe f (floatLn f a) (floatLn f b) = true

/-- I3 (b), (c), (e): `exp(0) = 1` and `ln(1) = 0`; `exp` lies in `(0, 1]` from `ln(EPS) - 1` up to 0, with the format's own `ln` (the model's
reading, log entry 12), and from `-ATTACK_RATE` up, which (c) says its range covers; `ln` is finite at and above `EPS`. -/
def Obligations.ExpAndLnRanges : Prop :=
  ∀ (f : NumFormat),
    floatExp f (f.word 0) = Literal.word f ⟨1, 1⟩ ∧ floatLn f (Literal.word f ⟨1, 1⟩) = f.word 0 ∧
    (∀ v, floatFinite f v = true → floatLe f v (f.word 0) = true →
      floatLe f (floatSub f (floatLn f (Config.eps.word f)) (Literal.word f ⟨1, 1⟩)) v = true ∨
        floatLe f (floatNeg f (Config.attackRate.word f)) v = true →
      floatLt f (f.word 0) (floatExp f v) = true ∧ floatLe f (floatExp f v) (Literal.word f ⟨1, 1⟩) = true) ∧
    ∀ v, floatFinite f v = true → floatLe f (Config.eps.word f) v = true → floatFinite f (floatLn f v) = true

/-- I3 (f): `pow2` is exact at every integer whose power of two is a normal number. -/
def Obligations.PowersOfTwoAreExact : Prop :=
  ∀ (f : NumFormat) (w : Word) (neg : Bool) (n k : Nat), w.datum f = .fin neg n → n = k * f.unit →
    (neg = false → k ≤ f.maxExponent → ∃ m, (floatPow2 f w).datum f = .fin false m ∧ m = 2 ^ k * f.unit) ∧
    (neg = true → k ≤ f.minExponent → ∃ m, (floatPow2 f w).datum f = .fin false m ∧ m * 2 ^ k = f.unit)

/-- I3 (g), R107: `pow2` and `pow10` of a finite operand are never NaN or negative. -/
def Obligations.PowersAreNeverNegative : Prop :=
  ∀ (f : NumFormat) (w : Word), floatFinite f w = true →
    floatLe f (f.word 0) (floatPow2 f w) = true ∧ floatLe f (f.word 0) (floatPow10 f w) = true

/-- R199: in a floating format the Attack curve at a fraction between 0 and 1 is 0 or at least the unit just below 1, never
subnormal. -/
def Obligations.AttackIsNeverSubnormal : Prop :=
  ∀ (f : NumFormat) (x : Word), (floatArith f).Level x →
    (floatArith f).attackLevel x = f.word 0 ∨
      floatLe f (Literal.word f ⟨1, 2 ^ f.precision⟩) ((floatArith f).attackLevel x) = true

/-! The `real` reference (R11, R12). -/

/-- R100 and R101: the two conversions, in their order of operations, and their properties, under `real` and in both floating formats. -/
def Obligations.UnitConversions : Prop :=
  (∀ (f : NumFormat) (w : Word),
    (floatArith f).timecentsToSeconds w = floatPow2 f (floatDiv f w (Literal.word f ⟨1200, 1⟩)) ∧
    (floatArith f).cbAttenToLin w = floatPow10 f (floatDiv f (floatNeg f w) (Literal.word f ⟨200, 1⟩))) ∧
  (∀ f : NumFormat,
    (floatArith f).timecentsToSeconds (f.word 0) = Literal.word f ⟨1, 1⟩ ∧
    (floatArith f).cbAttenToLin (f.word 0) = Literal.word f ⟨1, 1⟩ ∧
    (floatArith f).cbAttenToLin (Literal.word f ⟨200, 1⟩) = Literal.word f ⟨1, 10⟩) ∧
  (∀ tc : ℝ, realArith.timecentsToSeconds tc = (2 : ℝ) ^ (tc / 1200) ∧ 0 < realArith.timecentsToSeconds tc ∧
    realArith.timecentsToSeconds (tc + 1200) = 2 * realArith.timecentsToSeconds tc) ∧
  (∀ cb : ℝ, realArith.cbAttenToLin cb = (10 : ℝ) ^ (-cb / 200)) ∧
  realArith.timecentsToSeconds 0 = 1 ∧ realArith.cbAttenToLin 0 = 1 ∧ realArith.cbAttenToLin 200 = 1 / 10 ∧
  realArith.cbAttenToLin 100 = (10 : ℝ) ^ (-(1 / 2) : ℝ)

/-- R104 and R105 under `real`: the upper clamp of the sustain acts exactly on a negative attenuation, and then gives 1; the release
floor acts exactly below `1200 · log2 0.06` time-cents. -/
def Obligations.RealIngestionClamps : Prop :=
  (∀ cb : ℝ, (realArith.ingestSustain cb ≠ realArith.cbAttenToLin cb ↔ cb < 0) ∧ (cb < 0 → realArith.ingestSustain cb = 1)) ∧
  ∀ tc : ℝ, realArith.ingestRelease tc =
    if tc < 1200 * Real.logb 2 (6 / 100) then 6 / 100 else realArith.timecentsToSeconds tc

/-- R145 under `real`: the two forms of the exit test agree. -/
def Obligations.RealExitTestsAgree : Prop :=
  ∀ elapsed duration : ℝ, 0 < duration →
    ∃ x, realArith.fraction elapsed duration = some x ∧ realArith.complete x = realArith.reached elapsed duration

/-- R141 under `real`: Attack's levels grow strictly with the fraction, and lie below `1 - e^(-6)` before the exit sample. -/
def Obligations.RealAttackGrows : Prop :=
  ∀ x y : ℝ, x < y → realArith.attackLevel x < realArith.attackLevel y ∧
    (y < 1 → realArith.attackLevel y < 1 - Real.exp (-6))

/-- R140 under `real`: between 0 and 1 the Decay curve never rises and stays between `max(sustain, EPS)` and 1. -/
def Obligations.RealDecayCurve : Prop :=
  ∀ sustain x y : ℝ, 0 ≤ sustain → sustain ≤ 1 → 0 ≤ x → x ≤ y → y ≤ 1 →
    realArith.decayLevel sustain y ≤ realArith.decayLevel sustain x ∧
    max sustain (1 / 100000) ≤ realArith.decayLevel sustain y ∧ realArith.decayLevel sustain x ≤ 1

/-- R139 under `real`: the Release curve is never below `EPS` and never above `max(releaseStart, EPS)`, and constant where `releaseStart` is
not above `EPS`. -/
def Obligations.RealReleaseCurve : Prop :=
  ∀ start x : ℝ, 0 ≤ x → x ≤ 1 →
    (start ≤ 1 / 100000 → realArith.releaseLevel start x = 1 / 100000) ∧
    1 / 100000 ≤ realArith.releaseLevel start x ∧ realArith.releaseLevel start x ≤ max start (1 / 100000)

/-- R143 under `real`: how many NEXT commands each stage lasts, and what the last one responds and enters. A duration that is not positive
lasts one NEXT; Idle and Sustain last for ever. -/
def Obligations.RealStageLengths : Prop :=
  ∀ (v : Voice ℝ) (c : Settings ℝ), 0 < v.sampleRate → v.elapsed = 0 → v.settings = some c →
    let samples := fun duration : ℝ => max 1 ⌈duration * v.sampleRate⌉₊
    (v.stage = .delay → v.StageLasts realArith (samples c.delay) .attack 0) ∧
    (v.stage = .attack → v.StageLasts realArith (samples c.attack) (if 0 < c.hold then .hold else .decay) 1) ∧
    (v.stage = .hold → v.StageLasts realArith (samples c.hold) .decay 1) ∧
    (v.stage = .decay → v.StageLasts realArith (samples c.decay) .sustain c.sustain) ∧
    (v.stage = .release → v.StageLasts realArith (samples c.release) .idle 0) ∧
    (v.stage = .idle ∨ v.stage = .sustain → ∀ n, ∃ w, Voice.nextTimes realArith n v = .done w ∧ w.stage = v.stage)

/-- R32 under `real`: every command keeps the invariant of the exact envelope, and none of its commands is refused or stops. -/
def Obligations.RealCommandsKeepSound : Prop :=
  ∀ (c : Command ℝ) (b : Block ℝ), b.Sound realArith → ∃ b', b.command realArith c = .next b' ∧ b'.Sound realArith
end

