-- ==== Sys2Proof/Laws/State.lean ====
section
/-! SUPPORT. One lemma for each field of each update of the state, so that no later proof unfolds a record update. -/

namespace Sys2Proof.Machine

variable {V : Type}

@[simp] theorem Life.voice_uncreated : (Life.uncreated : Life V).voice = none := rfl
@[simp] theorem Life.voice_live (v : Voice V) : (Life.live v).voice = some v := rfl
@[simp] theorem Life.voice_destroyed : (Life.destroyed : Life V).voice = none := rfl
@[simp] theorem Life.voice_faulted (v : Option (Voice V)) : (Life.faulted v).voice = v := rfl

@[simp] theorem Life.isFaulted_uncreated : (Life.uncreated : Life V).isFaulted = false := rfl
@[simp] theorem Life.isFaulted_live (v : Voice V) : (Life.live v).isFaulted = false := rfl
@[simp] theorem Life.isFaulted_destroyed : (Life.destroyed : Life V).isFaulted = false := rfl
@[simp] theorem Life.isFaulted_faulted (v : Option (Voice V)) : (Life.faulted v).isFaulted = true := rfl

/-- Where the registers of `Voice` hold values. -/
theorem Block.voice_eq_some {b : Block V} {v : Voice V} :
    b.voice = some v ↔ b.life = .live v ∨ b.life = .faulted (some v) := by
  unfold Block.voice
  cases b.life <;> simp

theorem Block.voice_of_live {b : Block V} {v : Voice V} (h : b.life = .live v) : b.voice = some v :=
  Block.voice_eq_some.mpr (.inl h)

@[simp] theorem Block.count_life (b : Block V) : (b.count).life = b.life := rfl
@[simp] theorem Block.count_voice (b : Block V) : (b.count).voice = b.voice := rfl
@[simp] theorem Block.count_fault (b : Block V) : (b.count).fault = b.fault := rfl
@[simp] theorem Block.count_cmdIndex (b : Block V) : (b.count).cmdIndex = b.cmdIndex + 1 := rfl
@[simp] theorem Block.count_responses (b : Block V) : (b.count).responses = b.responses := rfl

@[simp] theorem Block.raise_life (c : FaultCode) (b : Block V) : (b.raise c).life = .faulted b.voice := rfl
@[simp] theorem Block.raise_voice (c : FaultCode) (b : Block V) : (b.raise c).voice = b.voice := rfl
@[simp] theorem Block.raise_fault (c : FaultCode) (b : Block V) : (b.raise c).fault = ⟨c, b.cmdIndex⟩ := rfl
@[simp] theorem Block.raise_cmdIndex (c : FaultCode) (b : Block V) : (b.raise c).cmdIndex = b.cmdIndex + 1 := rfl
@[simp] theorem Block.raise_responses (c : FaultCode) (b : Block V) : (b.raise c).responses = b.responses := rfl

@[simp] theorem Block.respond_life (w : V) (b : Block V) : (b.respond w).life = b.life := rfl
@[simp] theorem Block.respond_voice (w : V) (b : Block V) : (b.respond w).voice = b.voice := rfl
@[simp] theorem Block.respond_fault (w : V) (b : Block V) : (b.respond w).fault = b.fault := rfl
@[simp] theorem Block.respond_cmdIndex (w : V) (b : Block V) : (b.respond w).cmdIndex = b.cmdIndex := rfl
@[simp] theorem Block.respond_responses (w : V) (b : Block V) : (b.respond w).responses = b.responses ++ [w] := rfl

/-- The stage and the configuration are read off the phase. -/
theorem Voice.phase_eq_configured {v : Voice V} {s : Stage} {c : Settings V} :
    v.phase = .configured s c ↔ v.stage = s ∧ v.settings = some c := by
  unfold Voice.stage Voice.settings
  cases v.phase <;> simp

theorem Voice.phase_eq_unconfigured {v : Voice V} : v.phase = .unconfigured ↔ v.settings = none := by
  unfold Voice.settings
  cases v.phase <;> simp

/-- The stage is Idle while the configuration is unset (R130). -/
theorem Voice.stage_of_unset {v : Voice V} (h : v.settings = none) : v.stage = .idle := by
  simp [Voice.stage, Voice.phase_eq_unconfigured.mpr h]

@[simp] theorem Voice.enter_sampleRate (O : Arith V) (s : Stage) (c : Settings V) (v : Voice V) : (v.enter O s c).sampleRate = v.sampleRate := rfl
@[simp] theorem Voice.enter_stage (O : Arith V) (s : Stage) (c : Settings V) (v : Voice V) : (v.enter O s c).stage = s := rfl
@[simp] theorem Voice.enter_elapsed (O : Arith V) (s : Stage) (c : Settings V) (v : Voice V) : (v.enter O s c).elapsed = O.zero := rfl
@[simp] theorem Voice.enter_level (O : Arith V) (s : Stage) (c : Settings V) (v : Voice V) : (v.enter O s c).level = v.level := rfl
@[simp] theorem Voice.enter_releaseStart (O : Arith V) (s : Stage) (c : Settings V) (v : Voice V) : (v.enter O s c).releaseStart = v.releaseStart := rfl
@[simp] theorem Voice.enter_settings (O : Arith V) (s : Stage) (c : Settings V) (v : Voice V) : (v.enter O s c).settings = some c := rfl

@[simp] theorem Voice.configure_sampleRate (c : Settings V) (v : Voice V) : (v.configure c).sampleRate = v.sampleRate := rfl
@[simp] theorem Voice.configure_stage (c : Settings V) (v : Voice V) : (v.configure c).stage = v.stage := rfl
@[simp] theorem Voice.configure_elapsed (c : Settings V) (v : Voice V) : (v.configure c).elapsed = v.elapsed := rfl
@[simp] theorem Voice.configure_level (c : Settings V) (v : Voice V) : (v.configure c).level = v.level := rfl
@[simp] theorem Voice.configure_releaseStart (c : Settings V) (v : Voice V) : (v.configure c).releaseStart = v.releaseStart := rfl
@[simp] theorem Voice.configure_settings (c : Settings V) (v : Voice V) : (v.configure c).settings = some c := rfl

@[simp] theorem Voice.fresh_sampleRate (O : Arith V) (sr : V) : (Voice.fresh O sr).sampleRate = sr := rfl
@[simp] theorem Voice.fresh_stage (O : Arith V) (sr : V) : (Voice.fresh O sr).stage = .idle := rfl
@[simp] theorem Voice.fresh_elapsed (O : Arith V) (sr : V) : (Voice.fresh O sr).elapsed = O.zero := rfl
@[simp] theorem Voice.fresh_level (O : Arith V) (sr : V) : (Voice.fresh O sr).level = O.zero := rfl
@[simp] theorem Voice.fresh_releaseStart (O : Arith V) (sr : V) : (Voice.fresh O sr).releaseStart = O.zero := rfl
@[simp] theorem Voice.fresh_settings (O : Arith V) (sr : V) : (Voice.fresh O sr).settings = none := rfl

@[simp] theorem Voice.stepIdle_sampleRate (O : Arith V) (v : Voice V) : (v.stepIdle O).sampleRate = v.sampleRate := rfl
@[simp] theorem Voice.stepIdle_stage (O : Arith V) (v : Voice V) : (v.stepIdle O).stage = v.stage := rfl
@[simp] theorem Voice.stepIdle_elapsed (O : Arith V) (v : Voice V) : (v.stepIdle O).elapsed = v.elapsed := rfl
@[simp] theorem Voice.stepIdle_level (O : Arith V) (v : Voice V) : (v.stepIdle O).level = O.zero := rfl
@[simp] theorem Voice.stepIdle_releaseStart (O : Arith V) (v : Voice V) : (v.stepIdle O).releaseStart = v.releaseStart := rfl
@[simp] theorem Voice.stepIdle_settings (O : Arith V) (v : Voice V) : (v.stepIdle O).settings = v.settings := rfl

@[simp] theorem Voice.stepSustain_sampleRate (c : Settings V) (v : Voice V) : (v.stepSustain c).sampleRate = v.sampleRate := rfl
@[simp] theorem Voice.stepSustain_stage (c : Settings V) (v : Voice V) : (v.stepSustain c).stage = v.stage := rfl
@[simp] theorem Voice.stepSustain_elapsed (c : Settings V) (v : Voice V) : (v.stepSustain c).elapsed = v.elapsed := rfl
@[simp] theorem Voice.stepSustain_level (c : Settings V) (v : Voice V) : (v.stepSustain c).level = c.sustain := rfl
@[simp] theorem Voice.stepSustain_releaseStart (c : Settings V) (v : Voice V) : (v.stepSustain c).releaseStart = v.releaseStart := rfl
@[simp] theorem Voice.stepSustain_settings (c : Settings V) (v : Voice V) : (v.stepSustain c).settings = v.settings := rfl

@[simp] theorem Voice.leaveAttack_sampleRate (O : Arith V) (c : Settings V) (v : Voice V) : (v.leaveAttack O c).sampleRate = v.sampleRate := rfl
@[simp] theorem Voice.leaveAttack_stage (O : Arith V) (c : Settings V) (v : Voice V) : (v.leaveAttack O c).stage = if O.positive c.hold then .hold else .decay := rfl
@[simp] theorem Voice.leaveAttack_elapsed (O : Arith V) (c : Settings V) (v : Voice V) : (v.leaveAttack O c).elapsed = O.zero := rfl
@[simp] theorem Voice.leaveAttack_level (O : Arith V) (c : Settings V) (v : Voice V) : (v.leaveAttack O c).level = O.peak := rfl
@[simp] theorem Voice.leaveAttack_releaseStart (O : Arith V) (c : Settings V) (v : Voice V) : (v.leaveAttack O c).releaseStart = v.releaseStart := rfl
@[simp] theorem Voice.leaveAttack_settings (O : Arith V) (c : Settings V) (v : Voice V) : (v.leaveAttack O c).settings = some c := rfl

@[simp] theorem Voice.leaveDecay_sampleRate (O : Arith V) (c : Settings V) (v : Voice V) : (v.leaveDecay O c).sampleRate = v.sampleRate := rfl
@[simp] theorem Voice.leaveDecay_stage (O : Arith V) (c : Settings V) (v : Voice V) : (v.leaveDecay O c).stage = .sustain := rfl
@[simp] theorem Voice.leaveDecay_elapsed (O : Arith V) (c : Settings V) (v : Voice V) : (v.leaveDecay O c).elapsed = O.zero := rfl
@[simp] theorem Voice.leaveDecay_level (O : Arith V) (c : Settings V) (v : Voice V) : (v.leaveDecay O c).level = c.sustain := rfl
@[simp] theorem Voice.leaveDecay_releaseStart (O : Arith V) (c : Settings V) (v : Voice V) : (v.leaveDecay O c).releaseStart = v.releaseStart := rfl
@[simp] theorem Voice.leaveDecay_settings (O : Arith V) (c : Settings V) (v : Voice V) : (v.leaveDecay O c).settings = some c := rfl

@[simp] theorem Voice.leaveRelease_sampleRate (O : Arith V) (c : Settings V) (v : Voice V) : (v.leaveRelease O c).sampleRate = v.sampleRate := rfl
@[simp] theorem Voice.leaveRelease_stage (O : Arith V) (c : Settings V) (v : Voice V) : (v.leaveRelease O c).stage = .idle := rfl
@[simp] theorem Voice.leaveRelease_elapsed (O : Arith V) (c : Settings V) (v : Voice V) : (v.leaveRelease O c).elapsed = O.zero := rfl
@[simp] theorem Voice.leaveRelease_level (O : Arith V) (c : Settings V) (v : Voice V) : (v.leaveRelease O c).level = O.zero := rfl
@[simp] theorem Voice.leaveRelease_releaseStart (O : Arith V) (c : Settings V) (v : Voice V) : (v.leaveRelease O c).releaseStart = v.releaseStart := rfl
@[simp] theorem Voice.leaveRelease_settings (O : Arith V) (c : Settings V) (v : Voice V) : (v.leaveRelease O c).settings = some c := rfl

@[simp] theorem State.withChannel_life (s : State) (ws : List Word) : (s.withChannel ws).life = s.life := rfl
@[simp] theorem State.withChannel_voice (s : State) (ws : List Word) : (s.withChannel ws).voice = s.voice := rfl
@[simp] theorem State.withChannel_fault (s : State) (ws : List Word) : (s.withChannel ws).fault = s.fault := rfl
@[simp] theorem State.withChannel_cmdIndex (s : State) (ws : List Word) : (s.withChannel ws).cmdIndex = s.cmdIndex := rfl
@[simp] theorem State.withChannel_responses (s : State) (ws : List Word) : (s.withChannel ws).responses = s.responses := rfl
@[simp] theorem State.withChannel_num (s : State) (ws : List Word) : (s.withChannel ws).num = s.num := rfl
@[simp] theorem State.withChannel_channel (s : State) (ws : List Word) : (s.withChannel ws).channel = ws := rfl

@[simp] theorem State.withChannel_toBlock (s : State) (ws : List Word) : (s.withChannel ws).toBlock = s.toBlock := rfl
@[simp] theorem State.withChannel_arith (s : State) (ws : List Word) : (s.withChannel ws).arith = s.arith := rfl
@[simp] theorem State.withChannel_self (s : State) : s.withChannel s.channel = s := rfl

@[simp] theorem State.resetIn_life (f : NumFormat) : (State.resetIn f).life = .uncreated := rfl
@[simp] theorem State.resetIn_voice (f : NumFormat) : (State.resetIn f).voice = none := rfl
@[simp] theorem State.resetIn_fault (f : NumFormat) : (State.resetIn f).fault = ⟨.none, 0⟩ := rfl
@[simp] theorem State.resetIn_cmdIndex (f : NumFormat) : (State.resetIn f).cmdIndex = 0 := rfl
@[simp] theorem State.resetIn_responses (f : NumFormat) : (State.resetIn f).responses = [] := rfl
@[simp] theorem State.resetIn_num (f : NumFormat) : (State.resetIn f).num = f := rfl
@[simp] theorem State.resetIn_channel (f : NumFormat) : (State.resetIn f).channel = [] := rfl

@[simp] theorem State.resetInput_life (s : State) : (s.resetInput).life = .uncreated := rfl
@[simp] theorem State.resetInput_voice (s : State) : (s.resetInput).voice = none := rfl
@[simp] theorem State.resetInput_fault (s : State) : (s.resetInput).fault = ⟨.none, 0⟩ := rfl
@[simp] theorem State.resetInput_cmdIndex (s : State) : (s.resetInput).cmdIndex = 0 := rfl
@[simp] theorem State.resetInput_responses (s : State) : (s.resetInput).responses = s.responses := rfl
@[simp] theorem State.resetInput_num (s : State) : (s.resetInput).num = s.num := rfl
@[simp] theorem State.resetInput_channel (s : State) : (s.resetInput).channel = s.channel := rfl

@[simp] theorem Block.uncreated_life : (Block.uncreated V).life = .uncreated := rfl
@[simp] theorem Block.uncreated_voice : (Block.uncreated V).voice = none := rfl
@[simp] theorem Block.uncreated_fault : (Block.uncreated V).fault = ⟨.none, 0⟩ := rfl
@[simp] theorem Block.uncreated_cmdIndex : (Block.uncreated V).cmdIndex = 0 := rfl
@[simp] theorem Block.uncreated_responses : (Block.uncreated V).responses = [] := rfl

end Sys2Proof.Machine
end

