-- ==== Sys2Proof/Laws/Ops.lean ====
section
/-! SUPPORT. What each shared operation can do, said once: later proofs cite these lemmas and do not unfold the operations. -/

namespace Sys2Proof.Machine

variable {V : Type}

/-! The frame (R90, R91). -/

theorem Life.isFaulted_iff {l : Life V} : l.isFaulted = true ↔ ∃ v, l = .faulted v := by
  cases l <;> simp

theorem Block.frame_of_uncreated {fresh : BodyResult (Block V)} {body : Voice V → BodyResult (Block V)} {b : Block V}
    (h : b.life = .uncreated) : b.frame fresh body = b.conclude fresh := by
  simp [Block.frame, h]

theorem Block.frame_of_live {fresh : BodyResult (Block V)} {body : Voice V → BodyResult (Block V)} {b : Block V} {v : Voice V}
    (h : b.life = .live v) : b.frame fresh body = b.conclude (body v) := by
  simp [Block.frame, h]

theorem Block.frame_of_destroyed {fresh : BodyResult (Block V)} {body : Voice V → BodyResult (Block V)} {b : Block V}
    (h : b.life = .destroyed) : b.frame fresh body = .next (b.raise .useAfterDestroy) := by
  simp [Block.frame, h]

theorem Block.frame_of_faulted {fresh : BodyResult (Block V)} {body : Voice V → BodyResult (Block V)} {b : Block V}
    (h : b.life.isFaulted = true) : b.frame fresh body = .next b.count := by
  obtain ⟨v, hv⟩ := Life.isFaulted_iff.mp h
  simp [Block.frame, hv]

/-- Everything the end of a command's own rule can do when it gives a next envelope. -/
theorem Block.conclude_eq_next {b b' : Block V} {r : BodyResult (Block V)} :
    b.conclude r = .next b' ↔ (∃ c, r = .raises c ∧ b' = b.raise c) ∨ ∃ b'', r = .done b'' ∧ b' = b''.count := by
  cases r <;> simp [Block.conclude, eq_comm]

/-- Everything a command's frame can do when it gives a next envelope. -/
theorem Block.frame_cases {fresh : BodyResult (Block V)} {body : Voice V → BodyResult (Block V)} {b b' : Block V}
    (h : b.frame fresh body = .next b') :
    (b.life.isFaulted = true ∧ b' = b.count) ∨
    (b.life.isFaulted = false ∧
      ∃ c, (c = .useAfterDestroy ∨ fresh = .raises c ∨ ∃ v, body v = .raises c) ∧ b' = b.raise c) ∨
    (b.life = .uncreated ∧ ∃ b'', fresh = .done b'' ∧ b' = b''.count) ∨
    (∃ v b'', b.life = .live v ∧ body v = .done b'' ∧ b' = b''.count) := by
  cases hl : b.life with
  | uncreated =>
    rw [Block.frame_of_uncreated hl] at h
    rcases Block.conclude_eq_next.mp h with ⟨c, hc, rfl⟩ | ⟨b'', hb, rfl⟩
    · exact .inr (.inl ⟨rfl, c, .inr (.inl hc), rfl⟩)
    · exact .inr (.inr (.inl ⟨rfl, b'', hb, rfl⟩))
  | live v =>
    rw [Block.frame_of_live hl] at h
    rcases Block.conclude_eq_next.mp h with ⟨c, hc, rfl⟩ | ⟨b'', hb, rfl⟩
    · exact .inr (.inl ⟨rfl, c, .inr (.inr ⟨v, hc⟩), rfl⟩)
    · exact .inr (.inr (.inr ⟨v, b'', rfl, hb, rfl⟩))
  | destroyed =>
    rw [Block.frame_of_destroyed hl] at h
    cases h
    exact .inr (.inl ⟨rfl, _, .inl rfl, rfl⟩)
  | faulted v =>
    rw [Block.frame_of_faulted (by simp [hl])] at h
    cases h
    exact .inl ⟨rfl, rfl⟩

/-! Results of bodies. -/

theorem BodyResult.map_eq_done {α β : Type} {g : α → β} {r : BodyResult α} {y : β} :
    r.map g = .done y ↔ ∃ x, r = .done x ∧ y = g x := by
  cases r <;> simp [BodyResult.map, eq_comm]

theorem BodyResult.map_eq_raises {α β : Type} {g : α → β} {r : BodyResult α} {c : FaultCode} :
    r.map g = .raises c ↔ r = .raises c := by
  cases r <;> simp [BodyResult.map]

theorem BodyResult.map_eq_refuses {α β : Type} {g : α → β} {r : BodyResult α} {x : Refusal} :
    r.map g = .refuses x ↔ r = .refuses x := by
  cases r <;> simp [BodyResult.map]

/-! The machine around its envelope. -/

/-- A next state of the machine comes from a next envelope, and the rest of the state stays. -/
theorem State.lift_eq_next {s t : State} {o : Host.Outcome (Block Word) Fault Refusal} :
    s.lift o = .next t ↔ ∃ b, o = .next b ∧ t = { s with toBlock := b } := by
  cases o <;> simp [State.lift, eq_comm]

theorem State.lift_eq_fault {s : State} {o : Host.Outcome (Block Word) Fault Refusal} {r : Fault} :
    s.lift o = .fault r ↔ o = .fault r := by
  cases o <;> simp [State.lift]

theorem State.lift_eq_refused {s : State} {o : Host.Outcome (Block Word) Fault Refusal} {r : Refusal} :
    s.lift o = .refused r ↔ o = .refused r := by
  cases o <;> simp [State.lift]

/-- Every instruction is its command on the envelope, in the machine's number format. -/
theorem exec_eq_lift (i : Instr) (s : State) :
    exec i s = s.lift (s.toBlock.command s.arith (Command.ofInstr i)) := by
  cases i <;> rfl

/-- What a next state of an instruction is: the envelope after its command, and the rest of the state as it was. -/
theorem exec_eq_next {i : Instr} {s t : State} :
    exec i s = .next t ↔ ∃ b, s.toBlock.command s.arith (Command.ofInstr i) = .next b ∧ t = { s with toBlock := b } := by
  rw [exec_eq_lift, State.lift_eq_next]

/-- An instruction does not look at the channel. -/
theorem exec_withChannel (i : Instr) (s : State) (ws : List Word) :
    exec i (s.withChannel ws) = match exec i s with
      | .next t => .next (t.withChannel ws)
      | .fault r => .fault r
      | .refused r => .refused r := by
  rw [exec_eq_lift, exec_eq_lift, State.withChannel_toBlock, State.withChannel_arith]
  cases s.toBlock.command s.arith (Command.ofInstr i) <;> rfl

/-- An instruction does not touch the number format or the channel. -/
theorem exec_keeps_interface {i : Instr} {s t : State} (h : exec i s = .next t) :
    t.num = s.num ∧ t.channel = s.channel := by
  obtain ⟨b, -, rfl⟩ := exec_eq_next.mp h
  exact ⟨rfl, rfl⟩

/-- Everything a step can do. -/
theorem step_cases {s t : State} (h : step s = .next t) :
    (∃ i rest, decode s.num s.channel = .command i rest ∧ exec i (s.withChannel rest) = .next t) ∨
    (∃ rest, decode s.num s.channel = .illegal rest ∧ t = { s.withChannel rest with toBlock := s.toBlock.illegal }) ∨
    (decode s.num s.channel = .incomplete ∧ t = s) := by
  unfold step at h
  cases hd : decode s.num s.channel with
  | command i rest => rw [hd] at h; exact .inl ⟨i, rest, rfl, h⟩
  | illegal rest => rw [hd] at h; exact .inr (.inl ⟨rest, rfl, by cases h; rfl⟩)
  | incomplete => rw [hd] at h; exact .inr (.inr ⟨rfl, by cases h; rfl⟩)
  | operandWidth => rw [hd] at h; cases h

end Sys2Proof.Machine
end

