-- ==== Sys2Proof/Laws/SampleStep.lean ====
section
/-! SUPPORT. Everything one stage step can do (R130 to R138), said once. -/

namespace Sys2Proof.Machine

variable {V : Type}

/-- A timed stage with a curve is over: by the zero-duration shortcut, or because its fraction is complete (R133, R135, R137). -/
def Voice.CurveEnds (O : Arith V) (v : Voice V) (duration : V) : Prop :=
  O.notPositive duration = true ∨
    ∃ x, O.notPositive duration = false ∧ O.fraction (v.advanced O) duration = some x ∧ O.complete x = true

/-- A timed stage with a curve goes on at the fraction `x`. -/
def Voice.CurveAt (O : Arith V) (v : Voice V) (duration x : V) : Prop :=
  O.notPositive duration = false ∧ O.fraction (v.advanced O) duration = some x ∧ O.complete x = false

/-- The registers that a stage step leaves, one constructor for each way through R131 to R137. -/
inductive Voice.NextTo (O : Arith V) (v : Voice V) : Voice V → Prop where
  | idle (hs : v.stage = .idle) : NextTo O v { v with level := O.zero }
  | delayEnds (c : Settings V) (hp : v.phase = .configured .delay c)
      (he : O.reached (v.advanced O) c.delay = true) :
      NextTo O v { v with level := O.zero, phase := .configured .attack c, elapsed := O.zero }
  | delayStays (c : Settings V) (hp : v.phase = .configured .delay c)
      (he : O.reached (v.advanced O) c.delay = false) :
      NextTo O v { v with level := O.zero, elapsed := v.advanced O }
  | attackEnds (c : Settings V) (hp : v.phase = .configured .attack c) (he : v.CurveEnds O c.attack) :
      NextTo O v { v with
        level := O.peak, phase := .configured (if O.positive c.hold then .hold else .decay) c, elapsed := O.zero }
  | attackStays (c : Settings V) (x : V) (hp : v.phase = .configured .attack c) (he : v.CurveAt O c.attack x) :
      NextTo O v { v with level := O.attackLevel x, elapsed := v.advanced O }
  | holdEnds (c : Settings V) (hp : v.phase = .configured .hold c)
      (he : O.reached (v.advanced O) c.hold = true) :
      NextTo O v { v with level := O.peak, phase := .configured .decay c, elapsed := O.zero }
  | holdStays (c : Settings V) (hp : v.phase = .configured .hold c)
      (he : O.reached (v.advanced O) c.hold = false) :
      NextTo O v { v with level := O.peak, elapsed := v.advanced O }
  | decayEnds (c : Settings V) (hp : v.phase = .configured .decay c) (he : v.CurveEnds O c.decay) :
      NextTo O v { v with level := c.sustain, phase := .configured .sustain c, elapsed := O.zero }
  | decayStays (c : Settings V) (x : V) (hp : v.phase = .configured .decay c) (he : v.CurveAt O c.decay x) :
      NextTo O v { v with level := O.decayLevel c.sustain x, elapsed := v.advanced O }
  | sustain (c : Settings V) (hp : v.phase = .configured .sustain c) : NextTo O v { v with level := c.sustain }
  | releaseEnds (c : Settings V) (hp : v.phase = .configured .release c) (he : v.CurveEnds O c.release) :
      NextTo O v { v with level := O.zero, phase := .configured .idle c, elapsed := O.zero }
  | releaseStays (c : Settings V) (x : V) (hp : v.phase = .configured .release c) (he : v.CurveAt O c.release x) :
      NextTo O v { v with level := O.releaseLevel v.releaseStart x, elapsed := v.advanced O }

/-- A timed stage with a curve, past its shortcut: refused at a NaN quotient, or over, or on its curve. -/
theorem Voice.stepCurve_cases (O : Arith V) (d : V) (leave : Voice V → Voice V) (curve : V → V) (v : Voice V) :
    (O.fraction (v.advanced O) d = none ∧ v.stepCurve O d leave curve = .refuses .nanQuotient) ∨
    (∃ x, O.fraction (v.advanced O) d = some x ∧ O.complete x = true ∧ v.stepCurve O d leave curve = .done (leave v)) ∨
    ∃ x, O.fraction (v.advanced O) d = some x ∧ O.complete x = false ∧
      v.stepCurve O d leave curve = .done { v with elapsed := v.advanced O, level := curve x } := by
  cases hf : O.fraction (v.advanced O) d with
  | none => exact .inl ⟨rfl, by simp [Voice.stepCurve, hf]⟩
  | some x =>
    cases hx : O.complete x with
    | true => exact .inr (.inl ⟨x, rfl, hx, by simp [Voice.stepCurve, hf, hx]⟩)
    | false => exact .inr (.inr ⟨x, rfl, hx, by simp [Voice.stepCurve, hf, hx]⟩)

/-- A stage step with a shortcut, in the terms of `NextTo`. -/
theorem Voice.curve_done {O : Arith V} {d : V} {leave : Voice V → Voice V} {curve : V → V} {v w : Voice V}
    (h : (if O.notPositive d then .done (leave v) else v.stepCurve O d leave curve) = BodyResult.done w) :
    (v.CurveEnds O d ∧ w = leave v) ∨ ∃ x, v.CurveAt O d x ∧ w = { v with elapsed := v.advanced O, level := curve x } := by
  cases hd : O.notPositive d with
  | true => rw [hd] at h; exact .inl ⟨.inl hd, by cases h; rfl⟩
  | false =>
    simp only [hd, Bool.false_eq_true, if_false] at h
    rcases v.stepCurve_cases O d leave curve with ⟨_, hr⟩ | ⟨x, hx, hc, hr⟩ | ⟨x, hx, hc, hr⟩ <;> rw [hr] at h <;> cases h
    · exact .inl ⟨.inr ⟨x, hd, hx, hc⟩, rfl⟩
    · exact .inr ⟨x, ⟨hd, hx, hc⟩, rfl⟩

/-- Everything a stage step can do when it is done. -/
theorem Voice.next_done {O : Arith V} {v w : Voice V} (h : v.next O = .done w) : v.NextTo O w := by
  unfold Voice.next at h
  cases hp : v.phase with
  | unconfigured =>
    rw [hp] at h
    cases h
    exact .idle (by simp [Voice.stage, hp])
  | configured s c =>
    rw [hp] at h
    cases s
    case idle => cases h; exact .idle (by simp [Voice.stage, hp])
    case delay =>
      simp only [Voice.stepConfigured, Voice.stepDelay] at h
      cases he : O.reached (v.advanced O) c.delay <;> simp only [he] at h <;> cases h
      · exact .delayStays c hp he
      · exact .delayEnds c hp he
    case attack =>
      rcases Voice.curve_done h with ⟨he, rfl⟩ | ⟨x, he, rfl⟩
      · exact .attackEnds c hp he
      · exact .attackStays c x hp he
    case hold =>
      simp only [Voice.stepConfigured, Voice.stepHold] at h
      cases he : O.reached (v.advanced O) c.hold <;> simp only [he] at h <;> cases h
      · exact .holdStays c hp he
      · exact .holdEnds c hp he
    case decay =>
      rcases Voice.curve_done h with ⟨he, rfl⟩ | ⟨x, he, rfl⟩
      · exact .decayEnds c hp he
      · exact .decayStays c x hp he
    case sustain => cases h; exact .sustain c hp
    case release =>
      rcases Voice.curve_done h with ⟨he, rfl⟩ | ⟨x, he, rfl⟩
      · exact .releaseEnds c hp he
      · exact .releaseStays c x hp he

/-- A stage with a curve raises no fault. -/
theorem Voice.curve_outcome (O : Arith V) (d : V) (leave : Voice V → Voice V) (curve : V → V) (v : Voice V) :
    (∃ w, (if O.notPositive d then .done (leave v) else v.stepCurve O d leave curve) = BodyResult.done w) ∨
    ((if O.notPositive d then .done (leave v) else v.stepCurve O d leave curve) = BodyResult.refuses .nanQuotient ∧
      O.notPositive d = false ∧ O.fraction (v.advanced O) d = none) := by
  cases hd : O.notPositive d with
  | true => exact .inl ⟨leave v, by simp⟩
  | false =>
    simp only [Bool.false_eq_true, if_false]
    rcases v.stepCurve_cases O d leave curve with ⟨hf, hr⟩ | ⟨x, hx, hc, hr⟩ | ⟨x, hx, hc, hr⟩
    · exact .inr ⟨hr, by simp, hf⟩
    · exact .inl ⟨_, hr⟩
    · exact .inl ⟨_, hr⟩

/-- What a stage step answers: it is done, or it is refused, at a NaN quotient of Attack, Decay or Release. It raises none of the spec's
faults (R130). -/
theorem Voice.next_outcome (O : Arith V) (v : Voice V) :
    (∃ w, v.next O = .done w) ∨
    (v.next O = .refuses .nanQuotient ∧ ∃ c,
      ((v.phase = .configured .attack c ∧ O.notPositive c.attack = false ∧ O.fraction (v.advanced O) c.attack = none) ∨
        (v.phase = .configured .decay c ∧ O.notPositive c.decay = false ∧ O.fraction (v.advanced O) c.decay = none) ∨
        (v.phase = .configured .release c ∧ O.notPositive c.release = false ∧ O.fraction (v.advanced O) c.release = none))) := by
  unfold Voice.next
  cases hp : v.phase with
  | unconfigured => exact .inl ⟨_, rfl⟩
  | configured s c =>
    cases s
    case attack =>
      rcases Voice.curve_outcome O c.attack (Voice.leaveAttack O c) O.attackLevel v with ⟨w, hw⟩ | ⟨hr, hd, hf⟩
      · exact .inl ⟨w, hw⟩
      · exact .inr ⟨hr, c, .inl ⟨rfl, hd, hf⟩⟩
    case decay =>
      rcases Voice.curve_outcome O c.decay (Voice.leaveDecay O c) (O.decayLevel c.sustain) v with ⟨w, hw⟩ | ⟨hr, hd, hf⟩
      · exact .inl ⟨w, hw⟩
      · exact .inr ⟨hr, c, .inr (.inl ⟨rfl, hd, hf⟩)⟩
    case release =>
      rcases Voice.curve_outcome O c.release (Voice.leaveRelease O c) (O.releaseLevel v.releaseStart) v with
        ⟨w, hw⟩ | ⟨hr, hd, hf⟩
      · exact .inl ⟨w, hw⟩
      · exact .inr ⟨hr, c, .inr (.inr ⟨rfl, hd, hf⟩)⟩
    all_goals exact .inl ⟨_, rfl⟩

/-! The commands' own rules, said once. -/

/-- CREATE's rule either resets the registers or raises its fault (R92). -/
theorem Block.createBody_eq_done {O : Arith V} {sr : V} {b b' : Block V} :
    Block.createBody O sr b = .done b' ↔
      O.goodRate sr = true ∧ b' = { b with life := .live (Voice.fresh O sr), fault := ⟨.none, 0⟩ } := by
  unfold Block.createBody
  cases O.goodRate sr <;> simp [eq_comm]

/-- CONFIG's rule writes the configuration registers where its operands are finite (R102). -/
theorem Voice.config_eq_done {O : Arith V} {d a h dc s r : V} {v w : Voice V} :
    v.config O d a h dc s r = .done w ↔
      O.allFinite [d, a, h, dc, s, r] = true ∧ w = v.configure (O.ingest d a h dc s r) := by
  unfold Voice.config
  cases O.allFinite [d, a, h, dc, s, r] <;> simp [eq_comm]

/-- NOTE_ON's rule is done where the configuration is set (R120). -/
theorem Voice.noteOn_eq_done {O : Arith V} {v w : Voice V} :
    v.noteOn O = .done w ↔ ∃ c, v.settings = some c ∧ w = { v with
      phase := .configured (if O.positive c.delay then .delay else .attack) c, elapsed := O.zero, level := O.zero } := by
  unfold Voice.noteOn Voice.settings
  cases v.phase with
  | unconfigured => simp
  | configured s c => simp only [Voice.enter, BodyResult.done.injEq, Option.some.injEq, exists_eq_left']; exact eq_comm

/-- NOTE_ON raises nothing but UNCONFIGURED (R120). -/
theorem Voice.noteOn_eq_raises {O : Arith V} {v : Voice V} {c : FaultCode} :
    v.noteOn O = .raises c ↔ v.settings = none ∧ c = .unconfigured := by
  unfold Voice.noteOn Voice.settings
  cases v.phase with
  | unconfigured => simp only [BodyResult.raises.injEq, true_and]; exact eq_comm
  | configured s c => simp

/-- NOTE_OFF in Idle writes nothing (R121). -/
theorem Voice.noteOff_of_idle (O : Arith V) {v : Voice V} (h : v.stage = .idle) : v.noteOff O = v := by
  unfold Voice.stage at h
  unfold Voice.noteOff
  cases hp : v.phase with
  | unconfigured => rfl
  | configured s c => rw [hp] at h; exact if_pos h

/-- NOTE_OFF outside Idle captures the level and enters Release (R121). -/
theorem Voice.noteOff_of_sounding (O : Arith V) {v : Voice V} {s : Stage} {c : Settings V} (hp : v.phase = .configured s c)
    (hs : s ≠ .idle) : v.noteOff O = { v with
      releaseStart := v.level, phase := .configured .release c, elapsed := O.zero } := by
  unfold Voice.noteOff
  rw [hp]
  exact if_neg hs

/-- A stage step raises nothing (R130). -/
theorem Voice.next_ne_raises {O : Arith V} {v : Voice V} {c : FaultCode} : v.next O ≠ .raises c := by
  rcases v.next_outcome O with ⟨w, hw⟩ | ⟨hw, -⟩ <;> simp [hw]

end Sys2Proof.Machine
end

