-- ==== Sys2Proof/Laws/Command.lean ====
section
/-! SUPPORT. What a command does to its envelope, said once over every number format: in a Faulted life, where its life check fails, in a
Live envelope, and everything it can do when it gives a next envelope. -/

namespace Sys2Proof.Machine

variable {V : Type}

/-- Whether a command is CREATE, which is all that the lifecycle check asks of it (R91). -/
def Command.isCreate : Command V → Bool
  | .create _ => true
  | .destroy => false
  | .config _ _ _ _ _ _ => false
  | .noteOn => false
  | .noteOff => false
  | .next => false

/-- What a command does before CREATE. -/
def Command.fresh (O : Arith V) (b : Block V) : Command V → BodyResult (Block V)
  | .create sr => b.createBody O sr
  | .destroy => .raises .noInstance
  | .config _ _ _ _ _ _ => .raises .noInstance
  | .noteOn => .raises .noInstance
  | .noteOff => .raises .noInstance
  | .next => .raises .noInstance

/-- What a command does to a Live envelope with its registers. -/
def Command.body (O : Arith V) (b : Block V) : Command V → Voice V → BodyResult (Block V)
  | .create _ => fun _ => .raises .alreadyCreated
  | .destroy => fun _ => .done { b with life := .destroyed }
  | .config d a h dc s r => fun v => (v.config O d a h dc s r).map fun w => { b with life := .live w }
  | .noteOn => fun v => (v.noteOn O).map fun w => { b with life := .live w }
  | .noteOff => fun v => .done { b with life := .live (v.noteOff O) }
  | .next => fun v => (v.next O).map fun w => Block.respond w.level { b with life := .live w }

/-- Every command is its two rules in the common frame (R90). -/
theorem Block.command_eq_frame (O : Arith V) (c : Command V) (b : Block V) :
    b.command O c = b.frame (c.fresh O b) (c.body O b) := by
  cases c <;> rfl

theorem Block.command_of_faulted (O : Arith V) (c : Command V) {b : Block V} (h : b.life.isFaulted = true) :
    b.command O c = .next b.count := by
  rw [Block.command_eq_frame, Block.frame_of_faulted h]

theorem Block.command_of_destroyed (O : Arith V) (c : Command V) {b : Block V} (h : b.life = .destroyed) :
    b.command O c = .next (b.raise .useAfterDestroy) := by
  rw [Block.command_eq_frame, Block.frame_of_destroyed h]

theorem Block.command_of_uncreated (O : Arith V) {c : Command V} {b : Block V} (h : b.life = .uncreated)
    (hc : c.isCreate = false) : b.command O c = .next (b.raise .noInstance) := by
  rw [Block.command_eq_frame, Block.frame_of_uncreated h]
  cases c <;> first | rfl | cases hc

theorem Block.command_of_live (O : Arith V) (c : Command V) {b : Block V} {v : Voice V} (h : b.life = .live v) :
    b.command O c = b.conclude (c.body O b v) := by
  rw [Block.command_eq_frame, Block.frame_of_live h]

/-! A Live envelope. -/

theorem Block.config_of_live (O : Arith V) (d a h dc s r : V) {b : Block V} {v : Voice V} (hl : b.life = .live v)
    (hf : O.allFinite [d, a, h, dc, s, r] = true) :
    b.config O d a h dc s r = .next { b with
      life := .live (v.configure (O.ingest d a h dc s r)), cmdIndex := b.cmdIndex + 1 } := by
  have h1 := Block.command_of_live O (.config d a h dc s r) hl
  simp only [Command.body, Voice.config_eq_done.mpr ⟨hf, rfl⟩] at h1
  exact h1

theorem Block.config_of_nonfinite (O : Arith V) (d a h dc s r : V) {b : Block V} {v : Voice V} (hl : b.life = .live v)
    (hf : O.allFinite [d, a, h, dc, s, r] = false) :
    b.config O d a h dc s r = .next (b.raise .nonfiniteOperand) := by
  have h1 := Block.command_of_live O (.config d a h dc s r) hl
  simp only [Command.body, Voice.config, hf] at h1
  exact h1

theorem Block.noteOn_of_live (O : Arith V) {b : Block V} {v : Voice V} {c : Settings V} (hl : b.life = .live v)
    (hc : v.settings = some c) :
    b.noteOn O = .next { b with
      life := .live { v with
        phase := .configured (if O.positive c.delay then .delay else .attack) c, elapsed := O.zero, level := O.zero },
      cmdIndex := b.cmdIndex + 1 } := by
  have h1 := Block.command_of_live O .noteOn hl
  simp only [Command.body, Voice.noteOn_eq_done.mpr ⟨c, hc, rfl⟩] at h1
  exact h1

theorem Block.noteOn_of_unset (O : Arith V) {b : Block V} {v : Voice V} (hl : b.life = .live v)
    (hc : v.settings = none) : b.noteOn O = .next (b.raise .unconfigured) := by
  have h1 := Block.command_of_live O .noteOn hl
  simp only [Command.body, Voice.noteOn_eq_raises.mpr ⟨hc, rfl⟩] at h1
  exact h1

theorem Block.noteOff_of_live (O : Arith V) {b : Block V} {v : Voice V} (hl : b.life = .live v) :
    b.noteOff O = .next { b with life := .live (v.noteOff O), cmdIndex := b.cmdIndex + 1 } :=
  Block.command_of_live O .noteOff hl

theorem Block.next_of_done (O : Arith V) {b : Block V} {v w : Voice V} (hl : b.life = .live v) (hw : v.next O = .done w) :
    b.next O = .next { b with
      life := .live w, responses := b.responses ++ [w.level], cmdIndex := b.cmdIndex + 1 } := by
  have h1 := Block.command_of_live O .next hl
  simp only [Command.body, hw] at h1
  exact h1

theorem Block.next_of_refuses (O : Arith V) {b : Block V} {v : Voice V} {r : Refusal} (hl : b.life = .live v)
    (hw : v.next O = .refuses r) : b.next O = .refused r := by
  have h1 := Block.command_of_live O .next hl
  simp only [Command.body, hw] at h1
  exact h1

/-! The stage step, stage by stage (R131 to R137). -/

theorem Voice.next_of_configured (O : Arith V) {v : Voice V} {s : Stage} {c : Settings V} (hp : v.phase = .configured s c) :
    v.next O = v.stepConfigured O s c := by
  simp only [Voice.next, hp]

theorem Voice.next_of_idle (O : Arith V) {v : Voice V} (hs : v.stage = .idle) : v.next O = .done (v.stepIdle O) := by
  unfold Voice.stage at hs
  unfold Voice.next
  cases hp : v.phase with
  | unconfigured => rfl
  | configured s c => rw [hp] at hs; cases hs; rfl

/-- A stage with a curve is left where its shortcut holds or its fraction is complete. -/
theorem Voice.curve_ends (O : Arith V) (d : V) (leave : Voice V → Voice V) (curve : V → V) {v : Voice V}
    (h : O.le d O.zero = true ∨
      (O.isNaN (O.div (v.advanced O) d) = false ∧ O.le O.one (O.min O.one (O.div (v.advanced O) d)) = true)) :
    (if O.notPositive d then .done (leave v) else v.stepCurve O d leave curve) = BodyResult.done (leave v) := by
  cases hd : O.notPositive d
  · rcases h with h | ⟨h1, h2⟩
    · rw [Arith.notPositive, h] at hd; cases hd
    · simp [Voice.stepCurve, Arith.fraction, h1, Arith.complete, h2]
  · simp

/-- Below its end a stage with a curve stays, at the curve's level. -/
theorem Voice.curve_stays (O : Arith V) (d : V) (leave : Voice V → Voice V) (curve : V → V) {v : Voice V}
    (h0 : O.le d O.zero = false) (h1 : O.isNaN (O.div (v.advanced O) d) = false)
    (h2 : O.le O.one (O.min O.one (O.div (v.advanced O) d)) = false) :
    (if O.notPositive d then .done (leave v) else v.stepCurve O d leave curve) =
      BodyResult.done { v with elapsed := v.advanced O, level := curve (O.min O.one (O.div (v.advanced O) d)) } := by
  simp [Arith.notPositive, h0, Voice.stepCurve, Arith.fraction, h1, Arith.complete, h2]

/-- At a NaN quotient a stage with a curve is refused. -/
theorem Voice.curve_refuses (O : Arith V) (d : V) (leave : Voice V → Voice V) (curve : V → V) {v : Voice V}
    (h0 : O.le d O.zero = false) (h1 : O.isNaN (O.div (v.advanced O) d) = true) :
    (if O.notPositive d then .done (leave v) else v.stepCurve O d leave curve) = BodyResult.refuses .nanQuotient := by
  simp [Arith.notPositive, h0, Voice.stepCurve, Arith.fraction, h1]

/-- A stage step leaves the sample rate, `releaseStart` and the configuration. -/
theorem Voice.NextTo.frame {O : Arith V} {v w : Voice V} (h : v.NextTo O w) :
    w.sampleRate = v.sampleRate ∧ w.releaseStart = v.releaseStart ∧ w.settings = v.settings := by
  cases h <;> refine ⟨rfl, rfl, ?_⟩ <;> first | rfl | exact ((Voice.phase_eq_configured.mp ‹_›).2).symm

/-- NOTE_OFF leaves the sample rate, the level and the configuration. -/
theorem Voice.noteOff_frame (O : Arith V) (v : Voice V) :
    (v.noteOff O).sampleRate = v.sampleRate ∧ (v.noteOff O).level = v.level ∧ (v.noteOff O).settings = v.settings := by
  cases hp : v.phase with
  | unconfigured => rw [Voice.noteOff_of_idle O (by simp [Voice.stage, hp])]; exact ⟨rfl, rfl, rfl⟩
  | configured s c =>
    by_cases hs : s = .idle
    · rw [Voice.noteOff_of_idle O (by simp [Voice.stage, hp, hs])]; exact ⟨rfl, rfl, rfl⟩
    · rw [Voice.noteOff_of_sounding O hp hs]
      exact ⟨rfl, rfl, ((Voice.phase_eq_configured.mp hp).2).symm⟩

/-! Everything a command can do. -/

/-- What an accepted command leaves, one constructor for each command. -/
inductive Block.Accepted (O : Arith V) (b : Block V) : Command V → Block V → Prop where
  | create (sr : V) (hl : b.life = .uncreated) (hg : O.goodRate sr = true) :
      Accepted O b (.create sr) { b with
        life := .live (Voice.fresh O sr), fault := ⟨.none, 0⟩, cmdIndex := b.cmdIndex + 1 }
  | destroy (v : Voice V) (hl : b.life = .live v) :
      Accepted O b .destroy { b with life := .destroyed, cmdIndex := b.cmdIndex + 1 }
  | config (d a h dc s r : V) (v : Voice V) (hl : b.life = .live v) (hf : O.allFinite [d, a, h, dc, s, r] = true) :
      Accepted O b (.config d a h dc s r) { b with
        life := .live (v.configure (O.ingest d a h dc s r)), cmdIndex := b.cmdIndex + 1 }
  | noteOn (v : Voice V) (c : Settings V) (hl : b.life = .live v) (hc : v.settings = some c) :
      Accepted O b .noteOn { b with
        life := .live { v with
          phase := .configured (if O.positive c.delay then .delay else .attack) c, elapsed := O.zero, level := O.zero },
        cmdIndex := b.cmdIndex + 1 }
  | noteOff (v : Voice V) (hl : b.life = .live v) :
      Accepted O b .noteOff { b with life := .live (v.noteOff O), cmdIndex := b.cmdIndex + 1 }
  | next (v w : Voice V) (hl : b.life = .live v) (hn : v.next O = .done w) (hw : v.NextTo O w) :
      Accepted O b .next { b with
        life := .live w, responses := b.responses ++ [w.level], cmdIndex := b.cmdIndex + 1 }

/-- A command raises nothing but a fault that is not NONE. -/
theorem Command.raises_ne_none {O : Arith V} {c : Command V} {b : Block V} {code : FaultCode}
    (h : code = .useAfterDestroy ∨ c.fresh O b = .raises code ∨ ∃ v, c.body O b v = .raises code) : code ≠ .none := by
  rcases h with rfl | h | ⟨v, h⟩
  · simp
  · cases c <;> simp only [Command.fresh, Block.createBody] at h
    case create => split at h <;> cases h; simp
    all_goals cases h; simp
  · cases c <;> simp only [Command.body, BodyResult.map_eq_raises] at h
    case create => cases h; simp
    case destroy => cases h
    case config => unfold Voice.config at h; split at h <;> cases h; simp
    case noteOn => rw [(Voice.noteOn_eq_raises.mp h).2]; simp
    case noteOff => cases h
    case next => exact absurd h Voice.next_ne_raises

/-- Everything a command can do when it gives a next envelope: it is ignored but counted, or it raises a fault, or it is accepted. -/
theorem Block.command_cases {O : Arith V} {c : Command V} {b b' : Block V} (h : b.command O c = .next b') :
    (b.life.isFaulted = true ∧ b' = b.count) ∨
    (b.life.isFaulted = false ∧ ∃ code, code ≠ .none ∧ b' = b.raise code) ∨
    b.Accepted O c b' := by
  rw [Block.command_eq_frame] at h
  rcases Block.frame_cases h with h | ⟨hf, code, hc, rfl⟩ | ⟨hl, b'', hb, rfl⟩ | ⟨v, b'', hl, hb, rfl⟩
  · exact .inl h
  · exact .inr (.inl ⟨hf, code, Command.raises_ne_none hc, rfl⟩)
  · refine .inr (.inr ?_)
    cases c <;> first | cases hb | skip
    obtain ⟨hg, rfl⟩ := Block.createBody_eq_done.mp hb
    exact .create _ hl hg
  · refine .inr (.inr ?_)
    cases c <;> simp only [Command.body, BodyResult.map_eq_done] at hb
    case create => cases hb
    case destroy => cases hb; exact .destroy v hl
    case config =>
      obtain ⟨w, hw, rfl⟩ := hb
      obtain ⟨hf, rfl⟩ := Voice.config_eq_done.mp hw
      exact .config _ _ _ _ _ _ v hl hf
    case noteOn =>
      obtain ⟨w, hw, rfl⟩ := hb
      obtain ⟨c, hc, rfl⟩ := Voice.noteOn_eq_done.mp hw
      exact .noteOn v c hl hc
    case noteOff => cases hb; exact .noteOff v hl
    case next =>
      obtain ⟨w, hw, rfl⟩ := hb
      exact .next v w hl hw (Voice.next_done hw)

/-- Everything an instruction can do when it gives a next state. -/
theorem exec_cases {i : Instr} {s t : State} (h : exec i s = .next t) :
    (s.life.isFaulted = true ∧ t = { s with toBlock := s.toBlock.count }) ∨
    (s.life.isFaulted = false ∧ ∃ code, code ≠ .none ∧ t = { s with toBlock := s.toBlock.raise code }) ∨
    ∃ b, s.toBlock.Accepted s.arith (Command.ofInstr i) b ∧ t = { s with toBlock := b } := by
  obtain ⟨b, hb, rfl⟩ := exec_eq_next.mp h
  rcases Block.command_cases hb with ⟨hf, rfl⟩ | ⟨hf, code, hc, rfl⟩ | ha
  · exact .inl ⟨hf, rfl⟩
  · exact .inr (.inl ⟨hf, code, hc, rfl⟩)
  · exact .inr (.inr ⟨b, ha, rfl⟩)

end Sys2Proof.Machine
end

