-- ==== Sys2Proof/Laws/Float.lean ====
section
/-! SUPPORT. Rounding and the words of a floating format: magnitude bits count up with the value they mean, rounding is exact on values of the
format and never falls, and a word's meaning is its sign and its magnitude bits. -/

namespace Sys2Proof

/-! Magnitude bits and their values. -/

/-- The next magnitude bits mean one unit in the last place more. -/
theorem magnitudeValue_succ (f : NumFormat) (m : Nat) :
    magnitudeValue f (m + 1) = magnitudeValue f m + 2 ^ (m / 2 ^ (f.precision - 1) - 1) := by
  have hP : 0 < 2 ^ (f.precision - 1) := Nat.two_pow_pos _
  unfold magnitudeValue
  generalize 2 ^ (f.precision - 1) = P at hP ⊢
  simp only
  have hm := Nat.div_add_mod m P
  have hlt := Nat.mod_lt m hP
  generalize hq : m / P = q at *
  generalize hr : m % P = r at *
  by_cases hc : r + 1 < P
  · have h1 : (m + 1) / P = q := by
      rw [← hm]; rw [Nat.add_assoc, Nat.mul_add_div hP, Nat.div_eq_of_lt hc]; simp
    have h2 : (m + 1) % P = r + 1 := by
      rw [← hm]; rw [Nat.add_assoc, Nat.mul_add_mod, Nat.mod_eq_of_lt hc]
    rw [h1, h2]
    by_cases hz : q = 0
    · simp [hz]
    · simp only [hz, if_false]; ring
  · have hr1 : r + 1 = P := by omega
    have h1 : (m + 1) / P = q + 1 := by
      rw [← hm, Nat.add_assoc, hr1, Nat.mul_add_div hP, Nat.div_self hP]
    have h2 : (m + 1) % P = 0 := by
      rw [← hm, Nat.add_assoc, hr1, Nat.mul_add_mod, Nat.mod_self]
    rw [h1, h2]
    by_cases hz : q = 0
    · simp [hz]; omega
    · obtain ⟨q', rfl⟩ : ∃ q', q = q' + 1 := ⟨q - 1, by omega⟩
      simp only [hz, if_false, Nat.add_eq_zero_iff, false_and, Nat.add_sub_cancel, Nat.add_zero]
      rw [pow_succ, ← hr1]
      ring

theorem magnitudeValue_lt_succ (f : NumFormat) (m : Nat) : magnitudeValue f m < magnitudeValue f (m + 1) := by
  rw [magnitudeValue_succ]
  exact Nat.lt_add_of_pos_right (Nat.two_pow_pos _)

theorem magnitudeValue_strictMono (f : NumFormat) : StrictMono (magnitudeValue f) :=
  strictMono_nat_of_lt_succ (magnitudeValue_lt_succ f)

theorem magnitudeValue_le_iff (f : NumFormat) {a b : Nat} : magnitudeValue f a ≤ magnitudeValue f b ↔ a ≤ b :=
  (magnitudeValue_strictMono f).le_iff_le

theorem magnitudeValue_lt_iff (f : NumFormat) {a b : Nat} : magnitudeValue f a < magnitudeValue f b ↔ a < b :=
  (magnitudeValue_strictMono f).lt_iff_lt

theorem magnitudeValue_inj (f : NumFormat) {a b : Nat} : magnitudeValue f a = magnitudeValue f b ↔ a = b :=
  (magnitudeValue_strictMono f).injective.eq_iff

@[simp] theorem magnitudeValue_zero (f : NumFormat) : magnitudeValue f 0 = 0 := by
  simp [magnitudeValue]

theorem magnitudeValue_eq_zero (f : NumFormat) {m : Nat} : magnitudeValue f m = 0 ↔ m = 0 := by
  rw [← magnitudeValue_inj f (a := m) (b := 0), magnitudeValue_zero]

/-! Rounding. -/

/-- The value of the magnitude bits `below`, and the step above it, from how `roundMagnitude` computes them. -/
theorem magnitudeValue_below (f : NumFormat) {shift kept : Nat} (hk : kept < 2 ^ f.precision)
    (hs : shift = 0 ∨ 2 ^ (f.precision - 1) ≤ kept) :
    magnitudeValue f (shift * 2 ^ (f.precision - 1) + kept) = kept * 2 ^ shift ∧
    magnitudeValue f (shift * 2 ^ (f.precision - 1) + kept + 1) = (kept + 1) * 2 ^ shift := by
  have hp : f.precision = f.precision - 1 + 1 := by cases f <;> rfl
  rw [hp, pow_succ] at hk
  rw [magnitudeValue_succ]
  have hP : 0 < 2 ^ (f.precision - 1) := Nat.two_pow_pos _
  unfold magnitudeValue
  generalize 2 ^ (f.precision - 1) = P at *
  simp only
  by_cases hlow : kept < P
  · have h0 : shift = 0 := by omega
    subst h0
    simp [Nat.div_eq_of_lt hlow, Nat.mod_eq_of_lt hlow]
  · obtain ⟨r, rfl⟩ : ∃ r, kept = P + r := ⟨kept - P, by omega⟩
    have hr : r < P := by omega
    have e : shift * P + (P + r) = P * (shift + 1) + r := by ring
    have h1 : (P * (shift + 1) + r) / P = shift + 1 := by
      rw [Nat.mul_add_div hP, Nat.div_eq_of_lt hr, Nat.add_zero]
    have h2 : (P * (shift + 1) + r) % P = r := by rw [Nat.mul_add_mod, Nat.mod_eq_of_lt hr]
    rw [e, h1, h2]
    simp only [Nat.add_eq_zero_iff, one_ne_zero, and_false, if_false, Nat.add_sub_cancel, true_and]
    ring

/-- What rounding answers: with `b` the greatest magnitude bits whose value is not above `n / d`, it is `b` or the next, whichever is
nearer, at a tie the even one, and never above infinity. -/
theorem roundMagnitude_spec (f : NumFormat) (n : Nat) {d : Nat} (hd : 0 < d) :
    ∃ b, magnitudeValue f b * d ≤ n ∧ n < magnitudeValue f (b + 1) * d ∧
      roundMagnitude f n d = min
        (if magnitudeValue f b * d + magnitudeValue f (b + 1) * d < 2 * n ∨
            (2 * n = magnitudeValue f b * d + magnitudeValue f (b + 1) * d ∧ b % 2 = 1) then b + 1 else b)
        f.infinity := by
  have hp : 1 ≤ f.precision := by cases f <;> decide
  unfold roundMagnitude
  simp only
  have hwn : n / d * d ≤ n := Nat.div_mul_le_self n d
  have hwn' : n < (n / d + 1) * d := by
    rw [Nat.add_mul, Nat.one_mul]; exact Nat.lt_div_mul_add hd
  generalize n / d = whole at *
  have hlog : whole < 2 ^ (whole.log2 + 1) := Nat.lt_log2_self
  generalize hs : whole.log2 + 1 - f.precision = shift at *
  have hkept : whole / 2 ^ shift < 2 ^ f.precision := by
    rw [Nat.div_lt_iff_lt_mul (Nat.two_pow_pos _), ← pow_add]
    exact lt_of_lt_of_le hlog (Nat.pow_le_pow_right (by decide) (by omega))
  have hlow : shift = 0 ∨ 2 ^ (f.precision - 1) ≤ whole / 2 ^ shift := by
    by_cases h0 : shift = 0
    · exact .inl h0
    · right
      rw [Nat.le_div_iff_mul_le (Nat.two_pow_pos _), ← pow_add]
      have : whole ≠ 0 := by
        rintro rfl
        have : Nat.log2 0 = 0 := by decide
        rw [this] at hs; omega
      refine le_trans (Nat.pow_le_pow_right (by decide) ?_) (Nat.log2_self_le this)
      omega
  have h1 : whole / 2 ^ shift * 2 ^ shift ≤ whole := Nat.div_mul_le_self _ _
  have h2 : whole < (whole / 2 ^ shift + 1) * 2 ^ shift := by
    rw [Nat.add_mul, Nat.one_mul]; exact Nat.lt_div_mul_add (Nat.two_pow_pos _)
  generalize whole / 2 ^ shift = kept at *
  obtain ⟨hv, hv'⟩ := magnitudeValue_below f hkept hlow
  refine ⟨shift * 2 ^ (f.precision - 1) + kept, ?_, ?_, ?_⟩
  · rw [hv]; exact le_trans (Nat.mul_le_mul_right d h1) hwn
  · rw [hv']; exact lt_of_lt_of_le hwn' (Nat.mul_le_mul_right d h2)
  · rw [hv, hv']
    have hle : kept * 2 ^ shift * d ≤ n := le_trans (Nat.mul_le_mul_right d h1) hwn
    have hring : (kept + 1) * 2 ^ shift * d = kept * 2 ^ shift * d + 2 ^ shift * d := by ring
    rw [hring]
    congr 1
    generalize kept * 2 ^ shift * d = a at *
    generalize 2 ^ shift * d = s at *
    apply if_congr _ rfl rfl
    constructor <;> rintro (h | ⟨h, ho⟩)
    · left; omega
    · right; exact ⟨by omega, ho⟩
    · left; omega
    · right; exact ⟨by omega, ho⟩

/-- Rounding a value not above that of `k` moves it by less than the unit in the last place above `k`. -/
theorem magnitudeValue_round_le (f : NumFormat) {c k : Nat} (h : c ≤ magnitudeValue f k) :
    magnitudeValue f (roundMagnitude f c 1) + magnitudeValue f k ≤ c + magnitudeValue f (k + 1) := by
  obtain ⟨b, hb, -, hr⟩ := roundMagnitude_spec f c Nat.one_pos
  have hbk : b ≤ k := (magnitudeValue_le_iff f).mp (by omega)
  have hq : magnitudeValue f (roundMagnitude f c 1) ≤ magnitudeValue f (b + 1) := by
    rw [magnitudeValue_le_iff, hr]
    split <;> omega
  have hstep : 2 ^ (b / 2 ^ (f.precision - 1) - 1) ≤ 2 ^ (k / 2 ^ (f.precision - 1) - 1) :=
    Nat.pow_le_pow_right (by decide) (Nat.sub_le_sub_right (Nat.div_le_div_right hbk) 1)
  have h1 := magnitudeValue_succ f b
  have h2 := magnitudeValue_succ f k
  omega

theorem roundMagnitude_le_infinity (f : NumFormat) (n d : Nat) : roundMagnitude f n d ≤ f.infinity :=
  Nat.min_le_right _ _

/-- Rounding never falls: a fraction not above another does not round above it. -/
theorem roundMagnitude_mono (f : NumFormat) {n d n' d' : Nat} (hd : 0 < d) (hd' : 0 < d') (h : n * d' ≤ n' * d) :
    roundMagnitude f n d ≤ roundMagnitude f n' d' := by
  obtain ⟨b, hb, hb1, hr⟩ := roundMagnitude_spec f n hd
  obtain ⟨c, hc, hc1, hr'⟩ := roundMagnitude_spec f n' hd'
  rw [hr, hr']
  apply min_le_min_right
  have hbc : b ≤ c := by
    have : magnitudeValue f b < magnitudeValue f (c + 1) := by
      by_contra hge
      rw [not_lt] at hge
      have h1 : magnitudeValue f (c + 1) * d * d' ≤ n * d' :=
        Nat.mul_le_mul_right d' (le_trans (Nat.mul_le_mul_right d hge) hb)
      have h2 : n' * d < magnitudeValue f (c + 1) * d' * d := Nat.mul_lt_mul_of_pos_right hc1 hd
      have h3 : magnitudeValue f (c + 1) * d' * d = magnitudeValue f (c + 1) * d * d' := by ring
      omega
    rw [magnitudeValue_lt_iff] at this
    omega
  rcases Nat.lt_or_eq_of_le hbc with hlt | rfl
  · split <;> split <;> omega
  · generalize magnitudeValue f b = x at *
    generalize magnitudeValue f (b + 1) = y at *
    split
    · rename_i hu
      have hup : (x * d' + y * d' < 2 * n' ∨ (2 * n' = x * d' + y * d' ∧ b % 2 = 1)) := by
        rcases hu with hu | ⟨hu, ho⟩
        · left
          have h1 : (x * d + y * d) * d' < 2 * n * d' := Nat.mul_lt_mul_of_pos_right hu hd'
          have h2 : (x * d' + y * d') * d < 2 * n' * d := by nlinarith
          exact Nat.lt_of_mul_lt_mul_right h2
        · have h2 : (x * d' + y * d') * d ≤ 2 * n' * d := by nlinarith
          rcases Nat.lt_or_eq_of_le (Nat.le_of_mul_le_mul_right h2 hd) with h3 | h3
          · exact .inl h3
          · exact .inr ⟨h3.symm, ho⟩
      rw [if_pos hup]
    · split <;> omega

/-- Rounding is exact on the values of the format. -/
theorem roundMagnitude_exact (f : NumFormat) {m d : Nat} (hd : 0 < d) (hm : m ≤ f.infinity) :
    roundMagnitude f (magnitudeValue f m * d) d = m := by
  obtain ⟨b, hb, hb1, hr⟩ := roundMagnitude_spec f (magnitudeValue f m * d) hd
  have h1 : b ≤ m := (magnitudeValue_le_iff f).mp (Nat.le_of_mul_le_mul_right hb hd)
  have h2 : m < b + 1 := (magnitudeValue_lt_iff f).mp (Nat.lt_of_mul_lt_mul_right hb1)
  obtain rfl : b = m := by omega
  rw [hr, if_neg, min_eq_left hm]
  have := magnitudeValue_lt_succ f b
  have h3 : magnitudeValue f b * d < magnitudeValue f (b + 1) * d := Nat.mul_lt_mul_of_pos_right this hd
  omega

theorem roundMagnitude_exact_one (f : NumFormat) {m : Nat} (hm : m ≤ f.infinity) :
    roundMagnitude f (magnitudeValue f m) 1 = m := by
  have := roundMagnitude_exact f (m := m) (d := 1) Nat.one_pos hm
  rwa [Nat.mul_one] at this

theorem roundMagnitude_zero (f : NumFormat) {d : Nat} (hd : 0 < d) : roundMagnitude f 0 d = 0 := by
  have := roundMagnitude_exact f (m := 0) hd (Nat.zero_le _)
  rwa [magnitudeValue_zero, Nat.zero_mul] at this

/-! Words. -/

theorem infinity_lt (f : NumFormat) : f.infinity + 2 ^ (f.precision - 2) < 2 ^ f.signBit := by
  cases f <;> decide

theorem word_format (f : NumFormat) (n : Nat) : (f.word n).format = f := by cases f <;> rfl

theorem word_bits (f : NumFormat) {n : Nat} (h : n < 2 ^ (f.signBit + 1)) : (f.word n).bits = n := by
  cases f
  · simp only [NumFormat.word, Word.bits, BitVec.toNat_ofNat]
    exact Nat.mod_eq_of_lt h
  · simp only [NumFormat.word, Word.bits, BitVec.toNat_ofNat]
    exact Nat.mod_eq_of_lt h

/-- The magnitude bits and the sign of a word made from them. -/
theorem signed_parts (f : NumFormat) (neg : Bool) {m : Nat} (h : m < 2 ^ f.signBit) :
    (f.signed neg m).format = f ∧ (f.signed neg m).magnitude = m ∧ (f.signed neg m).negative = neg := by
  have hb : (f.signed neg m).bits = if neg then 2 ^ f.signBit + m else m := by
    unfold NumFormat.signed
    rw [word_bits]
    rw [pow_succ]
    split <;> omega
  have hf : (f.signed neg m).format = f := word_format f _
  refine ⟨hf, ?_, ?_⟩
  · rw [Word.magnitude, hb, hf]
    cases neg
    · exact Nat.mod_eq_of_lt h
    · simp only [if_true, Nat.add_mod_left]; exact Nat.mod_eq_of_lt h
  · rw [Word.negative, hb, hf]
    cases neg
    · exact Nat.testBit_lt_two_pow h
    · simp only [if_true]
      rw [Nat.testBit_two_pow_add_eq, Nat.testBit_lt_two_pow h]; rfl

/-- What the word of a sign and magnitude bits means. -/
theorem datum_signed (f : NumFormat) (neg : Bool) {m : Nat} (h : m ≤ f.infinity) :
    (f.signed neg m).datum f = if m < f.infinity then .fin neg (magnitudeValue f m) else .inf neg := by
  have hlt : m < 2 ^ f.signBit := lt_of_le_of_lt (le_trans h (Nat.le_add_right _ _)) (infinity_lt f)
  obtain ⟨h1, h2, h3⟩ := signed_parts f neg hlt
  unfold Word.datum
  rw [if_pos h1, h2, h3]
  split
  · rfl
  · rw [if_pos (by omega)]

theorem datum_narrow_nan (f : NumFormat) : (Exact.narrow f .nan).datum f = .nan := by
  obtain ⟨h1, h2, h3⟩ := signed_parts f false (infinity_lt f)
  unfold Word.datum Exact.narrow
  have hp : 0 < 2 ^ (f.precision - 2) := Nat.two_pow_pos _
  rw [if_pos h1, h2, if_neg (by omega), if_neg (by omega)]

theorem datum_narrow_inf (f : NumFormat) (neg : Bool) : (Exact.narrow f (.inf neg)).datum f = .inf neg := by
  unfold Exact.narrow
  rw [datum_signed f neg le_rfl, if_neg (lt_irrefl _)]

theorem datum_narrow_frac (f : NumFormat) (neg : Bool) (n d : Nat) :
    (Exact.narrow f (.frac neg n d)).datum f =
      if roundMagnitude f n d < f.infinity then .fin neg (magnitudeValue f (roundMagnitude f n d)) else .inf neg :=
  datum_signed f neg (roundMagnitude_le_infinity f n d)

/-- Every finite word is a sign and magnitude bits below infinity. -/
theorem datum_eq_fin {f : NumFormat} {w : Word} {neg : Bool} {n : Nat} (h : w.datum f = .fin neg n) :
    ∃ m, m < f.infinity ∧ n = magnitudeValue f m := by
  unfold Word.datum at h
  split at h
  · split at h
    · cases h; exact ⟨_, ‹_›, rfl⟩
    · split at h <;> cases h
  · cases h

/-! Ranks and the order. -/

theorem infinity_pos (f : NumFormat) : 0 < f.infinity := by cases f <;> decide

theorem rank_of_fin {f : NumFormat} {w : Word} {neg : Bool} {m : Nat} (h : w.datum f = .fin neg (magnitudeValue f m))
    (hm : m < f.infinity) : w.rank f = some (if neg then f.infinity - m else f.infinity + m) := by
  unfold Word.rank
  simp only [h, roundMagnitude_exact_one f hm.le]

theorem rank_of_inf {f : NumFormat} {w : Word} {neg : Bool} (h : w.datum f = .inf neg) :
    w.rank f = some (if neg then 0 else 2 * f.infinity) := by
  unfold Word.rank
  simp only [h]

theorem rank_of_nan {f : NumFormat} {w : Word} (h : w.datum f = .nan) : w.rank f = none := by
  unfold Word.rank
  simp only [h]

/-- A word has a rank exactly when it is not NaN. -/
theorem rank_eq_none {f : NumFormat} {w : Word} : w.rank f = none ↔ w.datum f = .nan := by
  unfold Word.rank
  cases w.datum f <;> simp

/-- The word of a sign and magnitude bits, by rank. -/
theorem rank_signed (f : NumFormat) (neg : Bool) {m : Nat} (h : m ≤ f.infinity) :
    (f.signed neg m).rank f = some (if neg then f.infinity - m else f.infinity + m) := by
  rcases Nat.lt_or_eq_of_le h with hlt | rfl
  · exact rank_of_fin (by rw [datum_signed f neg h, if_pos hlt]) hlt
  · rw [rank_of_inf (neg := neg) (by rw [datum_signed f neg h, if_neg (lt_irrefl _)])]
    cases neg <;> simp [two_mul]

theorem rank_ofRank (f : NumFormat) {r : Nat} (h : r ≤ f.topRank) : (f.ofRank r).rank f = some r := by
  unfold NumFormat.topRank at h
  unfold NumFormat.ofRank
  split
  · rw [rank_signed f true (by omega)]; simp; omega
  · rw [rank_signed f false (Nat.min_le_right _ _), Nat.min_eq_left (by omega)]; simp; omega

theorem rank_le_topRank {f : NumFormat} {w : Word} {r : Nat} (h : w.rank f = some r) : r ≤ f.topRank := by
  unfold NumFormat.topRank
  cases hd : w.datum f with
  | nan => rw [rank_of_nan hd] at h; cases h
  | inf neg => rw [rank_of_inf hd] at h; cases h; split <;> omega
  | fin neg n =>
    obtain ⟨m, hm, rfl⟩ := datum_eq_fin hd
    rw [rank_of_fin hd hm] at h; cases h; split <;> omega

theorem signedUnits_le_iff (f : NumFormat) {a b : Bool} {m n : Nat} (hm : m < f.infinity) (hn : n < f.infinity) :
    signedUnits a (magnitudeValue f m) ≤ signedUnits b (magnitudeValue f n) ↔
      (if a then f.infinity - m else f.infinity + m) ≤ (if b then f.infinity - n else f.infinity + n) := by
  have h1 := magnitudeValue_le_iff f (a := m) (b := n)
  have h2 := magnitudeValue_le_iff f (a := n) (b := m)
  have h3 := magnitudeValue_eq_zero f (m := m)
  have h4 := magnitudeValue_eq_zero f (m := n)
  generalize magnitudeValue f m = x at *
  generalize magnitudeValue f n = y at *
  unfold signedUnits
  cases a <;> cases b <;> simp only [Bool.false_eq_true, if_true, if_false] <;> omega

/-- The order of the format is the order of ranks. -/
theorem floatLe_iff {f : NumFormat} {a b : Word} :
    floatLe f a b = true ↔ ∃ r s, a.rank f = some r ∧ b.rank f = some s ∧ r ≤ s := by
  unfold floatLe
  cases ha : a.datum f with
  | nan => simp [Datum.le, rank_of_nan ha]
  | inf na =>
    cases hb : b.datum f with
    | nan => simp [Datum.le, rank_of_nan hb]
    | inf nb =>
      rw [rank_of_inf ha, rank_of_inf hb]
      have := infinity_pos f
      cases na <;> cases nb <;> simp [Datum.le]; omega
    | fin nb n =>
      obtain ⟨m, hm, rfl⟩ := datum_eq_fin hb
      rw [rank_of_inf ha, rank_of_fin hb hm]
      cases na <;> cases nb <;> simp [Datum.le] <;> omega
  | fin na m =>
    obtain ⟨x, hx, rfl⟩ := datum_eq_fin ha
    cases hb : b.datum f with
    | nan => simp [Datum.le, rank_of_nan hb]
    | inf nb =>
      rw [rank_of_inf hb, rank_of_fin ha hx]
      cases na <;> cases nb <;> simp [Datum.le] <;> omega
    | fin nb n =>
      obtain ⟨y, hy, rfl⟩ := datum_eq_fin hb
      rw [rank_of_fin ha hx, rank_of_fin hb hy]
      simp only [Datum.le, decide_eq_true_eq, Option.some.injEq]
      rw [signedUnits_le_iff f hx hy]
      constructor
      · intro h; exact ⟨_, _, rfl, rfl, h⟩
      · rintro ⟨_, _, rfl, rfl, h⟩; exact h

theorem floatLe_of_rank {f : NumFormat} {a b : Word} {r s : Nat} (ha : a.rank f = some r) (hb : b.rank f = some s) :
    floatLe f a b = true ↔ r ≤ s := by
  rw [floatLe_iff]
  constructor
  · rintro ⟨r', s', hr, hs, h⟩
    rw [ha] at hr; rw [hb] at hs
    cases hr; cases hs; exact h
  · exact fun h => ⟨r, s, ha, hb, h⟩

theorem floatLt_of_rank {f : NumFormat} {a b : Word} {r s : Nat} (ha : a.rank f = some r) (hb : b.rank f = some s) :
    floatLt f a b = true ↔ r < s := by
  unfold floatLt
  rw [Bool.and_eq_true, floatLe_of_rank ha hb, Bool.not_eq_true', Bool.eq_false_iff, Ne, floatLe_of_rank hb ha]
  omega

/-- A word is finite exactly when its rank is neither the least nor the greatest. -/
theorem floatFinite_of_rank {f : NumFormat} {a : Word} {r : Nat} (ha : a.rank f = some r) :
    floatFinite f a = true ↔ 0 < r ∧ r < f.topRank := by
  unfold floatFinite NumFormat.topRank
  have hpos := infinity_pos f
  cases hd : a.datum f with
  | nan => rw [rank_of_nan hd] at ha; cases ha
  | inf neg => rw [rank_of_inf hd] at ha; cases ha; cases neg <;> simp [Datum.isFinite]
  | fin neg n =>
    obtain ⟨m, hm, rfl⟩ := datum_eq_fin hd
    rw [rank_of_fin hd hm] at ha; cases ha
    cases neg <;> simp [Datum.isFinite] <;> omega

theorem floatNaN_iff {f : NumFormat} {a : Word} : floatNaN f a = true ↔ a.rank f = none := by
  rw [rank_eq_none]
  unfold floatNaN
  cases a.datum f <;> simp [Datum.isNaN]

theorem rank_zero (f : NumFormat) : (f.signed false 0).rank f = some f.zeroRank := by
  rw [rank_signed f false (Nat.zero_le _)]; rfl

/-- The word of a literal has the literal's rank. -/
theorem rank_literal (f : NumFormat) (l : Literal) : (l.word f).rank f = some (l.rank f) := by
  unfold Literal.word Exact.narrow Literal.rank
  rw [rank_signed f false (roundMagnitude_le_infinity f _ _)]
  rfl

end Sys2Proof
end

