-- ==== Sys2Proof/Laws/Operations.lean ====
section
/-! SUPPORT. What the operations of a floating format answer, by rank: an operation rounds its exact result, and rounding never falls. -/

namespace Sys2Proof

/-- The rank of the signed fraction `x / d`, rounded. -/
def valueRank (f : NumFormat) (x : Int) (d : Nat) : Nat :=
  if x < 0 then f.infinity - roundMagnitude f x.natAbs d else f.infinity + roundMagnitude f x.natAbs d

/-- The word is finite and means `u` units. -/
def IsUnits (f : NumFormat) (w : Word) (u : Int) : Prop :=
  ∃ neg n, w.datum f = .fin neg n ∧ u = signedUnits neg n

theorem valueRank_le_topRank (f : NumFormat) (x : Int) (d : Nat) : valueRank f x d ≤ f.topRank := by
  have := roundMagnitude_le_infinity f x.natAbs d
  unfold valueRank NumFormat.topRank
  split <;> omega

/-- Rounding never falls, over signed fractions. -/
theorem valueRank_mono (f : NumFormat) {x y : Int} {d e : Nat} (hd : 0 < d) (he : 0 < e) (h : x * e ≤ y * d) :
    valueRank f x d ≤ valueRank f y e := by
  have hx := roundMagnitude_le_infinity f x.natAbs d
  have hy := roundMagnitude_le_infinity f y.natAbs e
  unfold valueRank
  by_cases h1 : x < 0 <;> by_cases h2 : y < 0 <;> simp only [h1, h2, if_true, if_false]
  · apply Nat.sub_le_sub_left
    apply roundMagnitude_mono f he hd
    have hxa : (x.natAbs : Int) = -x := by omega
    have hya : (y.natAbs : Int) = -y := by omega
    zify
    rw [show |y| = -y from abs_of_neg h2, show |x| = -x from abs_of_neg h1]
    linarith
  · omega
  · exfalso
    have h3 : 0 ≤ x * (e : Int) := mul_nonneg (by omega) (by omega)
    have h4 : y * (d : Int) < 0 := mul_neg_of_neg_of_pos h2 (by omega)
    omega
  · apply Nat.add_le_add_left
    apply roundMagnitude_mono f hd he
    zify
    rw [abs_of_nonneg (by omega), abs_of_nonneg (by omega)]
    exact h

theorem valueRank_zero (f : NumFormat) {d : Nat} (hd : 0 < d) : valueRank f 0 d = f.zeroRank := by
  simp [valueRank, roundMagnitude_zero f hd, NumFormat.zeroRank]

theorem valueRank_nonneg (f : NumFormat) {x : Int} {d : Nat} (hd : 0 < d) (h : 0 ≤ x) : f.zeroRank ≤ valueRank f x d := by
  rw [← valueRank_zero f Nat.one_pos]
  exact valueRank_mono f Nat.one_pos hd (by simpa using h)

theorem valueRank_nonpos (f : NumFormat) {x : Int} {d : Nat} (hd : 0 < d) (h : x ≤ 0) : valueRank f x d ≤ f.zeroRank := by
  rw [← valueRank_zero f Nat.one_pos]
  exact valueRank_mono f hd Nat.one_pos (by simpa using h)

/-- The rank of an exact fraction, narrowed. -/
theorem rank_narrow_frac (f : NumFormat) (neg : Bool) (n d : Nat) :
    (Exact.narrow f (.frac neg n d)).rank f =
      some (if neg then f.infinity - roundMagnitude f n d else f.infinity + roundMagnitude f n d) :=
  rank_signed f neg (roundMagnitude_le_infinity f n d)

theorem rank_narrow_nan (f : NumFormat) : (Exact.narrow f .nan).rank f = none := rank_of_nan (datum_narrow_nan f)

theorem rank_narrow_inf (f : NumFormat) (neg : Bool) :
    (Exact.narrow f (.inf neg)).rank f = some (if neg then 0 else f.topRank) := rank_of_inf (datum_narrow_inf f neg)

/-- A signed fraction narrowed: the sign of a zero does not show in its rank. -/
theorem rank_narrow_signed (f : NumFormat) {neg : Bool} {n d : Nat} {x : Int} (hd : 0 < d) (hn : n = x.natAbs)
    (hs : x ≠ 0 → neg = decide (x < 0)) : (Exact.narrow f (.frac neg n d)).rank f = some (valueRank f x d) := by
  rw [rank_narrow_frac, hn]
  unfold valueRank
  by_cases hx : x = 0
  · simp [hx, roundMagnitude_zero f hd]
  · rw [hs hx]; simp

/-! Finite words. -/

theorem IsUnits.rank {f : NumFormat} {w : Word} {u : Int} (h : IsUnits f w u) : w.rank f = some (valueRank f u 1) := by
  obtain ⟨neg, n, hd, rfl⟩ := h
  obtain ⟨m, hm, rfl⟩ := datum_eq_fin hd
  rw [rank_of_fin hd hm]
  have he := roundMagnitude_exact_one f hm.le
  have hz := magnitudeValue_eq_zero f (m := m)
  unfold valueRank signedUnits
  cases neg
  · simp [he]
  · by_cases h0 : m = 0
    · simp [h0, roundMagnitude_zero f Nat.one_pos]
    · have : 0 < magnitudeValue f m := by omega
      simp [he, this]

theorem IsUnits.finite {f : NumFormat} {w : Word} {u : Int} (h : IsUnits f w u) : floatFinite f w = true := by
  obtain ⟨neg, n, hd, rfl⟩ := h
  simp [floatFinite, hd, Datum.isFinite]

theorem isUnits_of_finite {f : NumFormat} {w : Word} (h : floatFinite f w = true) : ∃ u, IsUnits f w u := by
  unfold floatFinite at h
  cases hd : w.datum f with
  | nan => simp [hd, Datum.isFinite] at h
  | inf neg => simp [hd, Datum.isFinite] at h
  | fin neg n => exact ⟨_, neg, n, hd, rfl⟩

/-- A finite word's value, rounded, is the word's own. -/
theorem IsUnits.lt_topRank {f : NumFormat} {w : Word} {u : Int} (h : IsUnits f w u) :
    0 < valueRank f u 1 ∧ valueRank f u 1 < f.topRank := (floatFinite_of_rank h.rank).mp h.finite

theorem IsUnits.le_iff {f : NumFormat} {a b : Word} {u v : Int} (ha : IsUnits f a u) (hb : IsUnits f b v) :
    floatLe f a b = true ↔ u ≤ v := by
  obtain ⟨na, m, hda, rfl⟩ := ha
  obtain ⟨nb, n, hdb, rfl⟩ := hb
  simp [floatLe, hda, hdb, Datum.le]

theorem isUnits_zero (f : NumFormat) : IsUnits f (f.signed false 0) 0 := by
  refine ⟨false, 0, ?_, rfl⟩
  rw [datum_signed f false (Nat.zero_le _), if_pos (infinity_pos f), magnitudeValue_zero]

theorem signedUnits_natAbs (neg : Bool) (n : Nat) : (signedUnits neg n).natAbs = n := by
  cases neg <;> simp [signedUnits]

theorem signedUnits_neg (neg : Bool) (n : Nat) : signedUnits (!neg) n = -signedUnits neg n := by
  cases neg <;> simp [signedUnits]

/-! The operations. -/

theorem floatNeg_units {f : NumFormat} {a : Word} {u : Int} (ha : IsUnits f a u) : IsUnits f (floatNeg f a) (-u) := by
  obtain ⟨neg, n, hd, rfl⟩ := ha
  obtain ⟨m, hm, rfl⟩ := datum_eq_fin hd
  refine ⟨!neg, magnitudeValue f m, ?_, (signedUnits_neg _ _).symm⟩
  unfold floatNeg
  rw [hd]
  simp only [Datum.neg, Datum.exact]
  rw [datum_narrow_frac, roundMagnitude_exact_one f hm.le, if_pos hm]

theorem rank_floatAdd {f : NumFormat} {a b : Word} {u v : Int} (ha : IsUnits f a u) (hb : IsUnits f b v) :
    (floatAdd f a b).rank f = some (valueRank f (u + v) 1) := by
  obtain ⟨na, m, hda, rfl⟩ := ha
  obtain ⟨nb, n, hdb, rfl⟩ := hb
  unfold floatAdd
  rw [hda, hdb]
  simp only [Datum.add]
  exact rank_narrow_signed f Nat.one_pos rfl fun hx => by rw [if_neg hx]

theorem rank_floatSub {f : NumFormat} {a b : Word} {u v : Int} (ha : IsUnits f a u) (hb : IsUnits f b v) :
    (floatSub f a b).rank f = some (valueRank f (u - v) 1) := by
  obtain ⟨na, m, hda, rfl⟩ := ha
  obtain ⟨nb, n, hdb, rfl⟩ := hb
  unfold floatSub
  rw [hda, hdb]
  simp only [Datum.add, Datum.neg, signedUnits_neg]
  exact rank_narrow_signed f Nat.one_pos rfl fun hx => by
    rw [if_neg]
    · rfl
    · exact hx

theorem signedUnits_mul (a b : Bool) (m n : Nat) : signedUnits a m * signedUnits b n = signedUnits (a != b) (m * n) := by
  cases a <;> cases b <;> simp [signedUnits]

theorem signedUnits_sign {neg : Bool} {n : Nat} (h : signedUnits neg n ≠ 0) : neg = decide (signedUnits neg n < 0) := by
  cases neg
  · simp [signedUnits]
  · simp only [signedUnits, if_true] at *
    have : -(n : Int) < 0 := by omega
    exact (decide_eq_true this).symm

theorem unit_pos (f : NumFormat) : 0 < f.unit := Nat.two_pow_pos _

theorem rank_floatMul {f : NumFormat} {a b : Word} {u v : Int} (ha : IsUnits f a u) (hb : IsUnits f b v) :
    (floatMul f a b).rank f = some (valueRank f (u * v) f.unit) := by
  obtain ⟨na, m, hda, rfl⟩ := ha
  obtain ⟨nb, n, hdb, rfl⟩ := hb
  unfold floatMul
  rw [hda, hdb]
  simp only [Datum.mul]
  rw [signedUnits_mul]
  exact rank_narrow_signed f (unit_pos f) (signedUnits_natAbs _ _).symm signedUnits_sign

/-- Division by a positive finite word. -/
theorem rank_floatDiv {f : NumFormat} {a b : Word} {u : Int} {v : Nat} (ha : IsUnits f a u) (hb : IsUnits f b v) (hv : 0 < v) :
    (floatDiv f a b).rank f = some (valueRank f (u * f.unit) v) := by
  obtain ⟨na, m, hda, rfl⟩ := ha
  obtain ⟨nb, n, hdb, hvn⟩ := hb
  have hnb : nb = false ∧ n = v := by
    cases nb
    · simp only [signedUnits, Bool.false_eq_true, if_false] at hvn; exact ⟨rfl, by omega⟩
    · simp only [signedUnits, if_true] at hvn; omega
  obtain ⟨rfl, rfl⟩ := hnb
  unfold floatDiv
  rw [hda, hdb]
  simp only [Datum.div, if_neg (Nat.pos_iff_ne_zero.mp hv)]
  refine rank_narrow_signed f hv ?_ ?_
  · rw [Int.natAbs_mul, signedUnits_natAbs]; rfl
  · intro h
    have h0 : signedUnits na m ≠ 0 := fun h' => h (by rw [h', Int.zero_mul])
    have h1 := signedUnits_sign h0
    have hu : (0 : Int) < f.unit := by exact_mod_cast unit_pos f
    have h2 : signedUnits na m * (f.unit : Int) < 0 ↔ signedUnits na m < 0 :=
      ⟨fun h => by
        by_contra hn
        have := mul_nonneg (not_lt.mp hn) hu.le
        omega, fun h => mul_neg_of_neg_of_pos h hu⟩
    rw [Bool.bne_false]
    simp only [h2]
    exact h1

/-- A fraction that is a value of the format is narrowed to it. -/
theorem isUnits_narrow (f : NumFormat) {j : Nat} (hj : ∃ m, m < f.infinity ∧ magnitudeValue f m = j) {n d : Nat} (hd : 0 < d)
    (hn : n = j * d) : IsUnits f (Exact.narrow f (.frac false n d)) j := by
  obtain ⟨m, hm, rfl⟩ := hj
  refine ⟨false, magnitudeValue f m, ?_, rfl⟩
  rw [datum_narrow_frac, hn, roundMagnitude_exact f hd hm.le, if_pos hm]


/-- A power of two below the overflow threshold is a value of the format. -/
theorem exists_magnitude_pow (f : NumFormat) {j : Nat} (hj : j ≤ f.scale + f.maxExponent) :
    ∃ m, m < f.infinity ∧ magnitudeValue f m = 2 ^ j := by
  have hP : 0 < 2 ^ (f.precision - 1) := Nat.two_pow_pos _
  by_cases h : j < f.precision - 1
  · refine ⟨2 ^ j, ?_, ?_⟩
    · have h1 : 2 ^ j < 2 ^ (f.precision - 1) := Nat.pow_lt_pow_right (by decide) h
      have h2 : 2 ^ (f.precision - 1) ≤ f.infinity := by cases f <;> decide
      omega
    · have h1 : 2 ^ j < 2 ^ (f.precision - 1) := Nat.pow_lt_pow_right (by decide) h
      simp [magnitudeValue, Nat.div_eq_of_lt h1, Nat.mod_eq_of_lt h1]
  · refine ⟨(j + 2 - f.precision) * 2 ^ (f.precision - 1), ?_, ?_⟩
    · have h1 : (j + 2 - f.precision) * 2 ^ (f.precision - 1) ≤
          (f.scale + f.maxExponent + 2 - f.precision) * 2 ^ (f.precision - 1) := Nat.mul_le_mul_right _ (by omega)
      refine lt_of_le_of_lt h1 ?_
      cases f <;> decide
    · have hp : 1 ≤ f.precision := by cases f <;> decide
      unfold magnitudeValue
      simp only [Nat.mul_div_cancel _ hP, Nat.mul_mod_left]
      rw [if_neg (by omega), Nat.add_zero, ← pow_add]
      congr 1
      omega

/-- The word 1 means `unit` units. -/
theorem isUnits_one (f : NumFormat) : IsUnits f (Literal.word f ⟨1, 1⟩) f.unit := by
  obtain ⟨m, hm, hv⟩ := exists_magnitude_pow f (j := f.scale) (Nat.le_add_right _ _)
  exact isUnits_narrow f ⟨m, hm, hv⟩ Nat.one_pos (by simp [NumFormat.unit])

end Sys2Proof
end

