-- ==== Sys2Proof/Laws/Library.lean ====
section
/-! SUPPORT. What is known of `exp`, `ln`, `pow2` and `pow10` under a floating format, by rank. -/

namespace Sys2Proof

theorem le_hull (g : Nat → Nat) (n : Nat) : g n ≤ hull g n := by
  cases n with
  | zero => exact le_rfl
  | succ n =>
    unfold hull
    split
    · assumption
    · exact le_rfl

theorem hull_mono (g : Nat → Nat) : Monotone (hull g) := by
  apply monotone_nat_of_le_succ
  intro n
  rw [hull.eq_2]
  split
  · exact le_rfl
  · omega

/-- A function that never falls is its own hull: no such function is shut out. -/
theorem hull_of_monotone {g : Nat → Nat} (h : Monotone g) (n : Nat) : hull g n = g n := by
  induction n with
  | zero => rfl
  | succ n ih =>
    have hle : g n ≤ g (n + 1) := h (Nat.le_succ n)
    rw [hull.eq_2, ih]
    split <;> omega

theorem clampRank_mem {lo hi r : Nat} (h : lo ≤ hi) : lo ≤ clampRank lo hi r ∧ clampRank lo hi r ≤ hi := by
  unfold clampRank
  split
  · omega
  · split <;> omega

theorem clampRank_mono {lo hi lo' hi' r r' : Nat} (h : lo ≤ hi) (hl : lo ≤ lo') (hh : hi ≤ hi')
    (hr : r ≤ r') : clampRank lo hi r ≤ clampRank lo' hi' r' := by
  unfold clampRank
  split
  · split
    · omega
    · split <;> omega
  · split
    · split
      · omega
      · split <;> omega
    · split
      · omega
      · split <;> omega

/-- A value already in the range is not moved. -/
theorem clampRank_of_mem {lo hi r : Nat} (hl : lo ≤ r) (hh : r ≤ hi) : clampRank lo hi r = r := by
  unfold clampRank
  split
  · omega
  · split <;> omega

theorem zeroRank_lt_oneRank (f : NumFormat) : f.zeroRank < f.oneRank ∧ f.oneRank < f.topRank := by
  have h1 := (isUnits_one f).rank
  have h2 := rank_literal f ⟨1, 1⟩
  have h3 := (floatFinite_of_rank (rank_literal f ⟨1, 1⟩)).mp (isUnits_one f).finite
  refine ⟨?_, h3.2⟩
  rw [h1] at h2
  have h4 : valueRank f (f.unit : Int) 1 = f.oneRank := by
    have := Option.some.inj h2
    exact this
  have h5 := (floatLt_of_rank (rank_zero f) (rank_literal f ⟨1, 1⟩)).mp (by
    unfold floatLt
    rw [Bool.and_eq_true, (isUnits_zero f).le_iff (isUnits_one f), Bool.not_eq_true', Bool.eq_false_iff, Ne,
      (isUnits_one f).le_iff (isUnits_zero f)]
    have := unit_pos f
    omega)
  exact h5

theorem oneRank_eq (f : NumFormat) : valueRank f (f.unit : Int) 1 = f.oneRank :=
  Option.some.inj ((isUnits_one f).rank.symm.trans (rank_literal f ⟨1, 1⟩))

theorem zeroRank_pos (f : NumFormat) : 0 < f.zeroRank ∧ f.zeroRank < f.topRank := by
  have := infinity_pos f
  unfold NumFormat.zeroRank NumFormat.topRank
  omega

/-! `ln`. -/

theorem lnRank_le_topRank (f : NumFormat) (r : Nat) : lnRank f r ≤ f.topRank := by
  have hz := zeroRank_pos f
  unfold lnRank
  simp only
  split
  · omega
  · split
    · split
      · exact le_trans (clampRank_mem (by omega)).2 (by omega)
      · exact (clampRank_mem (by omega)).2
    · split
      · exact le_trans (clampRank_mem (by omega)).2 (by omega)
      · exact le_trans (clampRank_mem (by omega)).2 (by omega)

theorem rank_floatLn {f : NumFormat} {w : Word} {r : Nat} (h : w.rank f = some r) :
    (floatLn f w).rank f = some (lnRank f r) := by
  unfold floatLn
  simp only [h]
  exact rank_ofRank f (lnRank_le_topRank f r)

theorem lnRank_one (f : NumFormat) : lnRank f f.oneRank = f.zeroRank := by simp [lnRank]

theorem lnRank_mono (f : NumFormat) : Monotone (lnRank f) := by
  intro r s hrs
  have hz := zeroRank_pos f
  have hg := hull_mono (libraryRank .ln f) hrs
  unfold lnRank
  simp only
  generalize hull (libraryRank .ln f) r = x at *
  generalize hull (libraryRank .ln f) s = y at *
  have hup : ∀ t z, f.zeroRank ≤ clampRank f.zeroRank (if t < f.topRank then f.topRank - 1 else f.topRank) z := by
    intro t z
    split <;> exact (clampRank_mem (by omega)).1
  have hlow1 : ∀ z, clampRank 1 f.zeroRank z ≤ f.zeroRank := fun z => (clampRank_mem (by omega)).2
  have hlow0 : ∀ z, clampRank 0 f.zeroRank z ≤ f.zeroRank := fun z => (clampRank_mem (by omega)).2
  by_cases h1 : r = f.oneRank <;> by_cases h2 : s = f.oneRank <;> simp only [h1, h2, if_true, if_false, le_refl]
  · rw [if_pos (by omega)]; exact hup _ _
  · rw [if_neg (by omega)]; split
    · exact hlow1 _
    · exact hlow0 _
  · by_cases h3 : f.oneRank < r
    · rw [if_pos h3, if_pos (show f.oneRank < s by omega)]
      refine clampRank_mono ?_ le_rfl ?_ hg
      · split <;> omega
      · split <;> split <;> omega
    · rw [if_neg h3]
      by_cases h4 : f.oneRank < s
      · rw [if_pos h4]
        refine le_trans ?_ (hup s y)
        split
        · exact hlow1 _
        · exact hlow0 _
      · rw [if_neg h4]
        by_cases h5 : Config.eps.rank f ≤ r
        · rw [if_pos h5, if_pos (by omega)]
          exact clampRank_mono (by omega) le_rfl le_rfl hg
        · rw [if_neg h5]
          split
          · exact clampRank_mono (by omega) (by omega) le_rfl hg
          · exact clampRank_mono (by omega) le_rfl le_rfl hg

/-- At and above `EPS` the logarithm of a finite value is finite (I3 e). -/
theorem lnRank_finite (f : NumFormat) {r : Nat} (he : Config.eps.rank f ≤ r) (ht : r < f.topRank) :
    0 < lnRank f r ∧ lnRank f r < f.topRank := by
  have hz := zeroRank_pos f
  unfold lnRank
  simp only
  split
  · exact hz
  · split
    · have := clampRank_mem (lo := f.zeroRank) (hi := f.topRank - 1) (r := hull (libraryRank .ln f) r) (by omega)
      omega
    · have := clampRank_mem (lo := 1) (hi := f.zeroRank) (r := hull (libraryRank .ln f) r) (by omega)
      omega

theorem lnRank_nonpos (f : NumFormat) {r : Nat} (h : r ≤ f.oneRank) : lnRank f r ≤ f.zeroRank := by
  rw [← lnRank_one f]
  exact lnRank_mono f h

/-! `exp`. -/

theorem expRank_le_topRank (f : NumFormat) (r : Nat) : expRank f r ≤ f.topRank := by
  have hz := zeroRank_lt_oneRank f
  unfold expRank
  simp only
  split
  · omega
  · split
    · exact (clampRank_mem (by omega)).2
    · split
      · exact le_trans (clampRank_mem (by omega)).2 (by omega)
      · exact le_trans (clampRank_mem (by omega)).2 (by omega)

theorem rank_floatExp {f : NumFormat} {w : Word} {r : Nat} (h : w.rank f = some r) :
    (floatExp f w).rank f = some (expRank f r) := by
  unfold floatExp
  simp only [h]
  exact rank_ofRank f (expRank_le_topRank f r)

theorem expRank_zero (f : NumFormat) : expRank f f.zeroRank = f.oneRank := by simp [expRank]

theorem expRank_mono (f : NumFormat) : Monotone (expRank f) := by
  intro r s hrs
  have hz := zeroRank_lt_oneRank f
  have hg := hull_mono (libraryRank .exp f) hrs
  unfold expRank
  simp only
  generalize hull (libraryRank .exp f) r = x at *
  generalize hull (libraryRank .exp f) s = y at *
  have hup : ∀ z, f.oneRank ≤ clampRank f.oneRank f.topRank z := fun z => (clampRank_mem (by omega)).1
  have hlow1 : ∀ z, clampRank (f.zeroRank + 1) f.oneRank z ≤ f.oneRank := fun z => (clampRank_mem (by omega)).2
  have hlow0 : ∀ z, clampRank 0 f.oneRank z ≤ f.oneRank := fun z => (clampRank_mem (by omega)).2
  by_cases h1 : r = f.zeroRank <;> by_cases h2 : s = f.zeroRank <;> simp only [h1, h2, if_true, if_false, le_refl]
  · rw [if_pos (by omega)]; exact hup _
  · rw [if_neg (by omega)]; split
    · exact hlow1 _
    · exact hlow0 _
  · by_cases h3 : f.zeroRank < r
    · rw [if_pos h3, if_pos (by omega)]
      exact clampRank_mono (by omega) le_rfl le_rfl hg
    · rw [if_neg h3]
      by_cases h4 : f.zeroRank < s
      · rw [if_pos h4]
        refine le_trans ?_ (hup y)
        split
        · exact hlow1 _
        · exact hlow0 _
      · rw [if_neg h4]
        by_cases h5 : expDomainRank f ≤ r
        · rw [if_pos h5, if_pos (by omega)]
          exact clampRank_mono (by omega) le_rfl le_rfl hg
        · rw [if_neg h5]
          split
          · exact clampRank_mono (by omega) (by omega) le_rfl hg
          · exact clampRank_mono (by omega) le_rfl le_rfl hg

/-- On the operands of I3 (c) `exp` is above 0 and at most 1. -/
theorem expRank_range (f : NumFormat) {r : Nat} (hd : expDomainRank f ≤ r) (hz : r ≤ f.zeroRank) :
    f.zeroRank < expRank f r ∧ expRank f r ≤ f.oneRank := by
  have h1 := zeroRank_lt_oneRank f
  unfold expRank
  simp only
  split
  · omega
  · rw [if_neg (by omega)]
    have := clampRank_mem (lo := f.zeroRank + 1) (hi := f.oneRank) (r := hull (libraryRank .exp f) r) (by omega)
    omega

/-! `pow2` and `pow10`. -/

theorem rank_libraryBetween (fn : LibraryFunction) (f : NumFormat) {lo hi : Nat} (w : Word) (hl : lo ≤ hi)
    (hh : hi ≤ f.topRank) : ∃ r, (libraryBetween fn f lo hi w).rank f = some r ∧ lo ≤ r ∧ r ≤ hi := by
  have h := clampRank_mem (lo := lo) (hi := hi) (r := ((Config.library fn f w).rank f).getD 0) hl
  exact ⟨_, rank_ofRank f (le_trans h.2 hh), h⟩

theorem rank_infinity (f : NumFormat) : (f.signed false f.infinity).rank f = some f.topRank := by
  rw [rank_signed f false le_rfl]
  simp [NumFormat.topRank, two_mul]

/-- The word of a literal below the overflow threshold means the literal's units. -/
theorem isUnits_literal {f : NumFormat} {l : Literal} (h : roundMagnitude f (l.num * f.unit) l.den < f.infinity) :
    IsUnits f (l.word f) (l.units f) := by
  refine ⟨false, l.units f, ?_, rfl⟩
  unfold Literal.word Literal.units
  rw [datum_narrow_frac, if_pos h]

/-- A fraction of at least one unit does not round to 0. -/
theorem roundMagnitude_pos (f : NumFormat) {n d : Nat} (hd : 0 < d) (h : d ≤ n) : 0 < roundMagnitude f n d := by
  have h1 : magnitudeValue f 1 = 1 := by cases f <;> decide
  have h2 := roundMagnitude_exact_one f (m := 1) (infinity_pos f)
  rw [h1] at h2
  have h3 := roundMagnitude_mono f (n := 1) (d := 1) (n' := n) (d' := d) Nat.one_pos hd (by omega)
  omega

theorem rank_powerWord (f : NumFormat) (base : Nat) (k : Int) : ∃ r, (powerWord f base k).rank f = some r ∧ f.zeroRank ≤ r := by
  unfold powerWord
  split
  · exact ⟨_, rank_narrow_frac _ _ _ _, by simp [NumFormat.zeroRank]⟩
  · exact ⟨_, rank_narrow_frac _ _ _ _, by simp [NumFormat.zeroRank]⟩

/-- A power from the least unit up is above 0. -/
theorem rank_powerWord_pos {f : NumFormat} {base : Nat} {k : Int} {r : Nat} (hb : 0 < base)
    (hk : k < 0 → base ^ k.natAbs ≤ f.unit) (hr : (powerWord f base k).rank f = some r) : f.zeroRank < r := by
  have hu := unit_pos f
  have hp : 0 < base ^ k.natAbs := Nat.pow_pos hb
  unfold powerWord at hr
  split at hr <;> rw [rank_narrow_frac] at hr <;> cases hr <;>
    simp only [Bool.false_eq_true, if_false, NumFormat.zeroRank, Nat.lt_add_right_iff_pos]
  · exact roundMagnitude_pos f Nat.one_pos (Nat.mul_pos hp hu)
  · exact roundMagnitude_pos f hp (hk (by omega))

/-- A power below the overflow threshold is finite. -/
theorem rank_powerWord_finite {f : NumFormat} {base j : Nat} {k : Int} {r : Nat} (hb : 0 < base) (hj : j ≤ f.maxExponent)
    (hk : 0 ≤ k → base ^ k.natAbs ≤ 2 ^ j) (hr : (powerWord f base k).rank f = some r) : r < f.topRank := by
  have hp : 0 < base ^ k.natAbs := Nat.pow_pos hb
  obtain ⟨m, hm, hv⟩ := exists_magnitude_pow f (j := j + f.scale) (by omega)
  have hlt : ∀ n d, 0 < d → n ≤ 2 ^ (j + f.scale) * d → roundMagnitude f n d < f.infinity := fun n d hd h => by
    have h1 := roundMagnitude_mono f (n := n) (d := d) (n' := magnitudeValue f m) (d' := 1) hd Nat.one_pos
      (by rw [hv, Nat.mul_one]; exact h)
    rw [roundMagnitude_exact_one f hm.le] at h1
    omega
  unfold powerWord at hr
  split at hr <;> rw [rank_narrow_frac] at hr <;> cases hr <;>
    simp only [Bool.false_eq_true, if_false, NumFormat.topRank, two_mul, Nat.add_lt_add_iff_left]
  · refine hlt _ _ Nat.one_pos ?_
    rw [Nat.mul_one, pow_add]
    exact Nat.mul_le_mul_right _ (hk ‹_›)
  · refine hlt _ _ hp ?_
    rw [pow_add]
    exact le_trans (Nat.le_mul_of_pos_left _ (Nat.two_pow_pos j)) (Nat.le_mul_of_pos_right _ hp)

theorem leastPower_le (f : NumFormat) (l : Literal) (u : Int) :
    f.zeroRank ≤ leastPower f l u ∧ leastPower f l u ≤ f.zeroRank + 1 := by
  unfold leastPower
  split <;> omega

/-- The integer that a number of units is. -/
theorem integerOf_eq_some {f : NumFormat} {u k : Int} (h : integerOf f u = some k) : u = k * f.unit := by
  have hu : (0 : Int) < f.unit := by exact_mod_cast unit_pos f
  unfold integerOf at h
  split at h <;> cases h
  exact (Int.ediv_mul_cancel (Int.dvd_of_emod_eq_zero ‹_›)).symm

/-- Everything `pow2` can answer at a finite operand (I3 f, g; R107): infinity from its overflow threshold on, 0 from its underflow threshold
down; never NaN, never negative; above 0 from the least subnormal up, and finite below the overflow. -/
theorem floatPow2_spec {f : NumFormat} {w : Word} {u : Int} (h : IsUnits f w u) :
    (((f.maxExponent : Int) + 1) * f.unit ≤ u → floatPow2 f w = f.signed false f.infinity) ∧
    (u ≤ -(Literal.units f ⟨f.tcUnderflow, 1200⟩ : Int) → floatPow2 f w = f.signed false 0) ∧
    ∃ r, (floatPow2 f w).rank f = some r ∧ f.zeroRank ≤ r ∧
      (-(Literal.units f ⟨f.tcLeast, 1200⟩ : Int) ≤ u → f.zeroRank < r) ∧
      (u < ((f.maxExponent : Int) + 1) * f.unit → r < f.topRank) := by
  have hz := zeroRank_pos f
  have h1 := zeroRank_lt_oneRank f
  have hu : (0 : Int) < f.unit := by exact_mod_cast unit_pos f
  have hlit : Literal.units f ⟨f.tcLeast, 1200⟩ < Literal.units f ⟨f.tcUnderflow, 1200⟩ := by cases f <;> decide +kernel
  obtain ⟨neg, n, hd, rfl⟩ := h
  unfold floatPow2
  simp only [hd]
  generalize signedUnits neg n = u
  unfold pow2Finite
  by_cases ho : ((f.maxExponent : Int) + 1) * f.unit ≤ u
  · simp only [if_pos ho]
    have h0 : (0 : Int) ≤ ((f.maxExponent : Int) + 1) * f.unit := by positivity
    exact ⟨fun _ => trivial, fun h => by omega, f.topRank, rank_infinity f, by omega, fun _ => hz.2, fun h => by omega⟩
  · rw [if_neg ho]
    refine ⟨fun h => absurd h ho, fun h => if_pos h, ?_⟩
    by_cases hl : u ≤ -(Literal.units f ⟨f.tcUnderflow, 1200⟩ : Int)
    · rw [if_pos hl]
      exact ⟨_, rank_zero f, le_rfl, fun h => by omega, fun _ => hz.2⟩
    · rw [if_neg hl]
      split
      · rename_i k hk hn
        have hku := integerOf_eq_some hk
        rw [decide_eq_true_eq] at hn
        have hk1 : k ≤ f.maxExponent := by
          by_contra hc
          exact ho (by rw [hku]; exact mul_le_mul_of_nonneg_right (by omega) hu.le)
        have hk2 : -(f.minExponent : Int) ≤ k := by
          by_contra hc
          have : k * (f.unit : Int) < -(f.minExponent : Int) * f.unit := mul_lt_mul_of_pos_right (by omega) hu
          omega
        obtain ⟨r, hr, hr0⟩ := rank_powerWord f 2 k
        refine ⟨r, hr, hr0, fun _ => rank_powerWord_pos (by decide) (fun _ => ?_) hr, fun _ =>
          rank_powerWord_finite (j := f.maxExponent) (by decide) le_rfl (fun _ => ?_) hr⟩
        · have : f.minExponent ≤ f.scale := by cases f <;> decide
          exact Nat.pow_le_pow_right (by decide) (by omega)
        · exact Nat.pow_le_pow_right (by decide) (by omega)
      · obtain ⟨hl0, hl1⟩ := leastPower_le f ⟨f.tcLeast, 1200⟩ u
        obtain ⟨r, hr, hlo, hhi⟩ := rank_libraryBetween .pow2 f (lo := leastPower f ⟨f.tcLeast, 1200⟩ u)
          (hi := f.topRank - 1) w (by omega) (by omega)
        refine ⟨r, hr, by omega, fun h => ?_, fun _ => by omega⟩
        rw [leastPower, if_pos h] at hlo
        exact hlo

/-- Everything `pow10` can answer at a finite operand (I3 f, g; R107): 0 from its underflow threshold down; never NaN, never negative; above
0 from the least subnormal up. -/
theorem floatPow10_spec {f : NumFormat} {w : Word} {u : Int} (h : IsUnits f w u) :
    (u ≤ -(Literal.units f ⟨f.cbUnderflow, 200⟩ : Int) → floatPow10 f w = f.signed false 0) ∧
    ∃ r, (floatPow10 f w).rank f = some r ∧ f.zeroRank ≤ r ∧
      (-(Literal.units f ⟨f.cbLeast, 200⟩ : Int) ≤ u → f.zeroRank < r) := by
  have hz := zeroRank_pos f
  have hlit : Literal.units f ⟨f.cbLeast, 200⟩ < Literal.units f ⟨f.cbUnderflow, 200⟩ := by cases f <;> decide +kernel
  obtain ⟨neg, n, hd, rfl⟩ := h
  unfold floatPow10
  simp only [hd]
  generalize signedUnits neg n = u
  unfold pow10Finite
  refine ⟨fun h => if_pos h, ?_⟩
  by_cases hl : u ≤ -(Literal.units f ⟨f.cbUnderflow, 200⟩ : Int)
  · rw [if_pos hl]
    exact ⟨_, rank_zero f, le_rfl, fun h => by omega⟩
  · rw [if_neg hl]
    split
    · exact ⟨f.topRank, rank_infinity f, by omega, fun _ => hz.2⟩
    · split
      · rename_i k hk hn
        rw [decide_eq_true_eq, integerOf_eq_some hk, Int.natAbs_mul, Int.natAbs_natCast] at hn
        have hk10 : k.natAbs ≤ 10 := Nat.le_of_mul_le_mul_right hn (unit_pos f)
        obtain ⟨r, hr, hr0⟩ := rank_powerWord f 10 k
        refine ⟨r, hr, hr0, fun _ => rank_powerWord_pos (by decide) (fun _ => ?_) hr⟩
        have h10 : 10 ^ 10 ≤ f.unit :=
          le_trans (by decide : 10 ^ 10 ≤ 2 ^ 34) (Nat.pow_le_pow_right (by decide) (by cases f <;> decide))
        exact le_trans (Nat.pow_le_pow_right (by decide) hk10) h10
      · obtain ⟨hl0, hl1⟩ := leastPower_le f ⟨f.cbLeast, 200⟩ u
        have hg : f.topRank - 1 ≤ greatestPower f u ∧ greatestPower f u ≤ f.topRank := by
          unfold greatestPower
          split <;> omega
        have ho := zeroRank_lt_oneRank f
        obtain ⟨r, hr, hlo, -⟩ := rank_libraryBetween .pow10 f (lo := leastPower f ⟨f.cbLeast, 200⟩ u) w (by omega) hg.2
        refine ⟨r, hr, by omega, fun h => ?_⟩
        rw [leastPower, if_pos h] at hlo
        exact hlo

/-! The quotients that CONFIG hands to `pow2` and `pow10` (R100, R101). -/

/-- A finite value over a divisor of at least 1 is finite: its quotient, rounded. -/
theorem floatDiv_units {f : NumFormat} {a b : Word} {u : Int} {v : Nat} (ha : IsUnits f a u) (hb : IsUnits f b v)
    (hv : f.unit ≤ v) : ∃ x, IsUnits f (floatDiv f a b) x ∧ valueRank f x 1 = valueRank f (u * f.unit) v := by
  have hu := unit_pos f
  have hv0 : 0 < v := by omega
  have hvi : (f.unit : Int) ≤ v := by exact_mod_cast hv
  have hr := rank_floatDiv ha hb hv0
  have hneg := floatNeg_units ha
  have h1 := ha.lt_topRank
  have h2 := hneg.lt_topRank
  have hlo : min (valueRank f u 1) (valueRank f (-u) 1) ≤ valueRank f (u * f.unit) v := by
    rcases le_total 0 u with h | h
    · exact le_trans (Nat.min_le_right _ _) (valueRank_mono f Nat.one_pos hv0 (by push_cast; nlinarith))
    · exact le_trans (Nat.min_le_left _ _) (valueRank_mono f Nat.one_pos hv0 (by push_cast; nlinarith))
  have hhi : valueRank f (u * f.unit) v ≤ max (valueRank f u 1) (valueRank f (-u) 1) := by
    rcases le_total 0 u with h | h
    · exact le_trans (valueRank_mono f hv0 Nat.one_pos (by push_cast; nlinarith)) (Nat.le_max_left _ _)
    · exact le_trans (valueRank_mono f hv0 Nat.one_pos (by push_cast; nlinarith)) (Nat.le_max_right _ _)
  obtain ⟨x, hx⟩ := isUnits_of_finite ((floatFinite_of_rank hr).mpr (by omega))
  exact ⟨x, hx, Option.some.inj (hx.rank.symm.trans hr)⟩

/-- Finite values are ordered as their ranks. -/
theorem IsUnits.le_of_valueRank {f : NumFormat} {a b : Word} {u v : Int} (ha : IsUnits f a u) (hb : IsUnits f b v)
    (h : valueRank f u 1 ≤ valueRank f v 1) : u ≤ v :=
  (ha.le_iff hb).mp ((floatLe_of_rank ha.rank hb.rank).mpr h)

/-- Rounding keeps a sign's turn. -/
theorem valueRank_neg (f : NumFormat) (x : Int) {d : Nat} (hd : 0 < d) : valueRank f (-x) d = f.topRank - valueRank f x d := by
  have hm := roundMagnitude_le_infinity f x.natAbs d
  unfold valueRank NumFormat.topRank
  rw [Int.natAbs_neg]
  rcases lt_trichotomy x 0 with h | rfl | h
  · rw [if_neg (by omega), if_pos h]; omega
  · simp [roundMagnitude_zero f hd]; omega
  · rw [if_pos (by omega), if_neg (by omega)]; omega

/-- A literal's value, rounded again, is the literal's own rank. -/
theorem valueRank_literal {f : NumFormat} {n d : Nat} (hn : roundMagnitude f (n * f.unit) d < f.infinity) :
    valueRank f (Literal.units f ⟨n, d⟩ : Int) 1 = valueRank f ((n * f.unit : Nat) : Int) d := by
  have h1 := Option.some.inj ((isUnits_literal (l := ⟨n, d⟩) hn).rank.symm.trans (rank_literal f ⟨n, d⟩))
  rw [h1]
  unfold valueRank Literal.rank NumFormat.zeroRank
  rw [Int.natAbs_natCast, if_neg (by omega)]

/-- A quotient by a whole number `d`, rounded, lies on the same side of the literal `n / d` as its dividend of the whole number `n`, and
on the same side of minus the literal as its dividend of minus `n`: rounding never falls. -/
theorem floatDiv_literal {f : NumFormat} {a b : Word} {u : Int} {d : Nat} (ha : IsUnits f a u)
    (hb : IsUnits f b ((d * f.unit : Nat) : Int)) (hd : 0 < d) :
    ∃ x, IsUnits f (floatDiv f a b) x ∧ ∀ n : Nat, roundMagnitude f (n * f.unit) d < f.infinity →
      (u ≤ (n : Int) * f.unit → x ≤ Literal.units f ⟨n, d⟩) ∧
      ((n : Int) * f.unit ≤ u → (Literal.units f ⟨n, d⟩ : Int) ≤ x) ∧
      (u ≤ -((n : Int) * f.unit) → x ≤ -(Literal.units f ⟨n, d⟩ : Int)) ∧
      (-((n : Int) * f.unit) ≤ u → -(Literal.units f ⟨n, d⟩ : Int) ≤ x) := by
  have hu := unit_pos f
  obtain ⟨x, hx, hxr⟩ := floatDiv_units ha hb (Nat.le_mul_of_pos_left _ hd)
  have hdu : 0 < d * f.unit := Nat.mul_pos hd hu
  refine ⟨x, hx, fun n hn => ?_⟩
  have hl := isUnits_literal (l := ⟨n, d⟩) hn
  have hlm := floatNeg_units hl
  have hr := valueRank_literal hn
  have hrm : valueRank f (-(Literal.units f ⟨n, d⟩ : Int)) 1 = valueRank f (-((n * f.unit : Nat) : Int)) d := by
    rw [valueRank_neg f _ Nat.one_pos, valueRank_neg f _ hd, hr]
  have hle : ∀ y z : Int, y ≤ z → y * (f.unit * d) ≤ z * (f.unit * d) :=
    fun y z h => mul_le_mul_of_nonneg_right h (by positivity)
  refine ⟨fun h => hx.le_of_valueRank hl ?_, fun h => hl.le_of_valueRank hx ?_, fun h => hx.le_of_valueRank hlm ?_,
    fun h => hlm.le_of_valueRank hx ?_⟩
  · rw [hxr, hr]
    apply valueRank_mono f hdu hd
    have := hle _ _ h
    push_cast
    linarith
  · rw [hxr, hr]
    apply valueRank_mono f hd hdu
    have := hle _ _ h
    push_cast
    linarith
  · rw [hxr, hrm]
    apply valueRank_mono f hdu hd
    have := hle _ _ h
    push_cast
    linarith
  · rw [hxr, hrm]
    apply valueRank_mono f hd hdu
    have := hle _ _ h
    push_cast
    linarith

end Sys2Proof
end

