-- ==== Sys2Proof/Laws/Curves.lean ====
section
/-! SUPPORT. What the timed stages compute under a floating format: `elapsed + dt` never falls, a quotient of a timed stage is NaN only where both its
parts are infinite, and the three curves give levels. -/

namespace Sys2Proof.Machine

/-- The values of the format that are not negative, NaN shut out. -/
theorem floatLe_zero_iff {f : NumFormat} {a : Word} :
    floatLe f (f.signed false 0) a = true ↔ ∃ r, a.rank f = some r ∧ f.zeroRank ≤ r := by
  rw [floatLe_iff]
  constructor
  · rintro ⟨r, s, hr, hs, h⟩
    rw [rank_zero] at hr
    cases hr
    exact ⟨s, hs, h⟩
  · rintro ⟨r, hr, h⟩
    exact ⟨_, r, rank_zero f, hr, h⟩

/-- A value that is not negative is a whole number of units or plus infinity. -/
theorem nonneg_cases {f : NumFormat} {a : Word} (h : floatLe f (f.signed false 0) a = true) :
    (∃ u : Nat, IsUnits f a u) ∨ a.datum f = .inf false := by
  cases hd : a.datum f with
  | nan =>
    obtain ⟨r, hr, -⟩ := floatLe_zero_iff.mp h
    rw [rank_of_nan hd] at hr
    cases hr
  | inf neg =>
    cases neg
    · exact .inr rfl
    · obtain ⟨r, hr, hz⟩ := floatLe_zero_iff.mp h
      rw [rank_of_inf hd] at hr
      cases hr
      have := zeroRank_pos f
      simp at hz
      omega
  | fin neg n =>
    left
    have hu : IsUnits f a (signedUnits neg n) := ⟨neg, n, hd, rfl⟩
    have h0 := (isUnits_zero f).le_iff hu |>.mp h
    exact ⟨(signedUnits neg n).toNat, by rw [Int.toNat_of_nonneg h0]; exact hu⟩

/-- Adding a value that is not negative never lowers a value that is not negative. -/
theorem floatAdd_nonneg {f : NumFormat} {a b : Word} (ha : floatLe f (f.signed false 0) a = true)
    (hb : floatLe f (f.signed false 0) b = true) : floatLe f a (floatAdd f a b) = true := by
  rcases nonneg_cases ha with ⟨u, hu⟩ | hia
  · rcases nonneg_cases hb with ⟨v, hv⟩ | hib
    · rw [floatLe_of_rank hu.rank (rank_floatAdd hu hv)]
      exact valueRank_mono f Nat.one_pos Nat.one_pos (by omega)
    · obtain ⟨neg, n, hd, -⟩ := hu
      unfold floatLe floatAdd
      rw [hd, hib]
      simp only [Datum.add]
      rw [datum_narrow_inf]
      rfl
  · unfold floatLe floatAdd
    rw [hia]
    rcases nonneg_cases hb with ⟨v, neg, n, hd, -⟩ | hib
    · rw [hd]
      simp only [Datum.add]
      rw [datum_narrow_inf]
      rfl
    · rw [hib]
      simp only [Datum.add, if_true]
      rw [datum_narrow_inf]
      rfl

theorem floatLe_trans {f : NumFormat} {a b c : Word} (h : floatLe f a b = true) (h' : floatLe f b c = true) :
    floatLe f a c = true := by
  obtain ⟨r, s, hr, hs, hrs⟩ := floatLe_iff.mp h
  obtain ⟨s', t, hs', ht, hst⟩ := floatLe_iff.mp h'
  rw [hs] at hs'
  cases hs'
  exact floatLe_iff.mpr ⟨r, t, hr, ht, by omega⟩

/-- A sample rate that CREATE accepts is a positive number of units. -/
theorem goodRate_units {f : NumFormat} {sr : Word} (h : (floatArith f).goodRate sr = true) :
    ∃ v : Nat, 0 < v ∧ IsUnits f sr v := by
  simp only [Arith.goodRate, Bool.and_eq_true] at h
  obtain ⟨u, hu⟩ := isUnits_of_finite h.1
  have hp : floatLt f (f.signed false 0) sr = true := h.2
  unfold floatLt at hp
  rw [Bool.and_eq_true, (isUnits_zero f).le_iff hu, Bool.not_eq_true', Bool.eq_false_iff, Ne, hu.le_iff (isUnits_zero f)] at hp
  exact ⟨u.toNat, by omega, by rw [Int.toNat_of_nonneg hp.1]; exact hu⟩

/-- `dt` is not negative (R25). -/
theorem dt_nonneg {f : NumFormat} {sr : Word} (h : (floatArith f).goodRate sr = true) :
    floatLe f (f.signed false 0) (floatDiv f (Literal.word f ⟨1, 1⟩) sr) = true := by
  obtain ⟨v, hv, hu⟩ := goodRate_units h
  rw [floatLe_zero_iff]
  exact ⟨_, rank_floatDiv (isUnits_one f) hu hv, valueRank_nonneg f hv (by positivity)⟩

/-- A timed stage's quotient is NaN exactly where both its parts are infinite; elsewhere it is not negative, and it is at least 1
where the duration is reached. -/
theorem quotient_cases {f : NumFormat} {e d : Word} (he : floatLe f (f.signed false 0) e = true)
    (hd : floatLe f (f.signed false 0) d = true) (hpos : floatLe f d (f.signed false 0) = false) :
    (floatNaN f (floatDiv f e d) = true ∧ e.datum f = .inf false ∧ d.datum f = .inf false) ∨
    ∃ r, (floatDiv f e d).rank f = some r ∧ f.zeroRank ≤ r ∧ (floatLe f d e = true → f.oneRank ≤ r) := by
  rcases nonneg_cases hd with ⟨v, hv⟩ | hdi
  · have hv0 : 0 < v := by
      rw [Bool.eq_false_iff, Ne, hv.le_iff (isUnits_zero f)] at hpos
      omega
    rcases nonneg_cases he with ⟨u, hu⟩ | hei
    · refine .inr ⟨_, rank_floatDiv hu hv hv0, valueRank_nonneg f hv0 (by positivity), fun hle => ?_⟩
      rw [hv.le_iff hu] at hle
      rw [← oneRank_eq f]
      apply valueRank_mono f Nat.one_pos hv0
      rw [Nat.cast_one, mul_one, mul_comm]
      exact mul_le_mul_of_nonneg_right hle (by positivity)
    · obtain ⟨neg, n, hdd, hun⟩ := hv
      have hneg : neg = false := by
        cases neg
        · rfl
        · simp only [signedUnits, if_true] at hun; omega
      subst hneg
      right
      refine ⟨f.topRank, ?_, (zeroRank_pos f).2.le, fun _ => (zeroRank_lt_oneRank f).2.le⟩
      unfold floatDiv
      rw [hei, hdd]
      simp only [Datum.div]
      rw [rank_narrow_inf]
      rfl
  · rcases nonneg_cases he with ⟨u, neg, n, hdd, -⟩ | hei
    · right
      refine ⟨f.zeroRank, ?_, le_rfl, fun hle => ?_⟩
      · unfold floatDiv
        rw [hdi, hdd]
        simp only [Datum.div]
        rw [rank_narrow_frac, roundMagnitude_zero f Nat.one_pos]
        cases neg <;> rfl
      · unfold floatLe at hle
        rw [hdi, hdd] at hle
        cases neg <;> cases hle
    · left
      refine ⟨?_, hei, hdi⟩
      unfold floatDiv
      rw [hdi, hei]
      simp only [Datum.div]
      unfold floatNaN
      rw [datum_narrow_nan]
      rfl

/-- `min` and `max` of a floating format, by rank. -/
theorem rank_min {f : NumFormat} {a b : Word} {r s : Nat} (ha : a.rank f = some r) (hb : b.rank f = some s) :
    ((floatArith f).min a b).rank f = some (Nat.min r s) := by
  unfold Arith.min
  change (if floatLe f a b = true then a else b).rank f = _
  by_cases h : r ≤ s
  · rw [if_pos ((floatLe_of_rank ha hb).mpr h), ha]
    exact congrArg some (Nat.min_eq_left h).symm
  · rw [if_neg (fun hc => h ((floatLe_of_rank ha hb).mp hc)), hb]
    exact congrArg some (Nat.min_eq_right (by omega)).symm

theorem rank_max {f : NumFormat} {a b : Word} {r s : Nat} (ha : a.rank f = some r) (hb : b.rank f = some s) :
    ((floatArith f).max a b).rank f = some (Nat.max r s) := by
  unfold Arith.max
  change (if floatLe f a b = true then b else a).rank f = _
  by_cases h : r ≤ s
  · rw [if_pos ((floatLe_of_rank ha hb).mpr h), hb]
    exact congrArg some (Nat.max_eq_right h).symm
  · rw [if_neg (fun hc => h ((floatLe_of_rank ha hb).mp hc)), ha]
    exact congrArg some (Nat.max_eq_left (by omega)).symm

/-- A level, by rank. -/
theorem level_iff {f : NumFormat} {w : Word} :
    (floatArith f).Level w ↔ ∃ r, w.rank f = some r ∧ f.zeroRank ≤ r ∧ r ≤ f.oneRank := by
  have h1 : w.rank f = none → ¬ (floatArith f).Level w := by
    rintro hn ⟨-, h, -⟩
    obtain ⟨r, hr, -⟩ := floatLe_zero_iff.mp h
    rw [hn] at hr; cases hr
  constructor
  · rintro ⟨hf, h0, h1⟩
    obtain ⟨r, hr, hz⟩ := floatLe_zero_iff.mp h0
    exact ⟨r, hr, hz, (floatLe_of_rank hr (rank_literal f ⟨1, 1⟩)).mp h1⟩
  · rintro ⟨r, hr, hz, ho⟩
    have hz' := zeroRank_pos f
    have ho' := zeroRank_lt_oneRank f
    exact ⟨(floatFinite_of_rank hr).mpr (by omega), floatLe_zero_iff.mpr ⟨r, hr, hz⟩,
      (floatLe_of_rank hr (rank_literal f ⟨1, 1⟩)).mpr ho⟩

/-- A level as a number of units. -/
theorem level_units {f : NumFormat} {w : Word} (h : (floatArith f).Level w) :
    ∃ u : Int, IsUnits f w u ∧ 0 ≤ u ∧ u ≤ f.unit := by
  obtain ⟨u, hu⟩ := isUnits_of_finite h.1
  exact ⟨u, hu, ((isUnits_zero f).le_iff hu).mp h.2.1, (hu.le_iff (isUnits_one f)).mp h.2.2⟩

theorem level_zero (f : NumFormat) : (floatArith f).Level (floatArith f).zero :=
  level_iff.mpr ⟨_, rank_zero f, le_rfl, (zeroRank_lt_oneRank f).1.le⟩

theorem level_one (f : NumFormat) : (floatArith f).Level (floatArith f).one :=
  level_iff.mpr ⟨_, rank_literal f ⟨1, 1⟩, (zeroRank_lt_oneRank f).1.le, le_rfl⟩

theorem level_peak (f : NumFormat) : (floatArith f).Level (floatArith f).peak := level_one f

/-- The values of two finite words are ordered as their ranks. -/
theorem units_le {f : NumFormat} {a b : Word} {u v : Int} {r s : Nat} (ha : IsUnits f a u) (hb : IsUnits f b v)
    (hr : a.rank f = some r) (hs : b.rank f = some s) (h : r ≤ s) : u ≤ v :=
  (ha.le_iff hb).mp ((floatLe_of_rank hr hs).mpr h)

theorem units_of_rank {f : NumFormat} {a : Word} {r : Nat} (hr : a.rank f = some r) (h0 : 0 < r) (h1 : r < f.topRank) :
    ∃ u, IsUnits f a u := isUnits_of_finite ((floatFinite_of_rank hr).mpr ⟨h0, h1⟩)

/-- A product with a fraction stays between 0 and the other factor. -/
theorem rank_mul_fraction {f : NumFormat} {p x : Word} {u v : Int} (hp : IsUnits f p u) (hx : IsUnits f x v) (hu : u ≤ 0)
    (h0 : 0 ≤ v) (h1 : v ≤ f.unit) :
    ∃ r, (floatMul f p x).rank f = some r ∧ valueRank f u 1 ≤ r ∧ r ≤ f.zeroRank := by
  refine ⟨_, rank_floatMul hp hx, ?_, ?_⟩
  · apply valueRank_mono f Nat.one_pos (unit_pos f)
    rw [Nat.cast_one, mul_one]
    nlinarith
  · exact valueRank_nonpos f (unit_pos f) (mul_nonpos_of_nonpos_of_nonneg hu h0)

/-- Where `exp` is bounded: from `-ATTACK_RATE` up, and from one place below `ln(EPS)` up. -/
theorem expDomain_le (f : NumFormat) :
    (∀ r, (floatNeg f (Config.attackRate.word f)).rank f = some r → expDomainRank f ≤ r) ∧
    ∀ r, (floatLn f (Config.eps.word f)).rank f = some r → expDomainRank f ≤ r - 1 := by
  unfold expDomainRank
  simp only
  constructor
  · intro r hr
    rw [hr]
    exact Nat.min_le_left _ _
  · intro r hr
    rw [hr]
    exact le_trans (Nat.min_le_right _ _) (Nat.min_le_right _ _)

/-- `ATTACK_RATE` is a finite value that is not negative. -/
theorem attackRate_units (f : NumFormat) : ∃ u : Int, IsUnits f (Config.attackRate.word f) u ∧ 0 ≤ u := by
  have h : floatFinite f (Config.attackRate.word f) = true ∧ floatLe f (f.signed false 0) (Config.attackRate.word f) = true := by
    cases f <;> decide +kernel
  obtain ⟨u, hu⟩ := isUnits_of_finite h.1
  exact ⟨u, hu, ((isUnits_zero f).le_iff hu).mp h.2⟩

/-- A sum of a value `u` and a value not below the rounded difference `w - u`, with `e ≤ w ≤ u ≤ 0`, lies at most one place below `e`. -/
theorem valueRank_add_ge {f : NumFormat} {e u w d p : Int} {a b : Word} (he : IsUnits f a e) (hd : IsUnits f b d)
    (hdr : b.rank f = some (valueRank f (w - u) 1)) (hew : e ≤ w) (hwu : w ≤ u) (hu0 : u ≤ 0) (hdp : d ≤ p) :
    valueRank f e 1 - 1 ≤ valueRank f (u + p) 1 := by
  obtain ⟨en, n, hen, rfl⟩ := he
  obtain ⟨k, hk, rfl⟩ := datum_eq_fin hen
  have hek : (magnitudeValue f k : Int) = -signedUnits en (magnitudeValue f k) := by
    cases en
    · simp only [signedUnits, Bool.false_eq_true, if_false] at *; omega
    · simp [signedUnits]
  generalize signedUnits en (magnitudeValue f k) = e at *
  have hround := magnitudeValue_round_le f (c := (u - w).toNat) (k := k) (by omega)
  have hdv : -d ≤ (magnitudeValue f (roundMagnitude f (u - w).toNat 1) : Int) := by
    obtain ⟨dn, m, hdm, rfl⟩ := hd
    obtain ⟨j, hj, rfl⟩ := datum_eq_fin hdm
    rw [rank_of_fin hdm hj] at hdr
    have hr := roundMagnitude_le_infinity f (u - w).toNat 1
    have hv : valueRank f (w - u) 1 = f.infinity - roundMagnitude f (u - w).toNat 1 := by
      unfold valueRank
      have hn : (w - u).natAbs = (u - w).toNat := by omega
      rw [hn]
      split
      · rfl
      · rw [show (u - w).toNat = 0 by omega, roundMagnitude_zero f Nat.one_pos]; omega
    rw [hv] at hdr
    cases dn
    · simp [signedUnits]
    · simp only [if_true, Option.some.injEq] at hdr
      have : j = roundMagnitude f (u - w).toNat 1 := by omega
      simp [signedUnits, this]
  have hlow : valueRank f (-(magnitudeValue f (k + 1) : Int)) 1 ≤ valueRank f (u + p) 1 :=
    valueRank_mono f Nat.one_pos Nat.one_pos (by omega)
  refine le_trans ?_ hlow
  have h0 := magnitudeValue_lt_succ f k
  have h1 : valueRank f (-(magnitudeValue f (k + 1) : Int)) 1 = f.infinity - (k + 1) := by
    unfold valueRank
    rw [if_pos (by omega), Int.natAbs_neg, Int.natAbs_natCast, roundMagnitude_exact_one f (by omega)]
  have h2 : valueRank f e 1 ≤ f.infinity - k := by
    have := roundMagnitude_exact_one f (m := k) hk.le
    rw [show e = -(magnitudeValue f k : Int) by omega]
    unfold valueRank
    rw [Int.natAbs_neg, Int.natAbs_natCast, this]
    split
    · exact le_rfl
    · have : k = 0 := (magnitudeValue_eq_zero f).mp (by omega)
      omega
  omega

/-- The Attack curve at a fraction is a level (R133, R141). -/
theorem attackLevel_level {f : NumFormat} {x : Word} (hx : (floatArith f).Level x) :
    (floatArith f).Level ((floatArith f).attackLevel x) := by
  obtain ⟨v, hv, h0, h1⟩ := level_units hx
  obtain ⟨u, hu, hu0⟩ := attackRate_units f
  obtain ⟨r, hr, hlo, hhi⟩ := rank_mul_fraction (floatNeg_units hu) hv (by omega) h0 h1
  have hdom : expDomainRank f ≤ r := le_trans ((expDomain_le f).1 _ (floatNeg_units hu).rank) hlo
  have he := rank_floatExp hr
  obtain ⟨he0, he1⟩ := expRank_range f hdom hhi
  have hz := zeroRank_pos f
  have ho := zeroRank_lt_oneRank f
  obtain ⟨t, ht⟩ := units_of_rank he (by omega) (by omega)
  have ht1 : t ≤ f.unit := units_le ht (isUnits_one f) he (rank_literal f ⟨1, 1⟩) he1
  have ht0 : 0 ≤ t := units_le (isUnits_zero f) ht (rank_zero f) he he0.le
  have hs := rank_floatSub (isUnits_one f) ht
  have hs0 := valueRank_nonneg f (x := (f.unit : Int) - t) Nat.one_pos (by omega)
  have hs1 : valueRank f ((f.unit : Int) - t) 1 ≤ f.oneRank := by
    rw [← oneRank_eq f]
    exact valueRank_mono f Nat.one_pos Nat.one_pos (by omega)
  obtain ⟨y, hy⟩ := units_of_rank hs (by omega) (by omega)
  have hy1 : y ≤ f.unit := units_le hy (isUnits_one f) hs (rank_literal f ⟨1, 1⟩) hs1
  have hy0 : 0 ≤ y := units_le (isUnits_zero f) hy (rank_zero f) hs hs0
  have hm := rank_floatMul (isUnits_one f) hy
  refine level_iff.mpr ⟨_, hm, valueRank_nonneg f (unit_pos f) (by positivity), ?_⟩
  rw [← oneRank_eq f]
  apply valueRank_mono f (unit_pos f) Nat.one_pos
  rw [Nat.cast_one, mul_one]
  exact mul_le_mul_of_nonneg_left hy1 (by positivity)

/-- The floored logarithm of a level lies between `ln(EPS)` and 0 and is finite. -/
theorem lnFloor_units {f : NumFormat} {a : Word} (ha : (floatArith f).Level a) :
    ∃ u e : Int, IsUnits f (floatLn f ((floatArith f).max a (Config.eps.word f))) u ∧
      IsUnits f (floatLn f (Config.eps.word f)) e ∧ e ≤ u ∧ u ≤ 0 := by
  obtain ⟨r, hr, hz, ho⟩ := level_iff.mp ha
  have heps := rank_literal f Config.eps
  have heo : Config.eps.rank f ≤ f.oneRank := by
    have : floatLe f (Config.eps.word f) (Literal.word f ⟨1, 1⟩) = true := by cases f <;> decide +kernel
    exact (floatLe_of_rank heps (rank_literal f ⟨1, 1⟩)).mp this
  have hz' := zeroRank_pos f
  have ho' := zeroRank_lt_oneRank f
  have hm := rank_max hr heps
  have hm1 : Config.eps.rank f ≤ Nat.max r (Config.eps.rank f) := Nat.le_max_right _ _
  have hm2 : Nat.max r (Config.eps.rank f) ≤ f.oneRank := Nat.max_le.mpr ⟨ho, heo⟩
  have hl := rank_floatLn hm
  have hle := rank_floatLn heps
  have hf := lnRank_finite f hm1 (by omega)
  have hfe := lnRank_finite f (le_refl (Config.eps.rank f)) (by omega)
  obtain ⟨u, hu⟩ := units_of_rank hl hf.1 hf.2
  obtain ⟨e, he⟩ := units_of_rank hle hfe.1 hfe.2
  exact ⟨u, e, hu, he, units_le he hu hle hl (lnRank_mono f hm1),
    units_le hu (isUnits_zero f) hl (rank_zero f) (lnRank_nonpos f hm2)⟩

/-- A word whose rank lies between those of two finite words is finite. -/
theorem units_between {f : NumFormat} {w : Word} {r : Nat} {u : Int} (hr : w.rank f = some r) {a : Word} (ha : IsUnits f a u)
    (hlo : valueRank f u 1 ≤ r) (hhi : r ≤ f.zeroRank) : ∃ v, IsUnits f w v ∧ u ≤ v ∧ v ≤ 0 := by
  have h := ha.lt_topRank
  have hz := zeroRank_pos f
  obtain ⟨v, hv⟩ := units_of_rank hr (by omega) (by omega)
  exact ⟨v, hv, units_le ha hv ha.rank hr hlo, units_le hv (isUnits_zero f) hr (rank_zero f) hhi⟩

/-- The exponential of `lerp_log` between two levels, at a fraction, is a level (R14, R135, R137) in the two uses of the machine: the
first end's floored logarithm is 0, or the second end is `EPS`. -/
theorem exp_lerpLog_level {f : NumFormat} {a b x : Word} (ha : (floatArith f).Level a) (hb : (floatArith f).Level b)
    (hx : (floatArith f).Level x)
    (hend : floatLn f ((floatArith f).max a (Config.eps.word f)) = f.signed false 0 ∨ b = Config.eps.word f) :
    (floatArith f).Level ((floatArith f).exp ((floatArith f).lerpLog a b x)) := by
  obtain ⟨u, e, hu, he, heu, hu0⟩ := lnFloor_units ha
  obtain ⟨w, e', hw, he', hew, hw0⟩ := lnFloor_units hb
  have hee : e' = e := le_antisymm ((he'.le_iff he).mp ((floatLe_of_rank he'.rank he'.rank).mpr le_rfl))
    ((he.le_iff he').mp ((floatLe_of_rank he'.rank he'.rank).mpr le_rfl))
  subst hee
  obtain ⟨v, hv, hv0, hv1⟩ := level_units hx
  have hwu : w ≤ u := by
    rcases hend with h | h
    · rw [h] at hu
      have := ((isUnits_zero f).le_iff hu).mp ((floatLe_of_rank hu.rank hu.rank).mpr le_rfl)
      omega
    · subst h
      have hrefl : (floatArith f).max (Config.eps.word f) (Config.eps.word f) = Config.eps.word f := by
        unfold Arith.max; split <;> rfl
      rw [hrefl] at hw
      have := (hw.le_iff he).mp ((floatLe_of_rank he.rank he.rank).mpr le_rfl)
      omega
  have hd := rank_floatSub hw hu
  obtain ⟨d, hdu, hde, hd0⟩ : ∃ d, IsUnits f (floatSub f (floatLn f ((floatArith f).max b (Config.eps.word f)))
      (floatLn f ((floatArith f).max a (Config.eps.word f)))) d ∧ e' ≤ d ∧ d ≤ 0 := by
    refine units_between hd he ?_ (valueRank_nonpos f Nat.one_pos (by omega))
    exact valueRank_mono f Nat.one_pos Nat.one_pos (by omega)
  obtain ⟨r, hr, hlo, hhi⟩ := rank_mul_fraction hdu hv hd0 hv0 hv1
  obtain ⟨p, hp, hpe, hp0⟩ := units_between hr hdu hlo hhi
  have hs := rank_floatAdd hu hp
  have hdom : expDomainRank f ≤ valueRank f (u + p) 1 :=
    le_trans ((expDomain_le f).2 _ he.rank) (valueRank_add_ge he hdu hd hew hwu hu0 hpe)
  have hneg : valueRank f (u + p) 1 ≤ f.zeroRank := valueRank_nonpos f Nat.one_pos (by omega)
  have hE := expRank_range f hdom hneg
  exact level_iff.mpr ⟨_, rank_floatExp hs, hE.1.le, hE.2⟩

/-- The Decay curve at a fraction is a level (R135, R140). -/
theorem decayLevel_level {f : NumFormat} {s x : Word} (hs : (floatArith f).Level s) (hx : (floatArith f).Level x) :
    (floatArith f).Level ((floatArith f).decayLevel s x) := by
  refine exp_lerpLog_level (level_peak f) hs hx (.inl ?_)
  have hp : (floatArith f).max (floatArith f).peak (Config.eps.word f) = Literal.word f ⟨1, 1⟩ := by
    cases f <;> decide +kernel
  rw [hp]
  unfold floatLn
  simp only [rank_literal f ⟨1, 1⟩]
  have : lnRank f (Literal.rank f ⟨1, 1⟩) = f.zeroRank := lnRank_one f
  rw [this]
  unfold NumFormat.ofRank NumFormat.zeroRank
  simp

/-- `EPS` is a level. -/
theorem level_eps (f : NumFormat) : (floatArith f).Level (Config.eps.word f) := by
  have h : floatFinite f (Config.eps.word f) = true ∧ floatLe f (f.signed false 0) (Config.eps.word f) = true ∧
      floatLe f (Config.eps.word f) (Literal.word f ⟨1, 1⟩) = true := by cases f <;> decide +kernel
  exact h

/-- The Release curve at a fraction is a level (R137, R139). -/
theorem releaseLevel_level {f : NumFormat} {s x : Word} (hs : (floatArith f).Level s) (hx : (floatArith f).Level x) :
    (floatArith f).Level ((floatArith f).releaseLevel s x) :=
  exp_lerpLog_level hs (level_eps f) hx (.inr rfl)

/-- The fraction of a timed stage lies between 0 and 1. -/
theorem fraction_level {f : NumFormat} {e d x : Word} (he : floatLe f (f.signed false 0) e = true)
    (hd : floatLe f (f.signed false 0) d = true) (hpos : floatLe f d (f.signed false 0) = false)
    (hx : (floatArith f).fraction e d = some x) :
    (floatArith f).Level x ∧ (floatLe f d e = true → (floatArith f).complete x = true) := by
  unfold Arith.fraction at hx
  simp only at hx
  split at hx
  · cases hx
  · cases hx
    rename_i hn
    rcases quotient_cases he hd hpos with ⟨h, -⟩ | ⟨r, hr, hz, h1⟩
    · exact absurd h hn
    · have ho := zeroRank_lt_oneRank f
      have hm := rank_min (rank_literal f ⟨1, 1⟩) hr
      refine ⟨level_iff.mpr ⟨_, hm, Nat.le_min.mpr ⟨ho.1.le, hz⟩, Nat.min_le_left _ _⟩, fun hde => ?_⟩
      exact (floatLe_of_rank (rank_literal f ⟨1, 1⟩) hm).mpr (Nat.le_min.mpr ⟨le_rfl, h1 hde⟩)

end Sys2Proof.Machine
end

