-- ==== Sys2Proof/Laws/Decode.lean ====
section
/-! SUPPORT. What the decoder answers, header by header. -/

namespace Sys2Proof

/-- The header of an opcode decodes to it (R67, R73). -/
theorem decodeHeader_encodeHeader (op : Opcode) : decodeHeader (encodeHeader op) = some op := by
  cases op <;> decide

/-- A header with a reserved bit set decodes to nothing (R68). -/
theorem decodeHeader_of_rsv {h : BitVec 32} (hr : headerRsv h ≠ 0#29) : decodeHeader h = none := by
  simp [decodeHeader, hr]

/-- A legal header takes as many operand words as its opcode says (R70). -/
theorem decode_header {f : NumFormat} {h : BitVec 32} {op : Opcode} {after : List Word} (hh : decodeHeader h = some op) :
    decode f (.w32 h :: after) = decodeOperands f op after := by
  simp [decode, hh]

/-- An illegal header is one word long (R73, R74). -/
theorem decode_illegal {f : NumFormat} {h : BitVec 32} {after : List Word} (hh : decodeHeader h = none) :
    decode f (.w32 h :: after) = .illegal after := by
  simp [decode, hh]

end Sys2Proof
end

