-- ==== Sys2Proof/Laws/PerInstr.lean ====
section
/-! SUPPORT. Statements about every instruction as syntax, one lemma for each constructor. -/

namespace Sys2Proof.Laws.HeaderOfInstr

/-- The header of a command decodes to its opcode, its operand words are as many as the opcode takes, and they make the
command again (R67, R70, R73). -/
def Statement (i : Instr) : Prop :=
  decodeHeader (encodeHeader i.opcode) = some i.opcode ∧ i.operands.length = operandCount i.opcode ∧
    instrOf i.opcode i.operands = some i

theorem create (sr : Word) : Statement (.create sr) := ⟨decodeHeader_encodeHeader _, rfl, rfl⟩
theorem destroy : Statement .destroy := ⟨decodeHeader_encodeHeader _, rfl, rfl⟩
theorem config (d a h dc s r : Word) : Statement (.config d a h dc s r) := ⟨decodeHeader_encodeHeader _, rfl, rfl⟩
theorem noteOn : Statement .noteOn := ⟨decodeHeader_encodeHeader _, rfl, rfl⟩
theorem noteOff : Statement .noteOff := ⟨decodeHeader_encodeHeader _, rfl, rfl⟩
theorem next : Statement .next := ⟨decodeHeader_encodeHeader _, rfl, rfl⟩

end Sys2Proof.Laws.HeaderOfInstr
end

