-- ==== Sys2Proof/Laws/Reference.lean ====
section
/-! SUPPORT. The `real` reference in the terms of the real numbers: its literals, its order, its fraction and its curves. -/

namespace Sys2Proof.Machine

@[simp] theorem realArith_zero : realArith.zero = 0 := rfl
@[simp] theorem realArith_one : realArith.one = 1 := rfl
@[simp] theorem realArith_peak : realArith.peak = 1 := by simp [realArith, Literal.real, Config.peak]
@[simp] theorem realArith_eps : realArith.eps = 1 / 100000 := by simp [realArith, Literal.real, Config.eps]
@[simp] theorem realArith_releaseFloor : realArith.releaseFloor = 6 / 100 := by
  simp [realArith, Literal.real, Config.releaseFloor]
@[simp] theorem realArith_attackRate : realArith.attackRate = 6 := by simp [realArith, Literal.real, Config.attackRate]
@[simp] theorem realArith_tcPerOctave : realArith.tcPerOctave = 1200 := by
  simp [realArith, Literal.real, Config.tcPerOctave]
@[simp] theorem realArith_cbPerDecade : realArith.cbPerDecade = 200 := by
  simp [realArith, Literal.real, Config.cbPerDecade]

@[simp] theorem realArith_le (a b : ℝ) : realArith.le a b = decide (a ≤ b) := rfl
@[simp] theorem realArith_lt (a b : ℝ) : realArith.lt a b = decide (a < b) := rfl
@[simp] theorem realArith_add (a b : ℝ) : realArith.add a b = a + b := rfl
@[simp] theorem realArith_sub (a b : ℝ) : realArith.sub a b = a - b := rfl
@[simp] theorem realArith_mul (a b : ℝ) : realArith.mul a b = a * b := rfl
@[simp] theorem realArith_div (a b : ℝ) : realArith.div a b = a / b := rfl
@[simp] theorem realArith_neg (a : ℝ) : realArith.neg a = -a := rfl
@[simp] theorem realArith_isNaN (a : ℝ) : realArith.isNaN a = false := rfl
@[simp] theorem realArith_finite (a : ℝ) : realArith.finite a = true := rfl
@[simp] theorem realArith_exp (a : ℝ) : realArith.exp a = Real.exp a := rfl
@[simp] theorem realArith_ln (a : ℝ) : realArith.ln a = Real.log a := rfl
@[simp] theorem realArith_pow2 (a : ℝ) : realArith.pow2 a = (2 : ℝ) ^ a := rfl
@[simp] theorem realArith_pow10 (a : ℝ) : realArith.pow10 a = (10 : ℝ) ^ a := rfl

@[simp] theorem realArith_min (a b : ℝ) : realArith.min a b = min a b := by
  simp only [Arith.min, realArith_le, decide_eq_true_eq]
  rw [min_def]

@[simp] theorem realArith_max (a b : ℝ) : realArith.max a b = max a b := by
  simp only [Arith.max, realArith_le, decide_eq_true_eq]
  rw [max_def]

/-- Under `real` the fraction of a timed stage always has a value. -/
theorem realArith_fraction (e d : ℝ) : realArith.fraction e d = some (min 1 (e / d)) := by
  simp [Arith.fraction]

theorem realArith_lerpLog (a b x : ℝ) :
    realArith.lerpLog a b x = Real.log (max a (1 / 100000)) +
      (Real.log (max b (1 / 100000)) - Real.log (max a (1 / 100000))) * x := by
  simp [Arith.lerpLog]

theorem realArith_attackLevel (x : ℝ) : realArith.attackLevel x = 1 - Real.exp (-6 * x) := by
  simp [Arith.attackLevel]

theorem Voice.advanced_real (v : Voice ℝ) : v.advanced realArith = v.elapsed + 1 / v.sampleRate := by
  simp [Voice.advanced, Voice.dt]

end Sys2Proof.Machine
end

