-- ==== Sys2Proof/Tests/Slice0.lean ====
section
/-! SUPPORT. The model's own tests: well-formedness, decoding of words written out from the spec, steps from the spec's test vectors (95_test_vectors),
and for every statement with hypotheses a state and operands that meet them. -/

namespace Sys2Proof.Tests

open Sys2Proof.Machine

/-! Words of binary32 (R78, 95_test_vectors part 2). -/

def w0 : Word := .w32 0x00000000#32
def w1 : Word := .w32 0x3F800000#32
def w8 : Word := .w32 0x41000000#32
def wEighth : Word := .w32 0x3E000000#32
def wQuarter : Word := .w32 0x3E800000#32
def wThreeEighths : Word := .w32 0x3EC00000#32
def wHalf : Word := .w32 0x3F000000#32
def wTenth : Word := .w32 0x3DCCCCCD#32
def wInf : Word := .w32 0x7F800000#32
def wNaN : Word := .w32 0x7FC00000#32
def wMinusZero : Word := .w32 0x80000000#32
def wMinus3600 : Word := .w32 0xC5610000#32
def wMinus2400 : Word := .w32 0xC5160000#32
def wMinus1200 : Word := .w32 0xC4960000#32
def w200 : Word := .w32 0x43480000#32
def wideOne : Word := .w64 0x3FF0000000000000#64

/-- The configuration `CFG` of 95_test_vectors part 0. -/
def cfg : Settings Word := ⟨wEighth, wQuarter, wEighth, wHalf, wTenth, wQuarter⟩

/-- The registers of an envelope created with `CREATE 8`, configured with `CFG`, in a stage at an `elapsed`. -/
def voice (s : Stage) (e : Word) : Voice Word := ⟨w8, .configured s cfg, e, w0, w0⟩

/-- The same envelope with another configuration. -/
def voiceWith (c : Settings Word) (s : Stage) (e : Word) : Voice Word := ⟨w8, .configured s c, e, w0, w0⟩

/-- The registers after `CREATE 8`. -/
def fresh : Voice Word := ⟨w8, .unconfigured, w0, w0, w0⟩

/-- A machine in a life. -/
def machine (l : Life Word) : State where
  life := l
  fault := ⟨if l.isFaulted then .unconfigured else .none, 1⟩
  cmdIndex := 5
  responses := []
  num := .binary32
  channel := []

/-- A Live machine with registers. -/
def live (v : Voice Word) : State := machine (.live v)

/-- The command CONFIG with `CFG`'s operands. -/
def configCfg : Instr := .config wMinus3600 wMinus2400 wMinus3600 wMinus1200 w200 wMinus2400

/-- The next state, where there is one. -/
def after (o : Host.Outcome State Fault Refusal) : Option State :=
  match o with
  | .next t => some t
  | .fault _ => none
  | .refused _ => none

/-- The refusal, where it is one. -/
def refusal (o : Host.Outcome State Fault Refusal) : Option Refusal :=
  match o with
  | .next _ => none
  | .fault _ => none
  | .refused r => some r

/-- The stage after, where the envelope is Live. -/
def stageAfter (o : Host.Outcome State Fault Refusal) : Option Stage :=
  (after o).bind fun t =>
    match t.life with
    | .uncreated => none
    | .live w => some w.stage
    | .destroyed => none
    | .faulted _ => none

theorem next_of_after {o : Host.Outcome State Fault Refusal} {t : State} (h : after o = some t) : o = .next t := by
  cases o <;> simp [after] at h
  rw [h]

theorem next_exists {o : Host.Outcome State Fault Refusal} (h : (after o).isSome = true) : ∃ t, o = .next t := by
  cases o <;> simp [after] at h
  exact ⟨_, rfl⟩

/-- A stage after means a next state that is Live in that stage. -/
theorem next_of_stageAfter {o : Host.Outcome State Fault Refusal} {x : Stage} (h : stageAfter o = some x) :
    ∃ t w, o = .next t ∧ t.life = .live w ∧ w.stage = x := by
  cases o with
  | fault r => cases h
  | refused r => cases h
  | next t =>
    simp only [stageAfter, after, Option.bind_some] at h
    split at h <;> cases h
    exact ⟨t, _, rfl, ‹_›, rfl⟩

/-! Well-formedness (R69): an operand of the wrong width, in each position. -/

theorem test_wf_create_good : (Instr.create w8).wellFormed .binary32 = true := by decide
theorem test_wf_create_wide : (Instr.create wideOne).wellFormed .binary32 = false := by decide
theorem test_wf_create_narrow : (Instr.create w8).wellFormed .binary64 = false := by decide
theorem test_wf_config_good : configCfg.wellFormed .binary32 = true := by decide
theorem test_wf_config_delay : (Instr.config wideOne w0 w0 w0 w0 w0).wellFormed .binary32 = false := by decide
theorem test_wf_config_attack : (Instr.config w0 wideOne w0 w0 w0 w0).wellFormed .binary32 = false := by decide
theorem test_wf_config_hold : (Instr.config w0 w0 wideOne w0 w0 w0).wellFormed .binary32 = false := by decide
theorem test_wf_config_decay : (Instr.config w0 w0 w0 wideOne w0 w0).wellFormed .binary32 = false := by decide
theorem test_wf_config_sustain : (Instr.config w0 w0 w0 w0 wideOne w0).wellFormed .binary32 = false := by decide
theorem test_wf_config_release : (Instr.config w0 w0 w0 w0 w0 wideOne).wellFormed .binary32 = false := by decide
theorem test_wf_config_narrow :
    (Instr.config wideOne wideOne wideOne w0 wideOne wideOne).wellFormed .binary64 = false := by decide

/-! Decoding words written out from R66, R67, R70, R71 and R78 (EX1, HD1 to HD13). -/

theorem test_decode_create : decode .binary32 [.w32 0x00000001#32, .w32 0x41000000#32] = .command (.create w8) [] := by decide
theorem test_decode_create_binary64 : decode .binary64 [.w32 0x00000001#32, .w64 0x4020000000000000#64] =
    .command (.create (.w64 0x4020000000000000#64)) [] := by decide
theorem test_decode_destroy : decode .binary32 [.w32 0x00000002#32] = .command .destroy [] := by decide
theorem test_decode_config : decode .binary32 [.w32 0x00000003#32, .w32 0xC5610000#32, .w32 0xC5160000#32, .w32 0xC5610000#32,
    .w32 0xC4960000#32, .w32 0x43480000#32, .w32 0xC5160000#32] = .command configCfg [] := by decide
theorem test_decode_noteOn : decode .binary32 [.w32 0x00000004#32] = .command .noteOn [] := by decide
theorem test_decode_noteOff : decode .binary32 [.w32 0x00000005#32] = .command .noteOff [] := by decide
theorem test_decode_next : decode .binary32 [.w32 0x00000006#32] = .command .next [] := by decide
theorem test_decode_HD1_HD8 : decodeHeader 0x00000000#32 = none ∧ decodeHeader 0x00000007#32 = none := by decide
theorem test_decode_HD9_to_HD13 : decodeHeader 0x00000008#32 = none ∧ decodeHeader 0x00000009#32 = none ∧
    decodeHeader 0x0000000E#32 = none ∧ decodeHeader 0x80000006#32 = none ∧ decodeHeader 0xFFFFFFFF#32 = none := by decide
theorem test_decode_illegal_takes_one_word :
    decode .binary32 [.w32 0x00000007#32, .w32 0x00000006#32] = .illegal [.w32 0x00000006#32] := by decide
theorem test_decode_waits : decode .binary32 [.w32 0x00000003#32, w0, w0, w0, w0, w0] = .incomplete := by decide
theorem test_decode_wrong_width : decode .binary32 [.w32 0x00000001#32, wideOne] = .operandWidth := by decide
theorem test_table_word_create : decodeTableWord 64 0x4100000000000001 = some (.create w8) := by decide
theorem test_table_word_config : decodeTableWord 32 0x00000003 = some (.config w0 w0 w0 w0 w0 w0) := by decide
theorem test_fetch_word_at_reset :
    after (step (State.reset.withFetchWord 64 0x4100000000000001)) =
      some { State.reset with life := .live (Voice.fresh (floatArith .binary32) w8), cmdIndex := 1 } := by decide

/-! The assembler (R76, R77, EX1). -/

theorem test_assemble_create :
    assembleText .binary32 [['C', 'R', 'E', 'A', 'T', 'E', ' ', '8', ' ', ';', ' ', 'x']] =
      some [.w32 0x00000001#32, .w32 0x41000000#32] := by decide +kernel
theorem test_assemble_run : assembleText .binary32 [['R', 'U', 'N', ' ', '3'], []] =
    some [.w32 0x00000006#32, .w32 0x00000006#32, .w32 0x00000006#32] := by decide
theorem test_assemble_run_zero : assembleText .binary32 [['R', 'U', 'N', ' ', '0']] = none := by decide
theorem test_assemble_negative : (readDecimal ['-', '3', '6', '0', '0']).map (Decimal.word .binary32) = some wMinus3600 := by decide
theorem test_assemble_power : (readDecimal ['1', 'e', '-', '5']).map (Decimal.word .binary32) =
    some (.w32 0x3727C5AC#32) := by decide +kernel

/-! The arithmetic and the literals (95_test_vectors parts 0, 1 and 3). -/

/-- V0: the `binary32` nearest to 0.1. -/
theorem test_literal_tenth : Literal.word .binary32 ⟨1, 10⟩ = wTenth := by decide
/-- 3.5, note on NX20: the `binary64` nearest to 1e-5. -/
theorem test_literal_eps_binary64 : Config.eps.word .binary64 = .w64 0x3EE4F8B588E368F1#64 := by decide +kernel
/-- `dt` of `CREATE 8`. -/
theorem test_dt : floatDiv .binary32 w1 w8 = wEighth := by decide +kernel
/-- LC8: `1 / 1e-40` overflows under `binary32`. -/
theorem test_dt_overflows : floatDiv .binary32 w1 (.w32 0x000116C2#32) = wInf := by decide +kernel
/-- S11: 1200 time-cents are 2 seconds, -3600 are 0.125. -/
theorem test_timecents : (floatArith .binary32).timecentsToSeconds (.w32 0x44960000#32) = .w32 0x40000000#32 ∧
    (floatArith .binary32).timecentsToSeconds wMinus3600 = wEighth := by decide +kernel
/-- V3: -1300000 time-cents underflow to 0, 153600 overflow. -/
theorem test_timecents_limits : (floatArith .binary32).timecentsToSeconds (.w32 0xC99EB100#32) = w0 ∧
    (floatArith .binary32).timecentsToSeconds (.w32 0x48160000#32) = wInf := by decide +kernel
/-- V3: 10000 centibels underflow to 0. -/
theorem test_centibels_underflow : (floatArith .binary32).cbAttenToLin (.w32 0x461C4000#32) = w0 := by decide

/-! The commands, from the vectors of 95_test_vectors part 3. -/

/-- LC1. -/
theorem test_create : after (exec (.create w8) State.reset) = some { State.reset with
    life := .live fresh, cmdIndex := 1 } := by decide
/-- LC5: minus zero is no sample rate. -/
theorem test_create_minus_zero : after (exec (.create wMinusZero) State.reset) = some { State.reset with
    life := .faulted none, fault := ⟨.badSampleRate, 0⟩, cmdIndex := 1 } := by decide
/-- LC11, mid-note. -/
theorem test_destroy : after (exec .destroy (live (voice .hold w0))) =
    some { machine .destroyed with cmdIndex := 6 } := by decide
/-- LC12. -/
theorem test_destroy_twice : after (exec .destroy (machine .destroyed)) =
    some { machine .destroyed with life := .faulted none, fault := ⟨.useAfterDestroy, 5⟩, cmdIndex := 6 } := by decide
/-- V0. -/
theorem test_config : after (exec configCfg (live fresh)) = some { live (voice .idle w0) with cmdIndex := 6 } := by decide +kernel
/-- R108: in mid-note only the configuration changes. -/
theorem test_config_midnote : after (exec configCfg (live (voiceWith { cfg with hold := w0 } .hold wEighth))) =
    some { live (voice .hold wEighth) with cmdIndex := 6 } := by decide +kernel
/-- FP9: NONFINITE_OPERAND keeps every register. -/
theorem test_config_nan : after (exec (.config w0 w0 wNaN w0 w0 w0) (live (voice .decay wEighth))) =
    some { live (voice .decay wEighth) with life := .faulted (some (voice .decay wEighth)), fault := ⟨.nonfiniteOperand, 5⟩, cmdIndex := 6 } := by decide
/-- T3: NOTE_ON in Hold restarts the note. -/
theorem test_noteOn : after (exec .noteOn (live { voice .hold wEighth with level := w1 })) =
    some { live (voice .delay w0) with cmdIndex := 6 } := by decide
/-- T2. -/
theorem test_noteOn_unconfigured : after (exec .noteOn (live fresh)) =
    some { live fresh with
      life := .faulted (some fresh), fault := ⟨.unconfigured, 5⟩, cmdIndex := 6 } := by decide
/-- T12: NOTE_OFF in Release captures the level again. -/
theorem test_noteOff : after (exec .noteOff (live { voice .release wEighth with level := wQuarter, releaseStart := wTenth })) =
    some { live { voice .release w0 with level := wQuarter, releaseStart := wQuarter } with cmdIndex := 6 } := by decide
/-- T11. -/
theorem test_noteOff_idle : after (exec .noteOff (live (voice .idle wEighth))) =
    some { live (voice .idle wEighth) with cmdIndex := 6 } := by decide
/-- NX2. -/
theorem test_next_delay : after (exec .next (live (voice .delay w0))) =
    some { live (voice .attack w0) with responses := [w0], cmdIndex := 6 } := by decide
/-- NX13. -/
theorem test_next_decay : after (exec .next (live (voice .decay wThreeEighths))) =
    some { live { voice .sustain w0 with level := wTenth } with responses := [wTenth], cmdIndex := 6 } := by decide
/-- FP1: ILLEGAL_COMMAND comes before USE_AFTER_DESTROY, and the channel moves by one word. -/
theorem test_illegal : after (step { machine .destroyed with channel := [.w32 0x00000007#32, w8] }) =
    some { machine .destroyed with
      life := .faulted none, fault := ⟨.illegalCommand, 5⟩, cmdIndex := 6, channel := [w8] } := by decide
/-- FP8. -/
theorem test_illegal_faulted : after (step { machine (.faulted none) with channel := [.w32 0x00000007#32] }) =
    some { machine (.faulted none) with cmdIndex := 6 } := by decide

/-! Witnesses: sound machines. -/

theorem level_words (v : Word) (h : (floatArith .binary32).finite v = true ∧ (floatArith .binary32).le w0 v = true ∧
    (floatArith .binary32).le v w1 = true) : (floatArith .binary32).Level v := h

theorem cfg_legal : cfg.Legal (floatArith .binary32) :=
  ⟨by decide, by decide, by decide, by decide, by decide, level_words _ (by decide)⟩

/-- A Live machine with legal registers is sound. -/
theorem live_sound {v : Voice Word} (h : v.Sound (floatArith .binary32)) : (live v).Sound where
  uncreated := fun h => by cases h
  live := fun w hw => by cases hw; exact h
  faulted := ⟨fun h => (by cases h), fun h => absurd rfl h⟩
  recorded := fun h => by cases h
  responses := fun _ h => by cases h

/-- A configuration put into `voice` leaves it sound where it is legal. -/
theorem voice_legal (s : Stage) (e : Word) {c : Settings Word} (he : (floatArith .binary32).le w0 e = true)
    (hc : c.Legal (floatArith .binary32)) : (voiceWith c s e).Sound (floatArith .binary32) where
  rate := show (floatArith .binary32).goodRate w8 = true by decide
  elapsed := he
  level := level_words w0 (by decide)
  releaseStart := level_words w0 (by decide)
  settings := fun c' h => by cases h; exact hc

theorem voice_sound (s : Stage) (e : Word) (he : (floatArith .binary32).le w0 e = true) : (live (voice s e)).Sound :=
  live_sound (voice_legal s e he cfg_legal)

theorem faulted_sound : (machine (.faulted none)).Sound where
  uncreated := fun h => by cases h
  live := fun _ h => by cases h
  faulted := ⟨fun _ h => (by cases h), fun _ => rfl⟩
  recorded := fun _ => by decide
  responses := fun _ h => by cases h

/-! Witnesses: decoding and the step. -/

theorem witness_decodeOfEncode : (Instr.create w8).wellFormed .binary32 = true ∧
    (Instr.create wideOne).wellFormed .binary64 = true := by decide
theorem witness_streamDecodes : ∀ i ∈ [Instr.create w8, configCfg, .noteOn, .next, .noteOff, .destroy], i.wellFormed .binary32 = true := by
  decide
theorem witness_stepRuns : decode .binary32 [.w32 0x00000006#32] = .command .next [] ∧
    decode .binary32 [.w32 0x00000007#32] = .illegal [] ∧ decode .binary32 [] = .incomplete ∧
    decode .binary32 [.w32 0x00000001#32, wideOne] = .operandWidth := by decide
theorem witness_reservedBits : headerRsv 0x80000006#32 ≠ 0#29 ∧
    ({ live (voice .idle w0) with channel := [.w32 0x80000006#32] } : State).life.isFaulted = false := by decide
theorem witness_runOfStream : ∀ i ∈ [Instr.create w8, .next, .destroy], i.wellFormed State.reset.num = true := by decide

/-! Witnesses: the frame of every command. -/

theorem witness_counted_command : exec .destroy State.reset =
    .next { State.reset with life := .faulted none, fault := ⟨.noInstance, 0⟩, cmdIndex := 1 } := next_of_after (by decide)
theorem witness_counted_illegal : decode .binary32 [.w32 0x00000000#32] = .illegal [] ∧
    ∃ t, step { State.reset with channel := [.w32 0x00000000#32] } = .next t := ⟨by decide, _, rfl⟩
theorem witness_lifecycle_uncreated : State.reset.life = .uncreated ∧ ∀ sr, Instr.next ≠ .create sr :=
  ⟨by decide, fun _ h => by cases h⟩
theorem witness_lifecycle_live : (live (voice .idle w0)).life = .live (voice .idle w0) ∧ ∃ sr, Instr.create w8 = .create sr := ⟨by decide, w8, rfl⟩
theorem witness_lifecycle_destroyed : (machine .destroyed).life = .destroyed := by decide
theorem witness_lifecycle_accepts_faulting : State.reset.life = .uncreated ∧
    exec (.create wNaN) State.reset =
      .next { State.reset with life := .faulted none, fault := ⟨.badSampleRate, 0⟩, cmdIndex := 1 } :=
  ⟨by decide, next_of_after (by decide)⟩
theorem witness_faultsArePrecise : State.reset.life.isFaulted = false ∧
    exec .noteOn State.reset = .next { State.reset with life := .faulted none, fault := ⟨.noInstance, 0⟩, cmdIndex := 1 } :=
  ⟨by decide, next_of_after (by decide)⟩
theorem witness_faultedOnlyCounts : (machine (.faulted none)).life.isFaulted = true ∧
    decode .binary32 [.w32 0x00000000#32] = .illegal [] ∧ (machine (.faulted none)).Sound :=
  ⟨by decide, by decide, faulted_sound⟩
theorem witness_faultedForGood : (machine (.faulted none)).life.isFaulted = true ∧
    ∃ t, core.run 1 { machine (.faulted none) with channel := [.w32 0x00000002#32] } = .next t := ⟨by decide, _, rfl⟩
theorem witness_destroyedIsNeverLiveAgain : (machine .destroyed).life = .destroyed ∧
    ∃ t, core.run 1 { machine .destroyed with channel := [.w32 0x00000002#32] } = .next t := ⟨by decide, _, rfl⟩
theorem witness_repeated_noteOn : ∃ t, exec .noteOn (live (voice .hold wEighth)) = .next t := next_exists (by decide)
theorem witness_repeated_noteOff : ∃ t, exec .noteOff (live (voice .hold wEighth)) = .next t := next_exists (by decide)
theorem witness_repeated_config : ∃ t, exec configCfg (live (voice .hold wEighth)) = .next t := next_exists (by decide)

/-! Witnesses: CREATE and DESTROY. -/

theorem witness_create_accepted : State.reset.life = .uncreated ∧ floatFinite .binary32 w8 = true ∧
    floatLt .binary32 (NumFormat.binary32.word 0) w8 = true := by decide
/-- The least positive value is a sample rate; the greatest finite value too. -/
theorem witness_create_bounds : floatLt .binary32 (NumFormat.binary32.word 0) (.w32 0x00000001#32) = true ∧
    floatFinite .binary32 (.w32 0x7F7FFFFF#32) = true := by decide
theorem witness_create_bad : floatFinite .binary32 wInf = false ∧ floatLt .binary32 (NumFormat.binary32.word 0) w0 = false := by decide
theorem witness_create_lives : (live (voice .idle w0)).life = .live (voice .idle w0) ∧ (machine .destroyed).life = .destroyed := by decide
theorem witness_sampleRate_other : (live (voice .hold w0)).life.voice = some (voice .hold w0) ∧
    exec .noteOff (live (voice .hold w0)) = .next { live (voice .release w0) with cmdIndex := 6 } :=
  ⟨by decide, next_of_after (by decide)⟩
theorem witness_sampleRate_create : ∃ t, exec (.create w8) State.reset = .next t ∧
    t.life = .live fresh :=
  ⟨_, next_of_after test_create, by decide⟩

/-! Witnesses: CONFIG. -/

theorem witness_config_finite : (live (voice .idle w0)).life = .live (voice .idle w0) ∧
    ∀ w ∈ [wMinus3600, wMinus2400, wMinus3600, wMinus1200, w200, wMinus2400], floatFinite .binary32 w = true := by decide
theorem witness_config_nonfinite : (live (voice .idle w0)).life = .live (voice .idle w0) ∧
    ∃ w ∈ [w0, w0, w0, w0, w0, wInf], floatFinite .binary32 w = false := by decide
theorem witness_config_frame : ∃ t, exec (.config w0 w0 w0 w0 w0 wInf) (live (voice .idle w0)) = .next t :=
  next_exists (by decide)
theorem witness_config_frame_accepted : ∃ t, exec configCfg (live (voice .attack wEighth)) = .next t := next_exists (by decide)
theorem witness_config_legal : ∀ w ∈ [w0, w1, .w32 0x7F7FFFFF#32, .w32 0xFF7FFFFF#32, w200, wMinus2400], floatFinite .binary32 w = true := by
  decide
/-- The values where the clauses of each format meet: the bounds and the overflow threshold of the durations, minus the least positive
value, and the bounds of the sustain. -/
theorem witness_conversion_limits :
    floatLe .binary32 (.w32 0xC82FC800#32) (floatNeg .binary32 (Literal.word .binary32 ⟨180000, 1⟩)) = true ∧
    floatLe .binary32 (floatNeg .binary32 (Literal.word .binary32 ⟨178800, 1⟩)) (.w32 0xC82E9C00#32) = true ∧
    floatLe .binary32 (Literal.word .binary32 ⟨153600, 1⟩) (.w32 0x48160000#32) = true ∧
    floatLe .binary32 (.w32 0x4815FFC0#32) (Literal.word .binary32 ⟨153599, 1⟩) = true ∧
    floatLt .binary32 (.w32 0x80000001#32) (NumFormat.binary32.word 0) = true ∧
    floatLe .binary32 (Literal.word .binary32 ⟨9031, 1⟩) (.w32 0x460D1C00#32) = true ∧
    floatLe .binary32 (.w32 0x460C2800#32) (Literal.word .binary32 ⟨8970, 1⟩) = true ∧
    ∀ w ∈ [Word.w32 0xC82FC800#32, .w32 0xC82E9C00#32, .w32 0x48160000#32, .w32 0x4815FFC0#32,
      .w32 0x80000001#32, .w32 0x460D1C00#32, .w32 0x460C2800#32], floatFinite .binary32 w = true := by
  decide +kernel
theorem witness_conversion_limits_binary64 :
    floatLe .binary64 (.w64 0xC133AF1000000000#64) (floatNeg .binary64 (Literal.word .binary64 ⟨1290000, 1⟩)) = true ∧
    floatLe .binary64 (floatNeg .binary64 (Literal.word .binary64 ⟨1288800, 1⟩)) (.w64 0xC133AA6000000000#64) = true ∧
    floatLe .binary64 (Literal.word .binary64 ⟨1228800, 1⟩) (.w64 0x4132C00000000000#64) = true ∧
    floatLe .binary64 (.w64 0x4132BFFF00000000#64) (Literal.word .binary64 ⟨1228799, 1⟩) = true ∧
    floatLt .binary64 (.w64 0x8000000000000001#64) (NumFormat.binary64.word 0) = true ∧
    floatLe .binary64 (Literal.word .binary64 ⟨64722, 1⟩) (.w64 0x40EF9A4000000000#64) = true ∧
    floatLe .binary64 (.w64 0x40EF92A000000000#64) (Literal.word .binary64 ⟨64661, 1⟩) = true ∧
    ∀ w ∈ [Word.w64 0xC133AF1000000000#64, .w64 0xC133AA6000000000#64, .w64 0x4132C00000000000#64, .w64 0x4132BFFF00000000#64,
      .w64 0x8000000000000001#64, .w64 0x40EF9A4000000000#64, .w64 0x40EF92A000000000#64], floatFinite .binary64 w = true := by
  decide +kernel
/-- The results at those values, by R107. -/
theorem test_conversion_limits :
    (floatArith .binary32).ingestDuration (.w32 0xC82FC800#32) = w0 ∧ (floatArith .binary32).ingestDuration (.w32 0x48160000#32) = wInf ∧
    (floatArith .binary32).ingestSustain (.w32 0x80000001#32) = w1 ∧ (floatArith .binary32).ingestSustain (.w32 0x460D1C00#32) = w0 := by
  decide +kernel

/-! Witnesses: NOTE_ON and NOTE_OFF. -/

theorem witness_noteOn_set : (live (voice .sustain w0)).life = .live (voice .sustain w0) ∧
    (voice .sustain w0).settings = some cfg := by decide
theorem witness_noteOn_unset : (live fresh).life = .live fresh ∧
    fresh.settings = none := by decide
theorem witness_noteOff_idle : (live (voice .idle w0)).life = .live (voice .idle w0) ∧ (voice .idle w0).stage = .idle := by decide
theorem witness_noteOff_release : (live (voice .release w0)).life = .live (voice .release w0) ∧
    (voice .release w0).phase = .configured .release cfg ∧ Stage.release ≠ .idle := by decide
theorem witness_note_lives : State.reset.life = .uncreated ∧ (machine .destroyed).life = .destroyed := by decide

/-! Witnesses: NEXT. -/

theorem witness_next_idle_sustain : (live (voice .idle w0)).life = .live (voice .idle w0) ∧ (voice .idle w0).stage = .idle ∧
    (voice .sustain w0).stage = .sustain ∧ (voice .sustain w0).settings = some cfg := by decide
/-- Both ways out of Delay and of Hold: the exit sample, and one before it. -/
theorem witness_next_delay_hold : (voice .delay w0).stage = .delay ∧ (voice .hold w0).stage = .hold ∧
    floatLe .binary32 cfg.delay (floatAdd .binary32 w0 (floatDiv .binary32 (Literal.word .binary32 ⟨1, 1⟩) w8)) = true ∧
    floatLe .binary32 wQuarter (floatAdd .binary32 w0 (floatDiv .binary32 (Literal.word .binary32 ⟨1, 1⟩) w8)) = false := by decide
/-- The three clauses of a stage with a curve: the shortcut, the exit sample, one before it. -/
theorem witness_next_curve : (floatArith .binary32).le w0 (floatArith .binary32).zero = true ∧
    (floatArith .binary32).le wQuarter (floatArith .binary32).zero = false ∧
    (floatArith .binary32).isNaN ((floatArith .binary32).div wQuarter wQuarter) = false ∧
    (floatArith .binary32).le (floatArith .binary32).one
      ((floatArith .binary32).min (floatArith .binary32).one ((floatArith .binary32).div wQuarter wQuarter)) = true ∧
    (floatArith .binary32).isNaN ((floatArith .binary32).div wEighth wQuarter) = false ∧
    (floatArith .binary32).le (floatArith .binary32).one
      ((floatArith .binary32).min (floatArith .binary32).one ((floatArith .binary32).div wEighth wQuarter)) = false := by decide
theorem witness_next_attack : (live (voice .attack w0)).life = .live (voice .attack w0) ∧ (voice .attack w0).settings = some cfg ∧
    (voice .attack w0).stage = .attack ∧
    (floatArith .binary32).add w0 ((floatArith .binary32).div (floatArith .binary32).one w8) = wEighth := by decide
theorem witness_next_decay : (live (voice .decay w0)).life = .live (voice .decay w0) ∧ (voice .decay w0).settings = some cfg ∧
    (voice .decay w0).stage = .decay := by decide
theorem witness_next_release : (live (voice .release w0)).life = .live (voice .release w0) ∧ (voice .release w0).settings = some cfg ∧
    (voice .release w0).stage = .release ∧ floatFinite .binary32 wMinus2400 = true := by decide
theorem witness_next_frame : ∃ t, exec .next (live (voice .delay w0)) = .next t := ⟨_, next_of_after test_next_delay⟩

/-- An envelope whose `dt` is infinite (LC8) and whose durations are (R198). -/
def slow (s : Stage) : Voice Word := ⟨.w32 0x000116C2#32, .configured s ⟨wInf, wInf, wInf, wInf, w0, wInf⟩, w0, w0, w0⟩

theorem witness_nan_quotient : (live (slow .attack)).life = .live (slow .attack) ∧ (slow .attack).stage = .attack ∧
    (floatArith .binary32).le wInf (floatArith .binary32).zero = false ∧
    (floatArith .binary32).isNaN ((floatArith .binary32).div ((floatArith .binary32).add w0
      ((floatArith .binary32).div (floatArith .binary32).one (.w32 0x000116C2#32))) wInf) = true := by decide +kernel
theorem test_nan_quotient_stages : refusal (exec .next (live (slow .attack))) = some .nanQuotient ∧
    refusal (exec .next (live (slow .decay))) = some .nanQuotient ∧
    refusal (exec .next (live (slow .release))) = some .nanQuotient := by decide +kernel
/-- R198: a Delay or a Hold of infinite duration stays, also where `elapsed + dt` is infinite. -/
theorem test_infinite_stays :
    after (exec .next (live (slow .delay))) =
      some { live { slow .delay with elapsed := wInf } with responses := [w0], cmdIndex := 6 } ∧
    after (exec .next (live (slow .hold))) =
      some { live { slow .hold with elapsed := wInf, level := w1 } with responses := [w1], cmdIndex := 6 } := by decide +kernel
theorem witness_unset : (live fresh).life = .live fresh ∧ fresh.settings = none ∧
    (∃ t, exec (.create w8) State.reset = .next t ∧ t.life = .live fresh) ∧
    (∃ t, exec configCfg (live fresh) = .next t ∧ t.life = .live (voice .idle w0)) ∧
    ∃ t, exec .next (live fresh) = .next t ∧ t.life = .live fresh :=
  ⟨by decide, by decide, ⟨_, next_of_after test_create, rfl⟩, ⟨_, next_of_after test_config, rfl⟩,
    ⟨_, next_of_after (t := { live fresh with responses := [w0], cmdIndex := 6 }) (by decide), rfl⟩⟩
theorem witness_next_completes : (live (voice .decay w0)).Sound ∧ (live (voice .decay w0)).life = .live (voice .decay w0) :=
  ⟨voice_sound _ _ (by decide), by decide⟩

/-- Every transition that NEXT makes is made somewhere. -/
theorem witness_transitions :
    (∃ t w, exec .next (live (voice .delay w0)) = .next t ∧ t.life = .live w ∧ w.stage = .attack) ∧
    (∃ t w, exec .next (live (voice .attack wEighth)) = .next t ∧ t.life = .live w ∧ w.stage = .hold) ∧
    (∃ t w, exec .next (live (voiceWith { cfg with hold := w0 } .attack wEighth)) = .next t ∧
      t.life = .live w ∧ w.stage = .decay) ∧
    (∃ t w, exec .next (live (voice .hold w0)) = .next t ∧ t.life = .live w ∧ w.stage = .decay) ∧
    (∃ t w, exec .next (live (voice .decay wThreeEighths)) = .next t ∧ t.life = .live w ∧ w.stage = .sustain) ∧
    (∃ t w, exec .next (live (voice .release wEighth)) = .next t ∧ t.life = .live w ∧ w.stage = .idle) :=
  ⟨next_of_stageAfter (by decide), next_of_stageAfter (by decide), next_of_stageAfter (by decide),
    next_of_stageAfter (by decide), next_of_stageAfter (by decide), next_of_stageAfter (by decide)⟩

theorem witness_note_commands_change_stage :
    (∃ t w, exec .noteOn (live (voice .hold w0)) = .next t ∧ t.life = .live w ∧ w.stage = .delay) ∧
    (∃ t w, exec .noteOff (live (voice .hold w0)) = .next t ∧ t.life = .live w ∧ w.stage = .release) :=
  ⟨next_of_stageAfter (by decide), next_of_stageAfter (by decide)⟩

theorem witness_releaseStart_changes : ∃ t w, exec .noteOff (live { voice .hold w0 with level := w1 }) = .next t ∧
    t.life = .live w ∧ w.releaseStart ≠ w0 :=
  ⟨{ live { voice .release w0 with level := w1, releaseStart := w1 } with cmdIndex := 6 },
    { voice .release w0 with level := w1, releaseStart := w1 }, next_of_after (by decide), rfl, by decide⟩
theorem witness_releaseStart_unread : (live (voice .delay w0)).life = .live (voice .delay w0) ∧ (voice .delay w0).stage ≠ .release ∧
    ∃ t, exec .next (live (voice .delay w0)) = .next t := ⟨by decide, by decide, _, next_of_after test_next_delay⟩

/-- NEXT goes on in each timed stage from some sound machine. -/
theorem witness_elapsed_below :
    ((live (voiceWith { cfg with delay := wQuarter } .delay w0)).Sound ∧
      ∃ t w, exec .next (live (voiceWith { cfg with delay := wQuarter } .delay w0)) = .next t ∧
        t.life = .live w ∧ w.stage = .delay) ∧
    ((live (voice .attack w0)).Sound ∧
      ∃ t w, exec .next (live (voice .attack w0)) = .next t ∧ t.life = .live w ∧ w.stage = .attack) ∧
    ((live (voiceWith { cfg with hold := wHalf } .hold w0)).Sound ∧
      ∃ t w, exec .next (live (voiceWith { cfg with hold := wHalf } .hold w0)) = .next t ∧
        t.life = .live w ∧ w.stage = .hold) ∧
    ((live (voice .decay w0)).Sound ∧
      ∃ t w, exec .next (live (voice .decay w0)) = .next t ∧ t.life = .live w ∧ w.stage = .decay) ∧
    ((live (voice .release w0)).Sound ∧
      ∃ t w, exec .next (live (voice .release w0)) = .next t ∧ t.life = .live w ∧ w.stage = .release) := by
  have hd : ({ cfg with delay := wQuarter } : Settings Word).Legal (floatArith .binary32) :=
    ⟨by decide, by decide, by decide, by decide, by decide, level_words _ (by decide)⟩
  have hh : ({ cfg with hold := wHalf } : Settings Word).Legal (floatArith .binary32) :=
    ⟨by decide, by decide, by decide, by decide, by decide, level_words _ (by decide)⟩
  exact ⟨⟨live_sound (voice_legal _ _ (by decide) hd), next_of_stageAfter (by decide)⟩,
    ⟨voice_sound _ _ (by decide), next_of_stageAfter (by decide)⟩,
    ⟨live_sound (voice_legal _ _ (by decide) hh), next_of_stageAfter (by decide)⟩,
    ⟨voice_sound _ _ (by decide), next_of_stageAfter (by decide)⟩,
    ⟨voice_sound _ _ (by decide), next_of_stageAfter (by decide)⟩⟩
theorem witness_elapsed_stage : (live (voice .idle wEighth)).Sound ∧ (live (voice .delay w0)).Sound ∧
    (∃ t, exec .next (live (voice .idle wEighth)) = .next t) ∧ ∃ t, exec .next (live (voice .delay w0)) = .next t :=
  ⟨voice_sound _ _ (by decide), voice_sound _ _ (by decide), next_exists (by decide), _, next_of_after test_next_delay⟩
/-- A configuration whose durations are all infinite. -/
def endless (s : Stage) : Voice Word := voiceWith ⟨wInf, wInf, wInf, wInf, wTenth, wInf⟩ s w0

/-- NX30. -/
theorem test_endless_attack : after (exec .next (live (endless .attack))) =
    some { live { endless .attack with elapsed := wEighth } with responses := [w0], cmdIndex := 6 } := by decide +kernel
/-- In every timed stage: the hypotheses of one NEXT, and those of any number. -/
theorem witness_infinite (s : Stage) :
    (live (endless s)).life = .live (endless s) ∧ (endless s).Sound (floatArith .binary32) ∧ (endless s).stage = s ∧
    wInf = NumFormat.binary32.word NumFormat.binary32.infinity ∧ (floatArith .binary32).Level wTenth ∧
    (floatArith .binary32).add w0 ((floatArith .binary32).div (floatArith .binary32).one w8) = wEighth ∧
    floatFinite .binary32 wEighth = true ∧ floatLe .binary32 w0 wEighth = true ∧
    floatLe .binary32 (Literal.word .binary32 ⟨1, 1⟩) w8 = true ∧ floatFinite .binary32 w0 = true :=
  ⟨rfl, voice_legal s w0 (by decide) ⟨by decide, by decide, by decide, by decide, by decide, level_words _ (by decide)⟩, rfl,
    by decide, level_words _ (by decide), by decide, by decide, by decide, by decide, by decide⟩

/-! Witnesses: the whole machine. -/

theorem witness_step_sound : (live (voice .delay w0)).Sound ∧
    ∃ t, step { live (voice .delay w0) with channel := [.w32 0x00000006#32] } = .next t :=
  ⟨voice_sound _ _ (by decide), _, next_of_after (t := { live (voice .attack w0) with responses := [w0], cmdIndex := 6 }) (by decide)⟩
/-- The order of use of 70_reset_and_hazards R192. -/
theorem witness_legal_use : legalStream .binary32 [.create w8, .noteOff, .next, configCfg, .noteOn, .next, .noteOff, .next, .destroy] = true := by
  decide
theorem test_illegal_use : legalStream .binary32 [.create w8, .noteOn] = false ∧ legalStream .binary32 [.next] = false ∧
    legalStream .binary32 [.create w8, .destroy, .next] = false := by decide
theorem witness_envelopes : (0 : Nat) ≠ 1 ∧
    (∃ one, bankStep 0 [{ State.reset with channel := [.w32 0x00000002#32] }, { State.reset with channel := [.w32 0x00000006#32] }] =
      .next one ∧ ∃ two, bankStep 1 one = .next two) := ⟨by decide, _, rfl, _, rfl⟩

/-! Witnesses: the floating formats. -/

/-- A tie, where both neighbours are as near; and a value that is none. -/
theorem witness_rounding : roundMagnitude .binary32 1 2 = 0 ∧ roundMagnitude .binary32 3 2 = 2 ∧
    roundMagnitude .binary32 5 3 < NumFormat.binary32.infinity ∧ (1 : Nat) < NumFormat.binary32.infinity := by decide
theorem witness_exp_ln : floatLe .binary32 (.w32 0xBF800000#32) w0 = true ∧
    floatLe .binary32 (.w32 0x80000000#32) w0 = true ∧ floatLe .binary32 wQuarter wInf = true := by decide
/-- -6 and minus zero lie in the domain of `exp`, and so does 0, whatever the logarithm of `EPS` is. -/
theorem witness_exp_range : floatLe .binary32 (floatNeg .binary32 (Config.attackRate.word .binary32)) (.w32 0xC0C00000#32) = true ∧
    floatLe .binary32 (floatNeg .binary32 (Config.attackRate.word .binary32)) wMinusZero = true ∧
    floatLe .binary32 wMinusZero (NumFormat.binary32.word 0) = true ∧ floatFinite .binary32 w8 = true ∧
    floatLe .binary32 (Config.eps.word .binary32) w8 = true := by decide
theorem witness_exp_domain (f : NumFormat) :
    floatLe f (floatSub f (floatLn f (Config.eps.word f)) (Literal.word f ⟨1, 1⟩)) (f.word 0) = true := by
  obtain ⟨u, e, -, he, heu, hu0⟩ := lnFloor_units (level_eps f)
  exact (floatLe_of_rank (rank_floatSub he (isUnits_one f)) (rank_zero f)).mpr (valueRank_nonpos f Nat.one_pos (by omega))
/-- 3 and -3; the largest and the smallest exponents of a normal number. -/
theorem witness_powers : (Word.w32 0x40400000#32).datum .binary32 = .fin false (3 * NumFormat.binary32.unit) ∧
    (Word.w32 0xC0400000#32).datum .binary32 = .fin true (3 * NumFormat.binary32.unit) ∧
    (Word.w32 0x42FE0000#32).datum .binary32 = .fin false (127 * NumFormat.binary32.unit) ∧
    (Word.w32 0xC2FC0000#32).datum .binary32 = .fin true (126 * NumFormat.binary32.unit) := by decide
theorem witness_powers_nonneg : floatFinite .binary32 wMinus1200 = true := by decide
theorem witness_attack_levels : ∀ x ∈ [w0, wMinusZero, wHalf, w1], (floatArith .binary32).Level x := fun x hx => level_words x (by
  revert x; decide)

/-! Witnesses: the `real` reference. -/

/-- `CREATE 8` with `CFG`, over the real numbers. -/
noncomputable def realVoice (s : Stage) : Voice ℝ := ⟨8, .configured s ⟨1 / 8, 1 / 4, 1 / 8, 1 / 2, 1 / 10, 1 / 4⟩, 0, 0, 0⟩

theorem witness_real_clamps : (-100 : ℝ) < 0 ∧ ¬ (100 : ℝ) < 0 := by norm_num
theorem witness_real_exit : (0 : ℝ) < 1 / 4 := by norm_num
theorem witness_real_attack : (1 / 2 : ℝ) < 3 / 4 ∧ (3 / 4 : ℝ) < 1 := by norm_num
theorem witness_real_decay : (0 : ℝ) ≤ 1 / 10 ∧ (1 / 10 : ℝ) ≤ 1 ∧ (0 : ℝ) ≤ 1 / 4 ∧ (1 / 4 : ℝ) ≤ 1 / 2 ∧ (1 / 2 : ℝ) ≤ 1 := by norm_num
theorem witness_real_release : (0 : ℝ) ≤ 1 / 2 ∧ (1 / 2 : ℝ) ≤ 1 ∧ (0 : ℝ) ≤ 1 / 100000 := by norm_num
theorem witness_real_lengths : ∀ s, 0 < (realVoice s).sampleRate ∧ (realVoice s).elapsed = 0 ∧ (realVoice s).stage = s ∧
    ∃ c, (realVoice s).settings = some c := fun s => ⟨by norm_num [realVoice], rfl, rfl, _, rfl⟩
theorem witness_real_sound : (Block.uncreated ℝ).Sound realArith where
  uncreated := fun _ => rfl
  live := fun _ h => by cases h
  faulted := ⟨fun h => (by cases h), fun h => absurd rfl h⟩
  recorded := fun h => by cases h
  responses := fun _ h => by cases h

/-- A Live envelope of the reference that is sound. -/
theorem witness_real_sound_live :
    ({ Block.uncreated ℝ with life := .live (realVoice .decay), cmdIndex := 3 } : Block ℝ).Sound realArith where
  uncreated := fun h => by cases h
  live := fun v h => by
    cases h
    have h0 : realArith.Level 0 := ⟨rfl, by simp, by simp⟩
    refine ⟨?_, by simp [realVoice], h0, h0, ?_⟩
    · norm_num [Arith.goodRate, Arith.positive, realVoice]
    · intro c hc
      cases hc
      exact ⟨by norm_num, by norm_num, by norm_num, by norm_num, by norm_num, rfl, by norm_num, by norm_num⟩
  faulted := ⟨fun h => (by cases h), fun h => absurd rfl h⟩
  recorded := fun h => by cases h
  responses := fun _ h => by cases h

end Sys2Proof.Tests
end

section
/-! PROOFS. The scope family (spec 00_scope): the unset configuration, the transitions of NEXT, and rounding to nearest even. -/

namespace Sys2Proof

/-! Rounding (R11). -/

/-- The distance of a value of the format from a fraction, as a whole number of `1 / d`. -/
theorem abs_div_sub_eq (n v : Nat) {d : Nat} (hd : 0 < d) :
    |(n : ℚ) / d - v| = ((n : ℤ) - (v * d : ℕ)).natAbs / d := by
  have hdq : (0 : ℚ) < d := Nat.cast_pos.mpr hd
  rw [div_sub' hdq.ne', abs_div, abs_of_pos hdq, Nat.cast_natAbs]
  push_cast
  rw [mul_comm (d : ℚ)]

/-- No value of the format is nearer to `n / d` than the rounded one, and one as near shows that the rounded one is even: the rounded one is one
of the two neighbours of `n / d`, and every other value lies on the far side of one of them. -/
theorem roundMagnitude_nearest (f : NumFormat) (n k : Nat) {d : Nat} (hd : 0 < d) (hfin : roundMagnitude f n d < f.infinity) :
    ((n : ℤ) - (magnitudeValue f (roundMagnitude f n d) * d : ℕ)).natAbs ≤ ((n : ℤ) - (magnitudeValue f k * d : ℕ)).natAbs ∧
    (((n : ℤ) - (magnitudeValue f (roundMagnitude f n d) * d : ℕ)).natAbs = ((n : ℤ) - (magnitudeValue f k * d : ℕ)).natAbs →
      k ≠ roundMagnitude f n d → roundMagnitude f n d % 2 = 0) := by
  obtain ⟨b, hlo, hhi, hr⟩ := roundMagnitude_spec f n hd
  have hmono : StrictMono fun m => magnitudeValue f m * d := (magnitudeValue_strictMono f).mul_const hd
  have hbelow : k < b → magnitudeValue f k * d < magnitudeValue f b * d := fun h => hmono h
  have habove : b + 1 < k → magnitudeValue f (b + 1) * d < magnitudeValue f k * d := fun h => hmono h
  rw [hr] at hfin
  rw [hr, min_eq_left (by omega)]
  obtain h | rfl | rfl | h : k < b ∨ k = b ∨ k = b + 1 ∨ b + 1 < k := by omega
  all_goals split <;> omega

/-- Settles O47: over the common denominator the distances are whole numbers, and the rounded neighbour is the nearest. -/
theorem roundingIsToNearestEven : Obligations.RoundingIsToNearestEven := by
  intro f n d k hd hfin _
  have hdq : (0 : ℚ) < d := Nat.cast_pos.mpr hd
  simp only [abs_div_sub_eq _ _ hd, div_le_div_iff_of_pos_right hdq, div_left_inj' hdq.ne', Nat.cast_le, Nat.cast_inj]
  exact roundMagnitude_nearest f n k hd hfin

end Sys2Proof

namespace Sys2Proof.Machine

variable {V : Type}

/-! What a command leaves of a Live envelope. -/

/-- A command after which the envelope is Live was accepted. -/
theorem exec_accepted_of_live {i : Instr} {s t : State} {w : Voice Word} (h : exec i s = .next t) (hw : t.life = .live w) :
    ∃ b, s.toBlock.Accepted s.arith (Command.ofInstr i) b ∧ b.life = .live w := by
  rcases exec_cases h with ⟨hf, rfl⟩ | ⟨-, code, -, rfl⟩ | ⟨b, ha, rfl⟩
  · rw [show s.life = .live w from hw] at hf
    cases hf
  · cases hw
  · exact ⟨b, ha, hw⟩

/-- NEXT on a Live envelope leaves what its stage step leaves. -/
theorem exec_next_stepped {s t : State} {v w : Voice Word} (hv : s.life = .live v) (h : exec .next s = .next t)
    (hw : t.life = .live w) : v.NextTo (floatArith s.num) w := by
  obtain ⟨b, ha, hb⟩ := exec_accepted_of_live h hw
  cases ha with
  | next v' w' hl hn hnt =>
    cases hv.symm.trans hl
    cases hb
    exact hnt

/-! The configuration, set or unset (R9, D9). -/

/-- CONFIG is the one command that sets the configuration. -/
theorem Block.Accepted.settings_eq_none_iff {O : Arith V} {b b' : Block V} {c : Command V} {v w : Voice V}
    (ha : b.Accepted O c b') (hv : b.life = .live v) (hw : b'.life = .live w) :
    w.settings = none ↔ v.settings = none ∧ ∀ d a h dc s r, c ≠ .config d a h dc s r := by
  cases ha with
  | create sr hl => cases hv.symm.trans hl
  | destroy => cases hw
  | config => cases hw; simp
  | noteOn v' c hl hc =>
    cases hv.symm.trans hl
    cases hw
    exact iff_of_false (by simp [Voice.settings]) (by simp [hc])
  | noteOff v' hl =>
    cases hv.symm.trans hl
    cases hw
    simp [(v.noteOff_frame O).2.2]
  | next v' w' hl hn hnt =>
    cases hv.symm.trans hl
    cases hw
    simp [hnt.frame.2.2]

theorem Command.ofInstr_eq_config {i : Instr} {d a h dc s r : Word} :
    Command.ofInstr i = .config d a h dc s r ↔ i = .config d a h dc s r := by
  cases i <;> simp [Command.ofInstr]

/-- Settles O34: CREATE resets the registers, every other accepted command but CONFIG keeps the configuration, and the three commands that meet
an unset one are R120, R121 and R130 in Idle. -/
theorem unsetConfigurationIsNeverRead : Obligations.UnsetConfigurationIsNeverRead := by
  refine ⟨fun s t sr w h hw => ?_, fun i s t v w hv h hw => ?_, fun s v hv hc => ⟨Voice.stage_of_unset hc, ?_, ?_, ?_⟩⟩
  · obtain ⟨b, ha, hb⟩ := exec_accepted_of_live h hw
    cases ha
    cases hb
    rfl
  · obtain ⟨b, ha, hb⟩ := exec_accepted_of_live h hw
    simpa only [ne_eq, Command.ofInstr_eq_config] using ha.settings_eq_none_iff hv hb
  · exact exec_eq_next.mpr ⟨_, Block.next_of_done _ hv (Voice.next_of_idle _ (Voice.stage_of_unset hc)), rfl⟩
  · refine exec_eq_next.mpr ⟨_, Block.noteOff_of_live _ hv, ?_⟩
    rw [Voice.noteOff_of_idle _ (Voice.stage_of_unset hc), ← hv]
  · refine exec_eq_next.mpr ⟨_, Block.noteOn_of_unset _ hv hc, ?_⟩
    rw [Block.raise, Block.voice_of_live hv]

/-! The transitions of NEXT (R146). -/

/-- The exit test of Delay and Hold holds at a reached duration (R145). -/
theorem Arith.le_of_reached {O : Arith V} {e d : V} (h : O.reached e d = true) : O.le d e = true :=
  (Bool.and_eq_true_iff.mp h).2

/-- A curve stage ends by its zero duration or at a fraction of at least 1 (R145). -/
theorem Voice.CurveEnds.exit_test {O : Arith V} {v : Voice V} {d : V} (h : v.CurveEnds O d) :
    O.le d O.zero = true ∨ O.le O.one (O.min O.one (O.div (v.advanced O) d)) = true := by
  rcases h with h | ⟨x, -, hx, hc⟩
  · exact .inl h
  · rw [Arith.fraction] at hx
    split at hx
    · cases hx
    · cases hx
      exact .inr hc

/-- A stage step that changes the stage ends the stage it finds: the row of R146's table, with its condition. -/
theorem Voice.NextTo.stage_change {O : Arith V} {v w : Voice V} (h : v.NextTo O w) (hne : w.stage ≠ v.stage) :
    w.elapsed = O.zero ∧ ∃ c, v.settings = some c ∧
      ((v.stage = .delay ∧ w.stage = .attack ∧ O.reached (v.advanced O) c.delay = true) ∨
        (v.stage = .attack ∧ w.stage = (if O.positive c.hold then .hold else .decay) ∧ v.CurveEnds O c.attack) ∨
        (v.stage = .hold ∧ w.stage = .decay ∧ O.reached (v.advanced O) c.hold = true) ∨
        (v.stage = .decay ∧ w.stage = .sustain ∧ v.CurveEnds O c.decay) ∨
        (v.stage = .release ∧ w.stage = .idle ∧ v.CurveEnds O c.release)) := by
  cases h with
  | delayEnds c hp he =>
    obtain ⟨hs, hc⟩ := Voice.phase_eq_configured.mp hp
    exact ⟨rfl, c, hc, .inl ⟨hs, rfl, he⟩⟩
  | attackEnds c hp he =>
    obtain ⟨hs, hc⟩ := Voice.phase_eq_configured.mp hp
    exact ⟨rfl, c, hc, .inr (.inl ⟨hs, rfl, he⟩)⟩
  | holdEnds c hp he =>
    obtain ⟨hs, hc⟩ := Voice.phase_eq_configured.mp hp
    exact ⟨rfl, c, hc, .inr (.inr (.inl ⟨hs, rfl, he⟩))⟩
  | decayEnds c hp he =>
    obtain ⟨hs, hc⟩ := Voice.phase_eq_configured.mp hp
    exact ⟨rfl, c, hc, .inr (.inr (.inr (.inl ⟨hs, rfl, he⟩)))⟩
  | releaseEnds c hp he =>
    obtain ⟨hs, hc⟩ := Voice.phase_eq_configured.mp hp
    exact ⟨rfl, c, hc, .inr (.inr (.inr (.inr ⟨hs, rfl, he⟩)))⟩
  | idle | delayStays | attackStays | holdStays | decayStays | sustain | releaseStays => exact absurd rfl hne

/-- Settles O36: the ways through a stage step that change the stage are the rows of R146's table; Attack's exit is two of them, by the hold. -/
theorem nextTransitions : Obligations.NextTransitions := by
  intro s t v w hv h hw hne O e ends
  obtain ⟨he, c, hc, hrow⟩ := (exec_next_stepped hv h hw).stage_change hne
  refine ⟨he, c, hc, ?_⟩
  rcases hrow with ⟨hs, hs', hx⟩ | ⟨hs, hs', hx⟩ | ⟨hs, hs', hx⟩ | ⟨hs, hs', hx⟩ | ⟨hs, hs', hx⟩
  · exact .inl ⟨hs, hs', Arith.le_of_reached hx⟩
  · cases hh : O.positive c.hold with
    | true => exact .inr (.inl ⟨hs, by rw [hs', hh]; rfl, hx.exit_test, hh⟩)
    | false => exact .inr (.inr (.inl ⟨hs, by rw [hs', hh]; rfl, hx.exit_test, hh⟩))
  · exact .inr (.inr (.inr (.inl ⟨hs, hs', Arith.le_of_reached hx⟩)))
  · exact .inr (.inr (.inr (.inr (.inl ⟨hs, hs', hx.exit_test⟩))))
  · exact .inr (.inr (.inr (.inr (.inr ⟨hs, hs', hx.exit_test⟩))))

end Sys2Proof.Machine
end

section
/-! PROOFS. The state family (spec 10_state): the invariant and that every command keeps it, in both floating formats and under `real`;
the count, the sample rate, `elapsed` and `releaseStart`. -/

namespace Sys2Proof.Machine

variable {V : Type}

/-! What a number format owes the invariant (R32). -/

/-- The rules of a number format on which the invariant rests: 0 and `PEAK` are levels, a release not below its floor is not negative,
nor is `elapsed + dt`, CONFIG writes legal values, and at the fraction of a timed stage each of the three curves gives a level. Both
floating formats (`floatArith_keepsLevels`) and `real` (`realArith_keepsLevels`) keep them. -/
structure Arith.KeepsLevels (O : Arith V) : Prop where
  zero : O.Level O.zero
  peak : O.Level O.peak
  floor : ∀ {d : V}, O.le O.releaseFloor d = true → O.le O.zero d = true
  advance : ∀ {e sr : V}, O.le O.zero e = true → O.goodRate sr = true → O.le O.zero (O.add e (O.div O.one sr)) = true
  ingest : ∀ {d a h dc s r : V}, O.allFinite [d, a, h, dc, s, r] = true → (O.ingest d a h dc s r).Legal O
  fraction : ∀ {e d x : V}, O.le O.zero e = true → O.le O.zero d = true → O.notPositive d = false → O.fraction e d = some x →
    O.Level x
  attack : ∀ {x : V}, O.Level x → O.Level (O.attackLevel x)
  decay : ∀ {s x : V}, O.Level s → O.Level x → O.Level (O.decayLevel s x)
  release : ∀ {s x : V}, O.Level s → O.Level x → O.Level (O.releaseLevel s x)

/-! The registers after each command's own rule. -/

/-- The registers stay sound where the sample rate and the configuration stay and the other three hold legal values. -/
theorem Voice.Sound.of_frame {O : Arith V} {v w : Voice V} (hv : v.Sound O) (hr : w.sampleRate = v.sampleRate)
    (hc : w.settings = v.settings) (he : O.le O.zero w.elapsed = true) (hl : O.Level w.level) (hs : O.Level w.releaseStart) :
    w.Sound O where
  rate := hr ▸ hv.rate
  elapsed := he
  level := hl
  releaseStart := hs
  settings := hc ▸ hv.settings

/-- The registers after an accepted CREATE (R92). -/
theorem Voice.fresh_sound {O : Arith V} (hO : O.KeepsLevels) {sr : V} (h : O.goodRate sr = true) : (Voice.fresh O sr).Sound O where
  rate := h
  elapsed := hO.zero.2.1
  level := hO.zero
  releaseStart := hO.zero
  settings := fun c hc => by simp at hc

/-- The registers after an accepted CONFIG (R102). -/
theorem Voice.Sound.configure {O : Arith V} {v : Voice V} (hv : v.Sound O) {c : Settings V} (hc : c.Legal O) :
    (v.configure c).Sound O where
  rate := hv.rate
  elapsed := hv.elapsed
  level := hv.level
  releaseStart := hv.releaseStart
  settings := fun c' h => by cases h; exact hc

/-- NOTE_OFF does nothing in Idle; elsewhere it captures the level and enters Release (R121). -/
theorem Voice.noteOff_cases (O : Arith V) (v : Voice V) :
    (v.stage = .idle ∧ v.noteOff O = v) ∨
    (v.stage ≠ .idle ∧ ∃ c, v.settings = some c ∧
      v.noteOff O = { v with releaseStart := v.level, phase := .configured .release c, elapsed := O.zero }) := by
  by_cases hs : v.stage = .idle
  · exact .inl ⟨hs, Voice.noteOff_of_idle O hs⟩
  · cases hc : v.settings with
    | none => exact absurd (Voice.stage_of_unset hc) hs
    | some c => exact .inr ⟨hs, c, rfl, Voice.noteOff_of_sounding O (Voice.phase_eq_configured.mpr ⟨rfl, hc⟩) hs⟩

/-- The registers after NOTE_OFF (R121). -/
theorem Voice.Sound.noteOff {O : Arith V} (hO : O.KeepsLevels) {v : Voice V} (hv : v.Sound O) : (v.noteOff O).Sound O := by
  obtain ⟨hr, hl, hc⟩ := v.noteOff_frame O
  rcases v.noteOff_cases O with ⟨-, h⟩ | ⟨-, c, -, h⟩
  · rwa [h]
  · exact hv.of_frame hr hc (by rw [h]; exact hO.zero.2.1) (hl ▸ hv.level) (by rw [h]; exact hv.level)

/-- The registers after an accepted NOTE_ON (R120), whichever stage it enters. -/
theorem Voice.Sound.noteOn {O : Arith V} (hO : O.KeepsLevels) {v : Voice V} (hv : v.Sound O) {c : Settings V}
    (hc : v.settings = some c) (s : Stage) :
    Voice.Sound O { v with phase := .configured s c, elapsed := O.zero, level := O.zero } :=
  have hf : v.settings = Voice.settings { v with phase := .configured s c, elapsed := O.zero, level := O.zero } := hc
  hv.of_frame rfl hf.symm hO.zero.2.1 hO.zero hv.releaseStart

/-! The registers after a stage step (R130). -/

theorem Voice.Sound.advanced_nonneg {O : Arith V} (hO : O.KeepsLevels) {v : Voice V} (hv : v.Sound O) :
    O.le O.zero (v.advanced O) = true := hO.advance hv.elapsed hv.rate

/-- The configuration of a sound envelope is legal. -/
theorem Voice.Sound.legal {O : Arith V} {v : Voice V} (hv : v.Sound O) {s : Stage} {c : Settings V} (hp : v.phase = .configured s c) :
    c.Legal O := hv.settings c (Voice.phase_eq_configured.mp hp).2

/-- A timed stage that goes on is at a fraction between 0 and 1. -/
theorem Voice.CurveAt.level_of_fraction {O : Arith V} (hO : O.KeepsLevels) {v : Voice V} (hv : v.Sound O) {d x : V}
    (hd : O.le O.zero d = true) (h : v.CurveAt O d x) : O.Level x :=
  hO.fraction (hv.advanced_nonneg hO) hd h.1 h.2.1

/-- Where a stage step leaves `elapsed`: at 0, as it was, or advanced by `dt` (R26). -/
theorem Voice.NextTo.elapsed_cases {O : Arith V} {v w : Voice V} (h : v.NextTo O w) :
    w.elapsed = O.zero ∨ w.elapsed = v.elapsed ∨ w.elapsed = v.advanced O := by
  cases h <;> simp

/-- A stage step leaves a level (R32). -/
theorem Voice.NextTo.level_level {O : Arith V} (hO : O.KeepsLevels) {v w : Voice V} (hv : v.Sound O) (h : v.NextTo O w) :
    O.Level w.level := by
  cases h with
  | idle | delayEnds | delayStays | releaseEnds => exact hO.zero
  | attackEnds | holdEnds | holdStays => exact hO.peak
  | decayEnds c hp | sustain c hp => exact (hv.legal hp).sustain
  | attackStays c x hp he => exact hO.attack (he.level_of_fraction hO hv (hv.legal hp).attack)
  | decayStays c x hp he => exact hO.decay (hv.legal hp).sustain (he.level_of_fraction hO hv (hv.legal hp).decay)
  | releaseStays c x hp he =>
    exact hO.release hv.releaseStart (he.level_of_fraction hO hv (hO.floor (hv.legal hp).release))

theorem Voice.Sound.next {O : Arith V} (hO : O.KeepsLevels) {v w : Voice V} (hv : v.Sound O) (h : v.NextTo O w) : w.Sound O := by
  obtain ⟨hr, hs, hc⟩ := h.frame
  refine hv.of_frame hr hc ?_ (h.level_level hO hv) (hs ▸ hv.releaseStart)
  rcases h.elapsed_cases with he | he | he <;> rw [he]
  · exact hO.zero.2.1
  · exact hv.elapsed
  · exact hv.advanced_nonneg hO

/-! The envelope after every command. -/

/-- Counting a command of a created envelope keeps the invariant. -/
theorem Block.Sound.count {O : Arith V} {b : Block V} (hb : b.Sound O) (h : b.life ≠ .uncreated) : b.count.Sound O where
  uncreated := fun hu => absurd hu h
  live := hb.live
  faulted := hb.faulted
  recorded := fun hf => Nat.lt_succ_of_lt (hb.recorded hf)
  responses := hb.responses

/-- A raised fault keeps the invariant (R172). -/
theorem Block.Sound.raise {O : Arith V} {b : Block V} (hb : b.Sound O) {c : FaultCode} (hc : c ≠ .none) : (b.raise c).Sound O where
  uncreated := fun h => by cases h
  live := fun _ h => by cases h
  faulted := iff_of_true rfl hc
  recorded := fun _ => Nat.lt_succ_self _
  responses := hb.responses

theorem Block.Sound.count_of_faulted {O : Arith V} {b : Block V} (hb : b.Sound O) (h : b.life.isFaulted = true) : b.count.Sound O :=
  hb.count fun hu => by simp [hu] at h

/-- No fault is recorded while the life is not Faulted (R30). -/
theorem Block.Sound.no_fault {O : Arith V} {b : Block V} (hb : b.Sound O) (h : b.life.isFaulted = false) : b.fault.code = .none := by
  by_contra hc
  rw [hb.faulted.mpr hc] at h
  cases h

/-- New sound registers and new levels among the responses keep the invariant of a Live envelope. -/
theorem Block.Sound.live_update {O : Arith V} {b : Block V} (hb : b.Sound O) {v w : Voice V} (hl : b.life = .live v)
    (hw : w.Sound O) {rs : List V} (hrs : ∀ r ∈ rs, O.Level r) (n : Nat) :
    Block.Sound O { b with life := .live w, responses := rs, cmdIndex := n } where
  uncreated := fun h => by cases h
  live := fun _ h => by cases h; exact hw
  faulted := iff_of_false (by simp) (not_not.mpr (hb.no_fault (by simp [hl])))
  recorded := fun h => by cases h
  responses := hrs

/-- An accepted command keeps the invariant. -/
theorem Block.Sound.accepted {O : Arith V} (hO : O.KeepsLevels) {b b' : Block V} {c : Command V} (hb : b.Sound O)
    (h : b.Accepted O c b') : b'.Sound O := by
  cases h with
  | create sr hl hg =>
    exact {
      uncreated := fun h => by cases h
      live := fun _ h => by cases h; exact Voice.fresh_sound hO hg
      faulted := iff_of_false (by simp) (by simp)
      recorded := fun h => by cases h
      responses := hb.responses }
  | destroy v hl =>
    exact {
      uncreated := fun h => by cases h
      live := fun _ h => by cases h
      faulted := iff_of_false (by simp) (not_not.mpr (hb.no_fault (by simp [hl])))
      recorded := fun h => by cases h
      responses := hb.responses }
  | config d a h dc s r v hl hf => exact hb.live_update hl ((hb.live v hl).configure (hO.ingest hf)) hb.responses _
  | noteOn v c hl hc => exact hb.live_update hl ((hb.live v hl).noteOn hO hc _) hb.responses _
  | noteOff v hl => exact hb.live_update hl ((hb.live v hl).noteOff hO) hb.responses _
  | next v w hl hn hw =>
    have hs := (hb.live v hl).next hO hw
    refine hb.live_update hl hs (fun r hr => ?_) _
    rcases List.mem_append.mp hr with h | h
    · exact hb.responses r h
    · exact List.mem_singleton.mp h ▸ hs.level

/-- Every command that gives a next envelope keeps the invariant, in every number format whose rules keep levels (R32). -/
theorem Block.Sound.command {O : Arith V} (hO : O.KeepsLevels) {b b' : Block V} {c : Command V} (hb : b.Sound O)
    (h : b.command O c = .next b') : b'.Sound O := by
  rcases Block.command_cases h with ⟨hf, rfl⟩ | ⟨-, code, hc, rfl⟩ | ha
  · exact hb.count_of_faulted hf
  · exact hb.raise hc
  · exact hb.accepted hO ha

/-- A word that spells no command keeps the invariant (R68, R173). -/
theorem Block.Sound.illegal {O : Arith V} {b : Block V} (hb : b.Sound O) : b.illegal.Sound O := by
  unfold Block.illegal
  split
  · exact hb.count_of_faulted ‹_›
  · exact hb.raise (by simp)

/-! The floating formats keep levels. -/

/-- `TC_PER_OCTAVE` is exact in both formats. -/
theorem isUnits_tcPerOctave (f : NumFormat) : IsUnits f (Config.tcPerOctave.word f) ((1200 * f.unit : Nat) : Int) := by
  have h : roundMagnitude f (1200 * f.unit) 1 < f.infinity ∧ Config.tcPerOctave.units f = 1200 * f.unit := by
    cases f <;> decide +kernel
  exact h.2 ▸ isUnits_literal h.1

/-- `CB_PER_DECADE` is exact in both formats. -/
theorem isUnits_cbPerDecade (f : NumFormat) : IsUnits f (Config.cbPerDecade.word f) ((200 * f.unit : Nat) : Int) := by
  have h : roundMagnitude f (200 * f.unit) 1 < f.infinity ∧ Config.cbPerDecade.units f = 200 * f.unit := by
    cases f <;> decide +kernel
  exact h.2 ▸ isUnits_literal h.1

/-- A duration that CONFIG writes is not negative and not NaN (R103). -/
theorem rank_ingestDuration {f : NumFormat} {tc : Word} (h : floatFinite f tc = true) :
    ∃ r, ((floatArith f).ingestDuration tc).rank f = some r ∧ f.zeroRank ≤ r := by
  obtain ⟨u, hu⟩ := isUnits_of_finite h
  obtain ⟨x, hx, -⟩ := floatDiv_literal hu (isUnits_tcPerOctave f) (by decide)
  obtain ⟨-, -, r, hr, -⟩ := floatPow2_spec hx
  exact ⟨_, rank_max (rank_zero f) hr, Nat.le_max_left _ _⟩

theorem level_ingestSustain {f : NumFormat} {cb : Word} (h : floatFinite f cb = true) :
    (floatArith f).Level ((floatArith f).ingestSustain cb) := by
  unfold Arith.ingestSustain
  split
  · exact level_one f
  · obtain ⟨u, hu⟩ := isUnits_of_finite h
    obtain ⟨x, hx, -⟩ := floatDiv_literal (floatNeg_units hu) (isUnits_cbPerDecade f) (by decide)
    obtain ⟨-, r, hr, -⟩ := floatPow10_spec hx
    have hm := rank_min (rank_literal f ⟨1, 1⟩) (rank_max (rank_zero f) hr)
    exact level_iff.mpr ⟨_, hm, Nat.le_min.mpr ⟨(zeroRank_lt_oneRank f).1.le, Nat.le_max_left _ _⟩, Nat.min_le_left _ _⟩

theorem zeroRank_le_releaseFloor (f : NumFormat) : f.zeroRank ≤ Config.releaseFloor.rank f := Nat.le_add_right _ _

/-- A release that CONFIG writes is not below its floor (R105). -/
theorem releaseFloor_le_ingestRelease {f : NumFormat} {tc : Word} (h : floatFinite f tc = true) :
    floatLe f (Config.releaseFloor.word f) ((floatArith f).ingestRelease tc) = true := by
  obtain ⟨r, hr, -⟩ := rank_ingestDuration h
  exact (floatLe_of_rank (rank_literal f _) (rank_max (rank_literal f _) hr)).mpr (Nat.le_max_left _ _)

/-- Settles O21: each register is read off by rank, a quotient of a finite operand being finite. -/
theorem configWritesLegalValues : Obligations.ConfigWritesLegalValues := by
  intro f d a h dc su r hf
  simp only [List.forall_mem_cons] at hf
  obtain ⟨hd, ha, hh, hdc, hsu, hr, -⟩ := hf
  exact {
    delay := floatLe_zero_iff.mpr (rank_ingestDuration hd)
    attack := floatLe_zero_iff.mpr (rank_ingestDuration ha)
    hold := floatLe_zero_iff.mpr (rank_ingestDuration hh)
    decay := floatLe_zero_iff.mpr (rank_ingestDuration hdc)
    release := releaseFloor_le_ingestRelease hr
    sustain := level_ingestSustain hsu }

theorem floatArith_keepsLevels (f : NumFormat) : (floatArith f).KeepsLevels where
  zero := level_zero f
  peak := level_peak f
  floor := floatLe_trans (floatLe_zero_iff.mpr ⟨_, rank_literal f _, zeroRank_le_releaseFloor f⟩)
  advance := fun he hr => floatLe_trans he (floatAdd_nonneg he (dt_nonneg hr))
  ingest := fun h => configWritesLegalValues f _ _ _ _ _ _ (List.all_eq_true.mp h)
  fraction := fun he hd hp hx => (fraction_level he hd hp hx).1
  attack := attackLevel_level
  decay := decayLevel_level
  release := releaseLevel_level

/-- Settles O44: a step is a command, an illegal word or a wait, and the floating formats keep levels. -/
theorem stepKeepsSound : Obligations.StepKeepsSound := by
  intro s t hs h
  rcases step_cases h with ⟨i, rest, -, he⟩ | ⟨rest, -, rfl⟩ | ⟨-, rfl⟩
  · obtain ⟨b, hb, rfl⟩ := exec_eq_next.mp he
    exact Block.Sound.command (floatArith_keepsLevels s.num) hs hb
  · exact hs.illegal
  · exact hs

/-! The reference keeps levels. -/

theorem realArith_level_iff {x : ℝ} : realArith.Level x ↔ 0 ≤ x ∧ x ≤ 1 := by simp [Arith.Level]

/-- The logarithm of a floored level is not positive. -/
theorem log_max_eps_nonpos {a : ℝ} (h : a ≤ 1) : Real.log (max a (1 / 100000)) ≤ 0 :=
  Real.log_nonpos (le_max_of_le_right (by norm_num)) (max_le h (by norm_num))

/-- The exponential of `lerp_log` between two levels, at a fraction, is a level (R14): the weighted mean of two logarithms that are not
positive is not positive. -/
theorem realArith_exp_lerpLog_level {a b x : ℝ} (ha : realArith.Level a) (hb : realArith.Level b) (hx : realArith.Level x) :
    realArith.Level (realArith.exp (realArith.lerpLog a b x)) := by
  obtain ⟨hx0, hx1⟩ := realArith_level_iff.mp hx
  have hla := log_max_eps_nonpos (realArith_level_iff.mp ha).2
  have hlb := log_max_eps_nonpos (realArith_level_iff.mp hb).2
  refine realArith_level_iff.mpr ⟨(Real.exp_pos _).le, Real.exp_le_one_iff.mpr ?_⟩
  rw [realArith_lerpLog]
  nlinarith

theorem realArith_attackLevel_level {x : ℝ} (hx : realArith.Level x) : realArith.Level (realArith.attackLevel x) := by
  have hx0 := (realArith_level_iff.mp hx).1
  have he : Real.exp (-6 * x) ≤ 1 := Real.exp_le_one_iff.mpr (by linarith)
  have hp := Real.exp_pos (-6 * x)
  rw [realArith_attackLevel]
  exact realArith_level_iff.mpr ⟨by linarith, by linarith⟩

theorem realArith_ingest_legal (d a h dc s r : ℝ) : (realArith.ingest d a h dc s r).Legal realArith where
  delay := by simp [Arith.ingest, Arith.ingestDuration]
  attack := by simp [Arith.ingest, Arith.ingestDuration]
  hold := by simp [Arith.ingest, Arith.ingestDuration]
  decay := by simp [Arith.ingest, Arith.ingestDuration]
  release := by simp [Arith.ingest, Arith.ingestRelease]
  sustain := by
    rw [realArith_level_iff]
    simp only [Arith.ingest, Arith.ingestSustain]
    split
    · simp
    · simp [Arith.clamp]

theorem realArith_keepsLevels : realArith.KeepsLevels where
  zero := by simp [realArith_level_iff]
  peak := by simp [realArith_level_iff]
  floor := fun {d} h => by
    have hd : 6 / 100 ≤ d := by simpa using h
    have h0 : 0 ≤ d := by linarith
    simpa using h0
  advance := fun {e sr} he hr => by
    have he0 : 0 ≤ e := by simpa using he
    have hr0 : 0 < sr := by simpa [Arith.goodRate, Arith.positive] using hr
    have hsum : 0 ≤ e + 1 / sr := by positivity
    simpa using hsum
  ingest := fun _ => realArith_ingest_legal _ _ _ _ _ _
  fraction := fun {e d x} he hd _ hx => by
    simp only [realArith_fraction, Option.some.injEq, realArith_le, realArith_zero, decide_eq_true_eq] at he hd hx
    exact realArith_level_iff.mpr ⟨hx ▸ le_min zero_le_one (div_nonneg he hd), hx ▸ min_le_left _ _⟩
  attack := realArith_attackLevel_level
  decay := fun hs hx => realArith_exp_lerpLog_level (by simp [realArith_level_iff]) hs hx
  release := fun hs hx => realArith_exp_lerpLog_level hs (by rw [realArith_level_iff]; norm_num) hx

theorem Block.conclude_next_or_refused (b : Block V) (r : BodyResult (Block V)) :
    (∃ b', b.conclude r = .next b') ∨ ∃ x, r = .refuses x := by
  cases r <;> simp [Block.conclude]

/-- Before CREATE no command is refused (R91, R92). -/
theorem Command.fresh_ne_refuses (O : Arith V) (b : Block V) (c : Command V) (x : Refusal) : c.fresh O b ≠ .refuses x := by
  cases c with
  | create sr =>
    simp only [Command.fresh, Block.createBody]
    split <;> simp
  | destroy | config | noteOn | noteOff | next => simp [Command.fresh]

/-- On a Live envelope only the stage step of NEXT is refused. -/
theorem Command.body_refuses {O : Arith V} {b : Block V} {c : Command V} {v : Voice V} {x : Refusal}
    (h : c.body O b v = .refuses x) : c = .next ∧ v.next O = .refuses x := by
  cases c with
  | create | destroy | noteOff => cases h
  | config =>
    simp only [Command.body, BodyResult.map_eq_refuses, Voice.config] at h
    split at h <;> cases h
  | noteOn =>
    simp only [Command.body, BodyResult.map_eq_refuses, Voice.noteOn] at h
    split at h <;> cases h
  | next => exact ⟨rfl, BodyResult.map_eq_refuses.mp h⟩

/-- A command gives a next envelope, or it is a NEXT whose stage step is refused (I5). -/
theorem Block.command_next_or_refused (O : Arith V) (c : Command V) (b : Block V) :
    (∃ b', b.command O c = .next b') ∨ ∃ v x, c = .next ∧ b.life = .live v ∧ v.next O = .refuses x := by
  cases hl : b.life with
  | uncreated =>
    rw [Block.command_eq_frame, Block.frame_of_uncreated hl]
    exact (b.conclude_next_or_refused _).imp_right fun ⟨x, hx⟩ => absurd hx (c.fresh_ne_refuses O b x)
  | live v =>
    rw [Block.command_of_live O c hl]
    refine (b.conclude_next_or_refused _).imp_right fun ⟨x, hx⟩ => ?_
    obtain ⟨hc, hn⟩ := Command.body_refuses hx
    exact ⟨v, x, hc, rfl, hn⟩
  | destroyed => exact .inl ⟨_, Block.command_of_destroyed O c hl⟩
  | faulted v => exact .inl ⟨_, Block.command_of_faulted O c (by simp [hl])⟩

/-- Under `real` every stage step is done. -/
theorem Voice.next_real (v : Voice ℝ) : ∃ w, v.next realArith = .done w := by
  rcases v.next_outcome realArith with h | ⟨-, c, h⟩
  · exact h
  · simp [realArith_fraction] at h

/-- Settles O60: only NEXT could be refused, and under `real` its quotient is no NaN. -/
theorem realCommandsKeepSound : Obligations.RealCommandsKeepSound := by
  intro c b hb
  rcases Block.command_next_or_refused realArith c b with ⟨b', h⟩ | ⟨v, x, -, -, hr⟩
  · exact ⟨b', h, hb.command realArith_keepsLevels h⟩
  · obtain ⟨w, hw⟩ := v.next_real
    rw [hw] at hr
    cases hr

/-! The machine before its first command (R38, R190). -/

/-- Settles O43: every register is read off the definition of the state before the first command. -/
theorem resetIsUncreated : Obligations.ResetIsUncreated := fun _ => ⟨rfl, rfl, rfl, rfl, rfl, rfl, rfl⟩

/-- Settles O42: before CREATE nothing is counted, no register holds a value, no fault is recorded and nothing was answered. -/
theorem resetIsSound : Obligations.ResetIsSound := fun _ => {
  uncreated := fun _ => rfl
  live := fun _ h => by cases h
  faulted := iff_of_false (by simp) (by simp)
  recorded := fun h => by cases h
  responses := fun _ h => by cases h }

/-! The count of commands (R31). -/

theorem Block.Accepted.counts {O : Arith V} {b b' : Block V} {c : Command V} (h : b.Accepted O c b') :
    b'.cmdIndex = b.cmdIndex + 1 := by
  cases h <;> rfl

theorem Block.command_counts {O : Arith V} {b b' : Block V} {c : Command V} (h : b.command O c = .next b') :
    b'.cmdIndex = b.cmdIndex + 1 := by
  rcases Block.command_cases h with ⟨-, rfl⟩ | ⟨-, code, -, rfl⟩ | ha
  · rfl
  · rfl
  · exact ha.counts

theorem Block.illegal_counts (b : Block V) : b.illegal.cmdIndex = b.cmdIndex + 1 := by
  unfold Block.illegal
  split <;> rfl

theorem step_of_illegal {s : State} {rest : List Word} (h : decode s.num s.channel = .illegal rest) :
    step s = .next { s.withChannel rest with toBlock := s.toBlock.illegal } := by
  simp only [step, h]

/-- Settles O9: ignored, faulting and accepted commands all end in the count, and so does an illegal word. -/
theorem everyCommandIsCounted : Obligations.EveryCommandIsCounted := by
  refine ⟨fun _ => rfl, fun i s t h => ?_, fun s t rest hd h => ?_⟩
  · obtain ⟨b, hb, rfl⟩ := exec_eq_next.mp h
    exact Block.command_counts hb
  · rw [step_of_illegal hd] at h
    cases h
    exact s.toBlock.illegal_counts

/-! What a command leaves in the registers of a Live envelope. -/

/-- The registers that a command leaves of a Live envelope where they still hold values, one constructor for each way: a fault leaves
them as they are (R172). -/
inductive Voice.Leaves (O : Arith V) (v : Voice V) : Command V → Voice V → Prop where
  | fault (c : Command V) (hc : c ≠ .next) : Leaves O v c v
  | config (d a h dc s r : V) : Leaves O v (.config d a h dc s r) (v.configure (O.ingest d a h dc s r))
  | noteOn (s : Stage) (c : Settings V) (hc : v.settings = some c) :
      Leaves O v .noteOn { v with phase := .configured s c, elapsed := O.zero, level := O.zero }
  | noteOff : Leaves O v .noteOff (v.noteOff O)
  | next (w : Voice V) (hw : v.NextTo O w) : Leaves O v .next w

/-- On a Live envelope NEXT raises nothing. -/
theorem Block.next_of_live {O : Arith V} {b b' : Block V} {v : Voice V} (hv : b.life = .live v) (h : b.next O = .next b') :
    ∃ w, b'.life = .live w ∧ v.NextTo O w := by
  rcases v.next_outcome O with ⟨w, hw⟩ | ⟨hr, -⟩
  · rw [Block.next_of_done O hv hw] at h
    cases h
    exact ⟨w, rfl, Voice.next_done hw⟩
  · rw [Block.next_of_refuses O hv hr] at h
    cases h

theorem Block.command_leaves {O : Arith V} {b b' : Block V} {c : Command V} {v w : Voice V} (hv : b.life = .live v)
    (h : b.command O c = .next b') (hw : b'.voice = some w) : v.Leaves O c w := by
  by_cases hc : c = .next
  · subst hc
    obtain ⟨w', hw', hn⟩ := Block.next_of_live hv h
    rw [Block.voice_of_live hw'] at hw
    cases hw
    exact .next w hn
  · rcases Block.command_cases h with ⟨hf, -⟩ | ⟨-, code, -, rfl⟩ | ha
    · simp [hv] at hf
    · rw [Block.raise_voice, Block.voice_of_live hv] at hw
      cases hw
      exact .fault c hc
    · cases ha with
      | create sr hl => cases hv.symm.trans hl
      | destroy => cases hw
      | config d a h' dc s r v' hl => cases hv.symm.trans hl; cases hw; exact .config d a h' dc s r
      | noteOn v' c hl hs => cases hv.symm.trans hl; cases hw; exact .noteOn _ c hs
      | noteOff v' hl => cases hv.symm.trans hl; cases hw; exact .noteOff
      | next => exact absurd rfl hc

theorem exec_leaves {i : Instr} {s t : State} {v w : Voice Word} (hv : s.life = .live v) (h : exec i s = .next t)
    (hw : t.life.voice = some w) : v.Leaves (floatArith s.num) (Command.ofInstr i) w := by
  obtain ⟨b, hb, rfl⟩ := exec_eq_next.mp h
  exact Block.command_leaves hv hb hw

theorem Command.ofInstr_injective : Function.Injective Command.ofInstr := by
  intro i j h
  cases i <;> cases j <;> cases h <;> rfl

/-! The sample rate (R24). -/

theorem Voice.Leaves.sampleRate {O : Arith V} {c : Command V} {v w : Voice V} (h : v.Leaves O c w) : w.sampleRate = v.sampleRate := by
  cases h with
  | fault | config | noteOn => rfl
  | noteOff => exact (v.noteOff_frame O).1
  | next _ hw => exact hw.frame.1

/-- In the Faulted state a command only counts (R173). -/
theorem exec_of_faulted {i : Instr} {s : State} (h : s.life.isFaulted = true) :
    exec i s = .next { s with toBlock := s.toBlock.count } :=
  exec_eq_next.mpr ⟨_, Block.command_of_faulted _ _ h, rfl⟩

/-- Settles O18: an accepted CREATE has checked its operand, and no way through another command writes the sample rate. -/
theorem sampleRateIsFixedAtCreation : Obligations.SampleRateIsFixedAtCreation := by
  refine ⟨fun s t sr v h hv => ?_, fun i s t v v' _ hv h hv' => ?_⟩
  · rw [(exec_keeps_interface h).1]
    obtain ⟨b, ha, hb⟩ := exec_accepted_of_live h hv
    cases ha with
    | create sr hl hg =>
      cases hb
      exact ⟨rfl, Bool.and_eq_true_iff.mp hg⟩
  · rcases Block.voice_eq_some.mp hv with hl | hl
    · exact (exec_leaves hl h hv').sampleRate
    · rw [exec_of_faulted (by simp [hl])] at h
      cases h
      cases hv.symm.trans hv'
      rfl

/-! `elapsed` (R26, R33). -/

/-- A command that changes the stage starts `elapsed` at 0. -/
theorem Voice.Leaves.elapsed_of_stage_change {O : Arith V} {c : Command V} {v w : Voice V} (h : v.Leaves O c w)
    (hne : w.stage ≠ v.stage) : w.elapsed = O.zero := by
  cases h with
  | fault | config => exact absurd rfl hne
  | noteOn => rfl
  | noteOff =>
    rcases v.noteOff_cases O with ⟨-, h⟩ | ⟨-, c, -, h⟩ <;> rw [h] at hne ⊢
    exact absurd rfl hne
  | next _ hw => exact (hw.stage_change hne).1

/-- A stage step that stays either leaves `elapsed` alone, in Idle and Sustain, or advances it in a timed stage that is not over. -/
theorem Voice.NextTo.stays {O : Arith V} {v w : Voice V} (h : v.NextTo O w) (hst : w.stage = v.stage) :
    ((v.stage = .idle ∨ v.stage = .sustain) ∧ w.elapsed = v.elapsed) ∨
    (w.elapsed = v.advanced O ∧ ∃ c, v.settings = some c ∧
      ((v.stage = .delay ∧ O.reached (v.advanced O) c.delay = false) ∨
        (v.stage = .attack ∧ ∃ x, v.CurveAt O c.attack x) ∨
        (v.stage = .hold ∧ O.reached (v.advanced O) c.hold = false) ∨
        (v.stage = .decay ∧ ∃ x, v.CurveAt O c.decay x) ∨
        (v.stage = .release ∧ ∃ x, v.CurveAt O c.release x))) := by
  cases h with
  | idle hs => exact .inl ⟨.inl hs, rfl⟩
  | sustain c hp => exact .inl ⟨.inr (Voice.phase_eq_configured.mp hp).1, rfl⟩
  | delayStays c hp he =>
    obtain ⟨hs, hc⟩ := Voice.phase_eq_configured.mp hp
    exact .inr ⟨rfl, c, hc, .inl ⟨hs, he⟩⟩
  | attackStays c x hp he =>
    obtain ⟨hs, hc⟩ := Voice.phase_eq_configured.mp hp
    exact .inr ⟨rfl, c, hc, .inr (.inl ⟨hs, x, he⟩)⟩
  | holdStays c hp he =>
    obtain ⟨hs, hc⟩ := Voice.phase_eq_configured.mp hp
    exact .inr ⟨rfl, c, hc, .inr (.inr (.inl ⟨hs, he⟩))⟩
  | decayStays c x hp he =>
    obtain ⟨hs, hc⟩ := Voice.phase_eq_configured.mp hp
    exact .inr ⟨rfl, c, hc, .inr (.inr (.inr (.inl ⟨hs, x, he⟩)))⟩
  | releaseStays c x hp he =>
    obtain ⟨hs, hc⟩ := Voice.phase_eq_configured.mp hp
    exact .inr ⟨rfl, c, hc, .inr (.inr (.inr (.inr ⟨hs, x, he⟩)))⟩
  | delayEnds c hp | holdEnds c hp | decayEnds c hp | releaseEnds c hp =>
    rw [(Voice.phase_eq_configured.mp hp).1] at hst
    cases hst
  | attackEnds c hp =>
    rw [(Voice.phase_eq_configured.mp hp).1] at hst
    simp only [Voice.stage] at hst
    split at hst <;> cases hst

theorem floatLe_self_of_nonneg {f : NumFormat} {a : Word} (h : floatLe f (f.signed false 0) a = true) : floatLe f a a = true := by
  obtain ⟨r, hr, -⟩ := floatLe_zero_iff.mp h
  exact (floatLe_of_rank hr hr).mpr le_rfl

/-- Of two values that are not NaN, one is below the other unless it is reached. -/
theorem floatLt_of_not_le {f : NumFormat} {a b : Word} (ha : floatLe f (f.signed false 0) a = true)
    (hb : floatLe f (f.signed false 0) b = true) (h : floatLe f b a = false) : floatLt f a b = true := by
  obtain ⟨r, hr, -⟩ := floatLe_zero_iff.mp ha
  obtain ⟨s, hs, -⟩ := floatLe_zero_iff.mp hb
  rw [Bool.eq_false_iff, Ne, floatLe_of_rank hs hr, not_le] at h
  exact (floatLt_of_rank hr hs).mpr h

/-- Advancing never lowers `elapsed`. -/
theorem Voice.Sound.elapsed_le_advanced {f : NumFormat} {v : Voice Word} (hv : v.Sound (floatArith f)) :
    floatLe f v.elapsed (v.advanced (floatArith f)) = true := floatAdd_nonneg hv.elapsed (dt_nonneg hv.rate)

/-- A command that keeps the stage does not lower `elapsed`, or it is NOTE_ON or NOTE_OFF and enters the stage anew. -/
theorem Voice.Leaves.elapsed_of_stage_kept {f : NumFormat} {c : Command Word} {v w : Voice Word} (hv : v.Sound (floatArith f))
    (h : v.Leaves (floatArith f) c w) (hst : w.stage = v.stage) :
    floatLe f v.elapsed w.elapsed = true ∨ ((c = .noteOn ∨ c = .noteOff) ∧ w.elapsed = f.word 0) := by
  have hself := floatLe_self_of_nonneg hv.elapsed
  cases h with
  | fault | config => exact .inl hself
  | noteOn => exact .inr ⟨.inl rfl, rfl⟩
  | noteOff =>
    rcases v.noteOff_cases (floatArith f) with ⟨-, h⟩ | ⟨-, c, -, h⟩ <;> rw [h]
    · exact .inl hself
    · exact .inr ⟨.inr rfl, rfl⟩
  | next _ hw =>
    rcases hw.stays hst with ⟨-, he⟩ | ⟨he, -⟩ <;> rw [he]
    · exact .inl hself
    · exact .inl hv.elapsed_le_advanced

/-- Settles O40: by what each command leaves in the registers; the sum with `dt`, which is not negative, never falls. -/
theorem elapsedIsTheTimeInTheStage : Obligations.ElapsedIsTheTimeInTheStage := by
  intro i s t v w hs hv h hw
  have hl := exec_leaves hv h hw
  refine ⟨hl.elapsed_of_stage_change, fun hst => ?_, fun hi hst => ?_⟩
  · exact (hl.elapsed_of_stage_kept (hs.live v hv) hst).imp_right fun ⟨hc, he⟩ =>
      ⟨hc.imp (@Command.ofInstr_injective i .noteOn) (@Command.ofInstr_injective i .noteOff), he⟩
  · subst hi
    cases hl with
    | fault _ hc => exact absurd rfl hc
    | next _ hn =>
      rcases hn.stays hst with ⟨hs, he⟩ | ⟨he, c, -, hs⟩
      · exact ⟨fun _ => he, fun hne => absurd hs (not_or.mpr hne)⟩
      · refine ⟨fun hidle => ?_, fun _ => he⟩
        rcases hidle with hi | hi <;> simp [hi] at hs

/-- A curve stage that goes on has not reached its duration (R33). -/
theorem Voice.CurveAt.elapsed_lt {f : NumFormat} {v : Voice Word} (hv : v.Sound (floatArith f)) {d x : Word}
    (hd : floatLe f (f.signed false 0) d = true) (h : v.CurveAt (floatArith f) d x) :
    floatLt f (v.advanced (floatArith f)) d = true := by
  obtain ⟨hp, hx, hc⟩ := h
  have he := hv.advanced_nonneg (floatArith_keepsLevels f)
  refine floatLt_of_not_le he hd (Bool.eq_false_iff.mpr fun hle => ?_)
  rw [(fraction_level he hd hp hx).2 hle] at hc
  cases hc

/-- The one word of plus infinity that an operation answers. -/
theorem narrow_eq_infinity {f : NumFormat} {x : Exact} (h : (x.narrow f).datum f = .inf false) : x.narrow f = f.word f.infinity := by
  cases x with
  | nan => rw [datum_narrow_nan] at h; cases h
  | inf neg => rw [datum_narrow_inf] at h; cases h; rfl
  | frac neg n d =>
    rw [datum_narrow_frac] at h
    split at h <;> cases h
    have hr := roundMagnitude_le_infinity f n d
    rw [Exact.narrow, show roundMagnitude f n d = f.infinity by omega]
    rfl

/-- A value not below an infinite duration is infinite. -/
theorem infinite_of_le {f : NumFormat} {e d : Word} (he : floatLe f (f.signed false 0) e = true)
    (hd : floatLe f (f.signed false 0) d = true) (hf : floatFinite f d = false) (h : floatLe f d e = true) :
    e.datum f = .inf false := by
  rcases nonneg_cases hd with ⟨v, hv⟩ | hdi
  · rw [hv.finite] at hf
    cases hf
  · rcases nonneg_cases he with ⟨u, neg, n, hu, -⟩ | hei
    · rw [floatLe, hdi, hu] at h
      cases neg <;> cases h
    · exact hei

/-- A Delay or a Hold that goes on has not reached its duration, or both are infinite (R198, I9). -/
theorem Voice.Sound.not_reached {f : NumFormat} {v : Voice Word} (hv : v.Sound (floatArith f)) {d : Word}
    (hd : floatLe f (f.signed false 0) d = true) (h : (floatArith f).reached (v.advanced (floatArith f)) d = false) :
    floatLt f (v.advanced (floatArith f)) d = true ∨ (v.advanced (floatArith f) = f.word f.infinity ∧ floatFinite f d = false) := by
  have he := hv.advanced_nonneg (floatArith_keepsLevels f)
  cases hle : floatLe f d (v.advanced (floatArith f)) with
  | false => exact .inl (floatLt_of_not_le he hd hle)
  | true =>
    have hf : floatFinite f d = false := (Bool.and_eq_false_iff.mp h).resolve_right (by rw [Bool.not_eq_false]; exact hle)
    exact .inr ⟨narrow_eq_infinity (infinite_of_le he hd hf hle), hf⟩

/-- Settles O39: each timed stage that goes on has failed its own exit test. -/
theorem elapsedStaysBelowTheDuration : Obligations.ElapsedStaysBelowTheDuration := by
  intro s t v w c hs hv hc h hw hst
  have hsv := hs.live v hv
  have hlegal := hsv.settings c hc
  rcases (exec_next_stepped hv h hw).stays hst with ⟨hi, -⟩ | ⟨he, c', hc', hrow⟩
  · rcases hi with hi | hi <;> simp [hst, hi]
  · cases hc.symm.trans hc'
    rcases hrow with ⟨hi, hx⟩ | ⟨hi, x, hx⟩ | ⟨hi, hx⟩ | ⟨hi, x, hx⟩ | ⟨hi, x, hx⟩ <;> simp only [hst, hi, he]
    · simpa using hsv.not_reached hlegal.delay hx
    · simpa using hx.elapsed_lt hsv hlegal.attack
    · simpa using hsv.not_reached hlegal.hold hx
    · simpa using hx.elapsed_lt hsv hlegal.decay
    · simpa using hx.elapsed_lt hsv ((floatArith_keepsLevels s.num).floor hlegal.release)

/-! `releaseStart` (R28). -/

/-- Only NOTE_OFF changes `releaseStart`, to the level. -/
theorem Voice.Leaves.releaseStart_change {O : Arith V} {c : Command V} {v w : Voice V} (h : v.Leaves O c w)
    (hne : w.releaseStart ≠ v.releaseStart) : c = .noteOff ∧ w.releaseStart = v.level ∧ w.level = v.level := by
  cases h with
  | fault | config | noteOn => exact absurd rfl hne
  | noteOff =>
    rcases v.noteOff_cases O with ⟨-, h⟩ | ⟨-, c, -, h⟩ <;> rw [h] at hne ⊢
    · exact absurd rfl hne
    · exact ⟨rfl, rfl, rfl⟩
  | next _ hw => exact absurd hw.frame.2.1 hne

/-- The registers with another `releaseStart`. -/
def Voice.withReleaseStart (r : V) (v : Voice V) : Voice V := { v with releaseStart := r }

@[simp] theorem Voice.advanced_withReleaseStart (O : Arith V) (r : V) (v : Voice V) :
    (v.withReleaseStart r).advanced O = v.advanced O := rfl

/-- The envelope with its registers, where they hold values, changed. -/
def Block.mapVoice (g : Voice V → Voice V) (b : Block V) : Block V := { b with life := b.life.mapVoice g }

/-- A stage with a curve does not look at `releaseStart` but through its curve. -/
theorem Voice.curve_withReleaseStart (O : Arith V) (d : V) {leave : Voice V → Voice V} (curve : V → V) (v : Voice V) (r : V)
    (hl : leave (v.withReleaseStart r) = (leave v).withReleaseStart r) :
    (if O.notPositive d then .done (leave (v.withReleaseStart r)) else (v.withReleaseStart r).stepCurve O d leave curve) =
      BodyResult.map (Voice.withReleaseStart r) (if O.notPositive d then .done (leave v) else v.stepCurve O d leave curve) := by
  split
  · rw [hl]; rfl
  · simp only [Voice.stepCurve, Voice.advanced_withReleaseStart]
    cases O.fraction (v.advanced O) d with
    | none => rfl
    | some x =>
      simp only
      split
      · rw [hl]; rfl
      · rfl

/-- Outside Release a stage step does not look at `releaseStart`. -/
theorem Voice.next_withReleaseStart (O : Arith V) {v : Voice V} (hs : v.stage ≠ .release) (r : V) :
    (v.withReleaseStart r).next O = (v.next O).map (Voice.withReleaseStart r) := by
  cases hp : v.phase with
  | unconfigured =>
    have hi : v.stage = .idle := by simp [Voice.stage, hp]
    rw [Voice.next_of_idle O hi, Voice.next_of_idle O (show (v.withReleaseStart r).stage = .idle from hi)]
    rfl
  | configured s c =>
    rw [Voice.next_of_configured O hp, Voice.next_of_configured O (show (v.withReleaseStart r).phase = _ from hp)]
    cases s with
    | idle | sustain => rfl
    | delay =>
      cases he : O.reached (v.advanced O) c.delay <;>
        simp only [Voice.stepConfigured, Voice.stepDelay, Voice.advanced_withReleaseStart, he] <;> rfl
    | hold =>
      cases he : O.reached (v.advanced O) c.hold <;>
        simp only [Voice.stepConfigured, Voice.stepHold, Voice.advanced_withReleaseStart, he] <;> rfl
    | attack => exact Voice.curve_withReleaseStart O _ _ v r rfl
    | decay => exact Voice.curve_withReleaseStart O _ _ v r rfl
    | release => exact absurd (Voice.phase_eq_configured.mp hp).1 hs


/-- Whether a command looks at `releaseStart` or, on this envelope, writes it: NEXT in Release, and NOTE_OFF outside Idle (R28). -/
def Command.usesReleaseStart (c : Command V) (v : Voice V) : Prop :=
  (c = .next ∧ v.stage = .release) ∨ (c = .noteOff ∧ v.stage ≠ .idle)

/-- Every other command does the same to an envelope with another `releaseStart`, that register apart. -/
theorem Command.body_withReleaseStart (O : Arith V) {b : Block V} {c : Command V} {v : Voice V} (h : ¬ c.usesReleaseStart v) (r : V) :
    c.body O (b.mapVoice (Voice.withReleaseStart r)) (v.withReleaseStart r) =
      (c.body O b v).map (Block.mapVoice (Voice.withReleaseStart r)) := by
  obtain ⟨hnext, hoff⟩ := not_or.mp h
  cases c with
  | create | destroy => rfl
  | config d a h dc s r' =>
    simp only [Command.body, Voice.config]
    split <;> rfl
  | noteOn =>
    simp only [Command.body, Voice.noteOn, show (v.withReleaseStart r).phase = v.phase from rfl]
    cases v.phase <;> rfl
  | noteOff =>
    have hi : v.stage = .idle := not_not.mp fun hs => hoff ⟨rfl, hs⟩
    simp only [Command.body, Voice.noteOff_of_idle O hi, Voice.noteOff_of_idle O (show (v.withReleaseStart r).stage = .idle from hi)]
    rfl
  | next =>
    simp only [Command.body, Voice.next_withReleaseStart O (fun hs => hnext ⟨rfl, hs⟩) r]
    cases v.next O <;> rfl

/-- The end of a command's rule where the envelope and the result are changed alike. -/
theorem Block.conclude_mapVoice {b b' : Block V} {x : BodyResult (Block V)} {g : Voice V → Voice V}
    (h : b.conclude x = .next b') : (b.mapVoice g).conclude (x.map (Block.mapVoice g)) = .next (b'.mapVoice g) := by
  rcases Block.conclude_eq_next.mp h with ⟨c, rfl, rfl⟩ | ⟨b'', rfl, rfl⟩
  · simp only [BodyResult.map, Block.conclude, Block.raise, Block.mapVoice, Block.voice]
    cases b.life <;> rfl
  · rfl

theorem Block.command_withReleaseStart {O : Arith V} {b b' : Block V} {c : Command V} {v : Voice V} (hl : b.life = .live v)
    (h : b.command O c = .next b') (hc : ¬ c.usesReleaseStart v) (r : V) :
    Block.command O c { b with life := .live (v.withReleaseStart r) } = .next (b'.mapVoice (Voice.withReleaseStart r)) := by
  have hb : { b with life := .live (v.withReleaseStart r) } = b.mapVoice (Voice.withReleaseStart r) := by
    rw [Block.mapVoice, hl, Life.mapVoice]
  rw [Block.command_of_live O c hl] at h
  rw [Block.command_of_live O c (v := v.withReleaseStart r) rfl, hb, Command.body_withReleaseStart O hc]
  exact Block.conclude_mapVoice h

/-- NOTE_OFF overwrites `releaseStart` wherever it does anything. -/
theorem Voice.noteOff_withReleaseStart (O : Arith V) {v : Voice V} (hs : v.stage ≠ .idle) (r : V) :
    (v.withReleaseStart r).noteOff O = v.noteOff O := by
  rcases v.noteOff_cases O with ⟨hi, -⟩ | ⟨-, c, hc, h⟩
  · exact absurd hi hs
  · rw [h, Voice.noteOff_of_sounding O (v := v.withReleaseStart r) (Voice.phase_eq_configured.mpr ⟨rfl, hc⟩) hs]
    rfl

theorem Block.noteOff_withReleaseStart {O : Arith V} {b b' : Block V} {v : Voice V} (hl : b.life = .live v)
    (h : b.noteOff O = .next b') (hs : v.stage ≠ .idle) (r : V) :
    Block.noteOff O { b with life := .live (v.withReleaseStart r) } = .next b' := by
  rw [Block.noteOff_of_live O (v := v.withReleaseStart r) rfl, Voice.noteOff_withReleaseStart O hs, ← h, Block.noteOff_of_live O hl]

theorem Life.mapVoice_id (l : Life V) : l.mapVoice (fun w => w) = l := by
  cases l <;> simp [Life.mapVoice]

/-- Settles O38: NOTE_OFF outside Idle overwrites `releaseStart`; every other command but NEXT in Release runs alike with another one. -/
theorem releaseStartIsTheCapturedLevel : Obligations.ReleaseStartIsTheCapturedLevel := by
  refine ⟨fun i s t v w hv h hw hne => ?_, fun i s t v r hv h hnr => ?_⟩
  · obtain ⟨hc, hr⟩ := (exec_leaves hv h hw).releaseStart_change hne
    exact ⟨@Command.ofInstr_injective i .noteOff hc, hr⟩
  · obtain ⟨b, hb, rfl⟩ := exec_eq_next.mp h
    by_cases hoff : i = .noteOff ∧ v.stage ≠ .idle
    · obtain ⟨rfl, hs⟩ := hoff
      refine exec_eq_next.mpr ⟨b, Block.noteOff_withReleaseStart hv hb hs r, ?_⟩
      simp only [hs, ne_eq, not_false_eq_true, and_self, if_true, Life.mapVoice_id]
    · have hc : ¬ (Command.ofInstr i).usesReleaseStart v := by
        rintro (⟨hn, hs⟩ | ⟨hn, hs⟩)
        · exact hnr ⟨@Command.ofInstr_injective i .next hn, hs⟩
        · exact hoff ⟨@Command.ofInstr_injective i .noteOff hn, hs⟩
      simp only [hoff, if_false]
      exact exec_eq_next.mpr ⟨_, Block.command_withReleaseStart hv hb hc r, rfl⟩

end Sys2Proof.Machine
end

section
/-! PROOFS. The memory family (spec 20_memory): the command channel, whose words are run as its commands, and the bank, whose envelopes share
nothing. -/

namespace Sys2Proof

/-! A whole command at the front of the channel (R65, R70, R73). -/

/-- The lemmas of the six commands as one. -/
theorem Instr.header_statement (i : Instr) : Laws.HeaderOfInstr.Statement i := by
  cases i with
  | create sr => exact Laws.HeaderOfInstr.create sr
  | destroy => exact Laws.HeaderOfInstr.destroy
  | config d a h dc s r => exact Laws.HeaderOfInstr.config d a h dc s r
  | noteOn => exact Laws.HeaderOfInstr.noteOn
  | noteOff => exact Laws.HeaderOfInstr.noteOff
  | next => exact Laws.HeaderOfInstr.next

/-- The decoder takes as many operand words as the header calls for, which are the command's own. -/
theorem decode_encode_append {f : NumFormat} {i : Instr} (rest : List Word) (hi : i.wellFormed f = true) :
    decode f (encode i ++ rest) = .command i rest := by
  obtain ⟨hheader, hcount, hinstr⟩ := i.header_statement
  have hfits : i.operands.all (Word.fits f) = true := hi
  rw [encode, List.cons_append, decode_header hheader, decodeOperands, ← hcount]
  simp only [List.take_left, List.drop_left, hfits, if_true, hinstr]

end Sys2Proof

namespace Sys2Proof.Machine

/-! The run of a stream (R58, R73, R90). -/

theorem step_of_command {s : State} {i : Instr} {rest : List Word} (h : decode s.num s.channel = .command i rest) :
    step s = exec i (s.withChannel rest) := by
  simp only [step, h]

theorem step_encode_append {s : State} {i : Instr} (rest : List Word) (hi : i.wellFormed s.num = true) :
    step (s.withChannel (encode i ++ rest)) = exec i (s.withChannel rest) :=
  step_of_command (s := s.withChannel (encode i ++ rest)) (decode_encode_append rest hi)

/-- A command does not look at the channel, so it runs alike with the words of the commands after it still to come and with the whole
stream already taken. -/
theorem run_stream_eq_runCommands (is : List Instr) (s : State) (rest : List Word) (his : ∀ i ∈ is, i.wellFormed s.num = true) :
    core.run is.length (s.withChannel (is.flatMap encode ++ rest)) = runCommands is (s.withChannel rest) := by
  induction is generalizing s with
  | nil => rfl
  | cons i is ih =>
    obtain ⟨hi, hrest⟩ := List.forall_mem_cons.mp his
    have hstep : core.step (s.withChannel ((i :: is).flatMap encode ++ rest)) = exec i (s.withChannel (is.flatMap encode ++ rest)) := by
      rw [List.flatMap_cons, List.append_assoc]
      exact step_encode_append _ hi
    simp only [List.length_cons, Host.Core.run, runCommands, hstep, exec_withChannel]
    cases he : exec i s with
    | next t => exact ih t fun j hj => (exec_keeps_interface he).1 ▸ hrest j hj
    | fault r => rfl
    | refused r => rfl

/-- Settles O8: by induction on the stream, each step taking its first command. -/
theorem runOfStreamIsRunOfCommands : Obligations.RunOfStreamIsRunOfCommands := run_stream_eq_runCommands

/-! The bank (R59, R183). -/

/-- What a step at place `k` leaves of the bank: all of it where the place holds no envelope, and otherwise all but that envelope. -/
theorem bankStep_eq_next {k : Nat} {bank bank' : List State} : bankStep k bank = .next bank' ↔
    (bank[k]? = none ∧ bank' = bank) ∨ ∃ s t, bank[k]? = some s ∧ step s = .next t ∧ bank' = bank.set k t := by
  unfold bankStep
  cases bank[k]? with
  | none => simp [eq_comm]
  | some s => cases hs : step s <;> simp [hs, eq_comm]

/-- A step leaves every other envelope as it was. -/
theorem bankStep_getElem?_ne {j k : Nat} {bank bank' : List State} (hjk : j ≠ k) (h : bankStep k bank = .next bank') :
    bank'[j]? = bank[j]? := by
  obtain ⟨-, rfl⟩ | ⟨s, t, -, -, rfl⟩ := bankStep_eq_next.mp h
  · rfl
  · exact List.getElem?_set_ne hjk.symm

/-- A step does not look at any other envelope. -/
theorem bankStep_of_set_ne {j k : Nat} {bank bank' : List State} {u : State} (hjk : j ≠ k) (h : bankStep k (bank.set j u) = .next bank') :
    ∃ other, bankStep k bank = .next other ∧ bank' = other.set j u := by
  simp only [bankStep_eq_next, List.getElem?_set_ne hjk] at h ⊢
  obtain ⟨hnone, rfl⟩ | ⟨s, t, hs, ht, rfl⟩ := h
  · exact ⟨bank, .inl ⟨hnone, rfl⟩, rfl⟩
  · exact ⟨bank.set k t, .inr ⟨s, t, hs, ht, rfl⟩, List.set_comm u t hjk⟩

/-- Settles O46: the second step runs alike without the first, and leaves the first one's envelope as it was. -/
theorem envelopesAreIndependent : Obligations.EnvelopesAreIndependent := by
  intro j k bank one two hjk hone htwo
  obtain ⟨hnone, rfl⟩ | ⟨s, t, hs, ht, rfl⟩ := bankStep_eq_next.mp hone
  · exact ⟨two, htwo, bankStep_eq_next.mpr (.inl ⟨(bankStep_getElem?_ne hjk htwo).trans hnone, rfl⟩)⟩
  · obtain ⟨other, hother, rfl⟩ := bankStep_of_set_ne hjk htwo
    exact ⟨other, hother, bankStep_eq_next.mpr (.inr ⟨s, t, (bankStep_getElem?_ne hjk hother).trans hs, ht, rfl⟩)⟩

end Sys2Proof.Machine
end

section
/-! PROOFS. The encoding family (spec 30_encoding): the six legal headers, the words of one command and of a stream of them, the assembler's
RUN, and the step on what stands at the front of the channel. -/

namespace Sys2Proof

/-! The header (R66, R67, R68). -/

/-- The two fields of R66 are the whole header. -/
theorem headerRsv_append_headerOp (h : BitVec 32) : headerRsv h ++ headerOp h = h :=
  (BitVec.extractLsb'_append_extractLsb'_eq_extractLsb' rfl).trans BitVec.extractLsb'_eq_self

/-- R67 gives an opcode one value of `op`, and its header word is that value with every reserved bit 0. -/
theorem encodeHeader_of_opcodeOf {x : BitVec 3} {op : Opcode} (hx : opcodeOf x = some op) : encodeHeader op = 0#29 ++ x := by
  cases op <;> revert x <;> decide

/-- Each opcode has exactly one header word. -/
theorem decodeHeader_eq_some_iff {h : BitVec 32} {op : Opcode} : decodeHeader h = some op ↔ h = encodeHeader op := by
  constructor
  · intro hd
    obtain ⟨hrsv, hop⟩ : headerRsv h = 0#29 ∧ opcodeOf (headerOp h) = some op := by simpa [decodeHeader] using hd
    rw [encodeHeader_of_opcodeOf hop, ← hrsv, headerRsv_append_headerOp]
  · rintro rfl
    exact decodeHeader_encodeHeader op

/-- Settles O2: a header decodes to something only where it is the header word of one of the six opcodes. -/
theorem legalHeadersAreTheSix : Obligations.LegalHeadersAreTheSix := by
  intro h
  simp only [Option.isSome_iff_exists, decodeHeader_eq_some_iff]
  constructor
  · rintro ⟨op, rfl⟩
    cases op <;> simp [encodeHeader]
  · rintro (h1 | h2 | h3 | h4 | h5 | h6)
    · exact ⟨.create, h1⟩
    · exact ⟨.destroy, h2⟩
    · exact ⟨.config, h3⟩
    · exact ⟨.noteOn, h4⟩
    · exact ⟨.noteOff, h5⟩
    · exact ⟨.next, h6⟩

/-! The words of a command, and of a stream of commands (R65, R70, R73, R75). -/

/-- Settles O3: the header's opcode takes as many operand words as the command has. -/
theorem decodeOfEncode : Obligations.DecodeOfEncode := fun _ _ rest hi => decode_encode_append rest hi

/-- A stream decodes to the command at its front, then to what the words after it decode to. -/
theorem decodeStream_of_command {f : NumFormat} {n : Nat} {i : Instr} {ws rest : List Word} (h : decode f ws = .command i rest) :
    decodeStream f (n + 1) ws = i :: decodeStream f n rest := by
  simp only [decodeStream, h]

/-- The decoder leaves exactly the words of the commands after the first, so the stream decodes command by command. -/
theorem decodeStream_flatMap_encode {f : NumFormat} (is : List Instr) (rest : List Word) (his : ∀ i ∈ is, i.wellFormed f = true) :
    decodeStream f is.length (is.flatMap encode ++ rest) = is := by
  induction is with
  | nil => rfl
  | cons i is ih =>
    obtain ⟨hi, hrest⟩ := List.forall_mem_cons.mp his
    rw [List.flatMap_cons, List.append_assoc, List.length_cons, decodeStream_of_command (decode_encode_append _ hi), ih hrest]

/-- Settles O4: by induction on the stream, the decoder taking its first command. -/
theorem streamDecodesToItsCommands : Obligations.StreamDecodesToItsCommands := fun _ is rest his =>
  decodeStream_flatMap_encode is rest his

/-- Settles O1: the words written out from the spec are those of well-formed commands, or have a header with a reserved bit set. -/
theorem writtenWordsDecode : Obligations.WrittenWordsDecode :=
  ⟨decode_encode_append (i := .create _) [] rfl, decode_encode_append (i := .create _) [] rfl,
    decode_encode_append (i := .destroy) [] rfl, decode_encode_append (i := .config _ _ _ _ _ _) [] rfl,
    decode_encode_append (i := .noteOn) [] rfl, decode_encode_append (i := .noteOff) [] rfl,
    decode_encode_append (i := .next) [] rfl, decode_illegal (decodeHeader_of_rsv (by decide)),
    decode_illegal (decodeHeader_of_rsv (by decide))⟩

end Sys2Proof

namespace Sys2Proof.Machine

/-! The assembler's RUN (R77). -/

/-- Settles O5: NEXT is its header word alone, so `n` of them are `n` words. -/
theorem runExpandsToNexts : Obligations.RunExpandsToNexts := by
  intro f n
  have hnext : encode .next = [.w32 0x00000006#32] := rfl
  rw [AsmLine.assemble, hnext, List.flatten_replicate_singleton]

/-! The step on what stands at the front of the channel (R65, R68, R73, R185). -/

theorem Block.illegal_of_faulted {V : Type} {b : Block V} (h : b.life.isFaulted = true) : b.illegal = b.count := if_pos h

theorem Block.illegal_of_not_faulted {V : Type} {b : Block V} (h : b.life.isFaulted = false) : b.illegal = b.raise .illegalCommand :=
  if_neg (by simp [h])

theorem step_of_incomplete {s : State} (h : decode s.num s.channel = .incomplete) : step s = .next s := by
  simp only [step, h]

theorem step_of_operandWidth {s : State} (h : decode s.num s.channel = .operandWidth) : step s = .refused .operandWidth := by
  simp only [step, h]

/-- A word that spells no command is only counted where the envelope is Faulted (R173). -/
theorem step_of_illegal_of_faulted {s : State} {rest : List Word} (h : decode s.num s.channel = .illegal rest)
    (hf : s.life.isFaulted = true) : step s = .next { s with channel := rest, cmdIndex := s.cmdIndex + 1 } := by
  rw [step_of_illegal h, Block.illegal_of_faulted hf]
  rfl

/-- In every other life it raises ILLEGAL_COMMAND, with the effect of R172. -/
theorem step_of_illegal_of_not_faulted {s : State} {rest : List Word} (h : decode s.num s.channel = .illegal rest)
    (hf : s.life.isFaulted = false) :
    step s = .next { s with
      channel := rest, life := .faulted s.life.voice, fault := ⟨.illegalCommand, s.cmdIndex⟩, cmdIndex := s.cmdIndex + 1 } := by
  rw [step_of_illegal h, Block.illegal_of_not_faulted hf]
  rfl

/-- Settles O6: the step is its rule for each answer of the decoder, the illegal word's by the life it finds. -/
theorem stepRunsTheDecodedCommand : Obligations.StepRunsTheDecodedCommand := by
  refine fun s => ⟨fun i rest h => step_of_command h, fun rest h => ?_, step_of_incomplete, step_of_operandWidth⟩
  cases hf : s.life.isFaulted with
  | true => exact step_of_illegal_of_faulted h hf
  | false => exact step_of_illegal_of_not_faulted h hf

/-- Settles O7: a reserved bit leaves the header no meaning, so its one word is illegal. -/
theorem reservedBitsRaiseIllegalCommand : Obligations.ReservedBitsRaiseIllegalCommand := by
  intro s h rest hrsv hf hc
  have hd : decode s.num s.channel = .illegal rest := by rw [hc, decode_illegal (decodeHeader_of_rsv hrsv)]
  exact step_of_illegal_of_not_faulted hd hf

end Sys2Proof.Machine
end

section
/-! PROOFS. The lifecycle family (spec 40_lifecycle): the table of the lifecycle check, CREATE, DESTROY, and the destroyed envelope. -/

namespace Sys2Proof.Machine

variable {V : Type}

/-! The lifecycle check (R91). -/

theorem Command.isCreate_ofInstr {i : Instr} (hi : ∀ sr, i ≠ .create sr) : (Command.ofInstr i).isCreate = false := by
  cases i with
  | create sr => exact absurd rfl (hi sr)
  | destroy | config | noteOn | noteOff | next => rfl

/-- An instruction whose command raises a fault writes the record, the life and the count, and nothing else (R172). -/
theorem exec_of_raise {i : Instr} {s : State} {code : FaultCode}
    (h : s.toBlock.command s.arith (Command.ofInstr i) = .next (s.toBlock.raise code)) :
    exec i s = .next { s with life := .faulted s.life.voice, fault := ⟨code, s.cmdIndex⟩, cmdIndex := s.cmdIndex + 1 } :=
  exec_eq_next.mpr ⟨_, h, rfl⟩

theorem exec_of_uncreated {i : Instr} {s : State} (hl : s.life = .uncreated) (hi : ∀ sr, i ≠ .create sr) :
    exec i s = .next { s with life := .faulted none, fault := ⟨.noInstance, s.cmdIndex⟩, cmdIndex := s.cmdIndex + 1 } := by
  rw [exec_of_raise (Block.command_of_uncreated _ hl (Command.isCreate_ofInstr hi)), hl, Life.voice_uncreated]

theorem exec_create_of_live (sr : Word) {s : State} {v : Voice Word} (hl : s.life = .live v) :
    exec (.create sr) s =
      .next { s with life := .faulted (some v), fault := ⟨.alreadyCreated, s.cmdIndex⟩, cmdIndex := s.cmdIndex + 1 } := by
  rw [exec_of_raise (Block.command_of_live _ (.create sr) hl), hl, Life.voice_live]

theorem exec_of_destroyed (i : Instr) {s : State} (hl : s.life = .destroyed) :
    exec i s =
      .next { s with life := .faulted none, fault := ⟨.useAfterDestroy, s.cmdIndex⟩, cmdIndex := s.cmdIndex + 1 } := by
  rw [exec_of_raise (Block.command_of_destroyed _ _ hl), hl, Life.voice_destroyed]

/-! What a command raises once the lifecycle check has accepted it. -/

/-- CREATE's rule raises nothing but BAD_SAMPLE_RATE (R92). -/
theorem Block.createBody_eq_raises {O : Arith V} {b : Block V} {sr : V} {code : FaultCode} :
    b.createBody O sr = .raises code ↔ O.goodRate sr = false ∧ code = .badSampleRate := by
  unfold Block.createBody
  cases O.goodRate sr <;> simp [eq_comm]

/-- CONFIG's rule raises nothing but NONFINITE_OPERAND (R102). -/
theorem Voice.config_eq_raises {O : Arith V} {d a h dc s r : V} {v : Voice V} {code : FaultCode} :
    v.config O d a h dc s r = .raises code ↔ O.allFinite [d, a, h, dc, s, r] = false ∧ code = .nonfiniteOperand := by
  unfold Voice.config
  cases O.allFinite [d, a, h, dc, s, r] <;> simp [eq_comm]

/-- On a Live envelope a command other than CREATE raises a fault of its operands or of the unset configuration. -/
theorem Command.body_raises {O : Arith V} {b : Block V} {c : Command V} {v : Voice V} {code : FaultCode}
    (hc : c.isCreate = false) (h : c.body O b v = .raises code) : code = .nonfiniteOperand ∨ code = .unconfigured := by
  cases c with
  | create => cases hc
  | destroy | noteOff => cases h
  | config => exact .inl (Voice.config_eq_raises.mp (BodyResult.map_eq_raises.mp h)).2
  | noteOn => exact .inr (Voice.noteOn_eq_raises.mp (BodyResult.map_eq_raises.mp h)).2
  | next => exact absurd (BodyResult.map_eq_raises.mp h) Voice.next_ne_raises

/-- A command that is done leaves no Faulted life. -/
theorem Command.body_done_not_faulted {O : Arith V} {b b' : Block V} {c : Command V} {v : Voice V}
    (h : c.body O b v = .done b') : b'.life.isFaulted = false := by
  cases c with
  | create => cases h
  | destroy | noteOff => cases h; rfl
  | config | noteOn | next => obtain ⟨w, -, rfl⟩ := BodyResult.map_eq_done.mp h; rfl

/-- Where a rule that is done leaves no Faulted life, the recorded fault of a Faulted envelope is the one that the rule raised. -/
theorem Block.conclude_raised {b b' : Block V} {r : BodyResult (Block V)} (hr : ∀ d, r = .done d → d.life.isFaulted = false)
    (h : b.conclude r = .next b') (hf : b'.life.isFaulted = true) : r = .raises b'.fault.code := by
  rcases Block.conclude_eq_next.mp h with ⟨code, hc, rfl⟩ | ⟨d, hd, rfl⟩
  · exact hc
  · exact absurd hf (by simp [hr d hd])

/-- Before CREATE, CREATE's own rule runs (R92). -/
theorem Block.create_of_uncreated (O : Arith V) (sr : V) {b : Block V} (hl : b.life = .uncreated) :
    b.command O (.create sr) = b.conclude (b.createBody O sr) :=
  Block.frame_of_uncreated hl

theorem Block.create_fault_of_uncreated {O : Arith V} {b b' : Block V} {sr : V} (hl : b.life = .uncreated)
    (h : b.command O (.create sr) = .next b') (hf : b'.life.isFaulted = true) : b'.fault.code = .badSampleRate := by
  rw [Block.create_of_uncreated O sr hl] at h
  refine (Block.createBody_eq_raises.mp (Block.conclude_raised (fun d hd => ?_) h hf)).2
  rw [(Block.createBody_eq_done.mp hd).2]
  rfl

theorem Block.command_fault_of_live {O : Arith V} {b b' : Block V} {c : Command V} {v : Voice V} (hl : b.life = .live v)
    (hc : c.isCreate = false) (h : b.command O c = .next b') (hf : b'.life.isFaulted = true) :
    b'.fault.code = .nonfiniteOperand ∨ b'.fault.code = .unconfigured := by
  rw [Block.command_of_live O c hl] at h
  exact Command.body_raises hc (Block.conclude_raised (fun _ => Command.body_done_not_faulted) h hf)

/-- Settles O10: by the life the command finds; where the table accepts, the fault is one that the command's own rule raises. -/
theorem lifecycleCheck : Obligations.LifecycleCheck := by
  refine fun i s => ⟨exec_of_uncreated, fun v hl ⟨sr, hi⟩ => hi ▸ exec_create_of_live sr hl, exec_of_destroyed i, ?_⟩
  intro haccept t h hf
  obtain ⟨b, hb, rfl⟩ := exec_eq_next.mp h
  rcases haccept with ⟨hl, sr, rfl⟩ | ⟨⟨v, hl⟩, hi⟩
  · simp [Block.create_fault_of_uncreated hl hb hf]
  · rcases Block.command_fault_of_live hl (Command.isCreate_ofInstr hi) hb hf with hcode | hcode <;> simp [hcode]

/-! After DESTROY (R94). -/

/-- What every step of a machine keeps holds after any number of steps. -/
theorem run_keeps {M : Host.Core} {P : M.State → Prop} (hstep : ∀ s t, P s → M.step s = .next t → P t) {n : Nat}
    {s t : M.State} (hs : P s) (h : M.run n s = .next t) : P t := by
  induction n generalizing s with
  | zero => cases h; exact hs
  | succ n ih =>
    rw [Host.Core.run] at h
    cases hst : M.step s with
    | next u => rw [hst] at h; exact ih (hstep s u hs hst) h
    | fault r | refused r => rw [hst] at h; cases h

/-- The envelope is destroyed, or was when it faulted: no register of `Voice` holds a value any more (R93, R172). -/
def Block.Gone (b : Block V) : Prop := b.life = .destroyed ∨ b.life = .faulted none

theorem Block.Gone.voice_eq_none {b : Block V} (h : b.Gone) : b.voice = none := by
  rcases h with h | h <;> simp [Block.voice, h]

theorem Block.Gone.count {b : Block V} (h : b.Gone) : b.count.Gone := h

theorem Block.Gone.raise {b : Block V} (h : b.Gone) (code : FaultCode) : (b.raise code).Gone :=
  .inr (congrArg Life.faulted h.voice_eq_none)

theorem Block.Gone.command {O : Arith V} {b b' : Block V} {c : Command V} (hb : b.Gone) (h : b.command O c = .next b') :
    b'.Gone := by
  rcases hb with hl | hl
  · rw [Block.command_of_destroyed O c hl] at h
    cases h
    exact Block.Gone.raise (.inl hl) _
  · rw [Block.command_of_faulted O c (by simp [hl])] at h
    cases h
    exact Block.Gone.count (.inr hl)

theorem Block.Gone.illegal {b : Block V} (h : b.Gone) : b.illegal.Gone := by
  unfold Block.illegal
  split
  · exact h.count
  · exact h.raise _

theorem step_keeps_gone {s t : State} (hs : s.toBlock.Gone) (h : step s = .next t) : t.toBlock.Gone := by
  rcases step_cases h with ⟨i, rest, -, he⟩ | ⟨rest, -, rfl⟩ | ⟨-, rfl⟩
  · obtain ⟨b, hb, rfl⟩ := exec_eq_next.mp he
    exact Block.Gone.command hs hb
  · exact hs.illegal
  · exact hs

/-- Settles O14: every step keeps a destroyed envelope destroyed, or Faulted without its registers. -/
theorem destroyedIsNeverLiveAgain : Obligations.DestroyedIsNeverLiveAgain := fun _ _ _ hl h =>
  run_keeps (M := core) (P := fun s => s.toBlock.Gone) (fun _ _ => step_keeps_gone) (.inl hl) h

/-! CREATE (R92). -/

theorem exec_create_of_goodRate {s : State} {sr : Word} (hl : s.life = .uncreated) (hg : s.arith.goodRate sr = true) :
    exec (.create sr) s = .next { s with
      life := .live (Voice.fresh s.arith sr), fault := ⟨.none, 0⟩, cmdIndex := s.cmdIndex + 1 } := by
  rw [exec_eq_lift, Command.ofInstr, Block.create_of_uncreated _ sr hl, Block.createBody_eq_done.mpr ⟨hg, rfl⟩]
  rfl

theorem exec_create_of_badRate {s : State} {sr : Word} (hl : s.life = .uncreated) (hg : s.arith.goodRate sr = false) :
    exec (.create sr) s =
      .next { s with life := .faulted none, fault := ⟨.badSampleRate, s.cmdIndex⟩, cmdIndex := s.cmdIndex + 1 } := by
  have hraise : s.toBlock.command s.arith (.create sr) = .next (s.toBlock.raise .badSampleRate) := by
    rw [Block.create_of_uncreated _ sr hl, Block.createBody_eq_raises.mpr ⟨hg, rfl⟩]
    rfl
  rw [exec_of_raise hraise, hl, Life.voice_uncreated]

/-- Settles O16: before CREATE the check of the operand decides, and in the two other lives the lifecycle check. -/
theorem createResetsTheEnvelope : Obligations.CreateResetsTheEnvelope := by
  refine fun s sr => ⟨rfl, fun hl hfin hpos => ?_, fun hl hbad => ?_, fun v => exec_create_of_live sr, exec_of_destroyed _⟩
  · exact exec_create_of_goodRate hl (Bool.and_eq_true_iff.mpr ⟨hfin, hpos⟩)
  · exact exec_create_of_badRate hl (Bool.and_eq_false_iff.mpr hbad)

/-! DESTROY (R93). -/

theorem exec_destroy_of_live {s : State} {v : Voice Word} (hl : s.life = .live v) :
    exec .destroy s = .next { s with life := .destroyed, cmdIndex := s.cmdIndex + 1 } :=
  exec_eq_next.mpr ⟨_, Block.command_of_live _ .destroy hl, rfl⟩

/-- Settles O17: by the life DESTROY finds; the envelope it leaves has the destroyed life, in which every command faults. -/
theorem destroyEndsTheEnvelope : Obligations.DestroyEndsTheEnvelope := fun _ =>
  ⟨rfl, fun _ hl => ⟨exec_destroy_of_live hl, fun i => exec_of_destroyed i rfl⟩,
    fun hl => exec_of_uncreated hl nofun, exec_of_destroyed _⟩

end Sys2Proof.Machine
end

section
/-! PROOFS. The configuration family (spec 41_configuration): what CONFIG writes and leaves, the limits of its conversions in the floating
formats, its conversions and clamps under `real`, and the commands that do nothing more the second time. -/

namespace Sys2Proof

/-! `pow2` and `pow10` of a finite operand (I3 g). -/

/-- Settles O51: the answer has a rank, which is not below that of 0. -/
theorem powersAreNeverNegative : Obligations.PowersAreNeverNegative := by
  intro f w hw
  obtain ⟨u, hu⟩ := isUnits_of_finite hw
  obtain ⟨-, -, r, hr, hr0, -⟩ := floatPow2_spec hu
  obtain ⟨-, s, hs, hs0, -⟩ := floatPow10_spec hu
  exact ⟨Machine.floatLe_zero_iff.mpr ⟨r, hr, hr0⟩, Machine.floatLe_zero_iff.mpr ⟨s, hs, hs0⟩⟩

/-! Whole numbers as values of a floating format. -/

/-- A whole number that the precision holds is a value of the format. -/
theorem exists_magnitude_whole (f : NumFormat) {n : Nat} (hn : n < 2 ^ f.precision) :
    ∃ m, m < f.infinity ∧ magnitudeValue f m = n * f.unit := by
  rcases Nat.eq_zero_or_pos n with rfl | hpos
  · exact ⟨0, infinity_pos f, by simp⟩
  have hlog : n.log2 < f.precision := (Nat.log2_lt hpos.ne').mpr hn
  have hscale : f.precision - 1 ≤ f.scale := by cases f <;> decide
  -- The leading bit of `n`, moved to the top of the precision.
  have hkept : n * 2 ^ (f.precision - 1 - n.log2) < 2 ^ f.precision := by
    calc n * 2 ^ (f.precision - 1 - n.log2)
        < 2 ^ (n.log2 + 1) * 2 ^ (f.precision - 1 - n.log2) := Nat.mul_lt_mul_of_pos_right Nat.lt_log2_self (Nat.two_pow_pos _)
      _ = 2 ^ f.precision := by rw [← pow_add]; congr 1; omega
  have hlead : 2 ^ (f.precision - 1) ≤ n * 2 ^ (f.precision - 1 - n.log2) := by
    calc 2 ^ (f.precision - 1) = 2 ^ n.log2 * 2 ^ (f.precision - 1 - n.log2) := by rw [← pow_add]; congr 1; omega
      _ ≤ n * 2 ^ (f.precision - 1 - n.log2) := Nat.mul_le_mul_right _ (Nat.log2_self_le hpos.ne')
  refine ⟨(f.scale - (f.precision - 1 - n.log2)) * 2 ^ (f.precision - 1) + n * 2 ^ (f.precision - 1 - n.log2), ?_, ?_⟩
  · have htop : f.scale * 2 ^ (f.precision - 1) + 2 ^ f.precision < f.infinity := by cases f <;> decide
    have hshift := Nat.mul_le_mul_right (2 ^ (f.precision - 1)) (Nat.sub_le f.scale (f.precision - 1 - n.log2))
    omega
  · rw [(magnitudeValue_below f hkept (.inr hlead)).1, mul_assoc, ← pow_add, NumFormat.unit]
    congr 2
    omega

theorem isUnits_whole (f : NumFormat) {n : Nat} (hn : n < 2 ^ f.precision) :
    IsUnits f (Literal.word f ⟨n, 1⟩) ((n * f.unit : Nat) : Int) :=
  isUnits_narrow f (exists_magnitude_whole f hn) Nat.one_pos (Nat.mul_one _).symm

/-- A fraction of a whole number that the precision holds does not overflow. -/
theorem roundMagnitude_whole_lt_infinity (f : NumFormat) {n d : Nat} (hn : n < 2 ^ f.precision) (hd : 0 < d) :
    roundMagnitude f (n * f.unit) d < f.infinity := by
  obtain ⟨m, hm, hv⟩ := exists_magnitude_whole f hn
  calc roundMagnitude f (n * f.unit) d
      ≤ roundMagnitude f (magnitudeValue f m) 1 := roundMagnitude_mono f hd Nat.one_pos (hv ▸ Nat.mul_le_mul_left _ hd)
    _ = m := roundMagnitude_exact_one f hm.le
    _ < f.infinity := hm

theorem IsUnits.le_whole_iff {f : NumFormat} {a : Word} {u : Int} (ha : IsUnits f a u) {n : Nat} (hn : n < 2 ^ f.precision) :
    (floatLe f a (Literal.word f ⟨n, 1⟩) = true ↔ u ≤ (n : Int) * f.unit) ∧
    (floatLe f (Literal.word f ⟨n, 1⟩) a = true ↔ (n : Int) * f.unit ≤ u) ∧
    (floatLe f a (floatNeg f (Literal.word f ⟨n, 1⟩)) = true ↔ u ≤ -((n : Int) * f.unit)) ∧
    (floatLe f (floatNeg f (Literal.word f ⟨n, 1⟩)) a = true ↔ -((n : Int) * f.unit) ≤ u) := by
  have hw := isUnits_whole f hn
  rw [Nat.cast_mul] at hw
  have hm := floatNeg_units hw
  exact ⟨ha.le_iff hw, hw.le_iff ha, ha.le_iff hm, hm.le_iff ha⟩

end Sys2Proof

namespace Sys2Proof.Machine

variable {V : Type}

/-! The limits of the durations (R103, R107). -/

/-- The quotient of a finite duration operand by `TC_PER_OCTAVE` lies where its operand lies among the whole time-cents (R100). -/
theorem timecents_quotient {f : NumFormat} {tc : Word} (h : floatFinite f tc = true) :
    ∃ x, IsUnits f (floatDiv f tc (Config.tcPerOctave.word f)) x ∧ ∀ n : Nat, n < 2 ^ f.precision →
      (floatLe f tc (Literal.word f ⟨n, 1⟩) = true → x ≤ Literal.units f ⟨n, 1200⟩) ∧
      (floatLe f (Literal.word f ⟨n, 1⟩) tc = true → (Literal.units f ⟨n, 1200⟩ : Int) ≤ x) ∧
      (floatLe f tc (floatNeg f (Literal.word f ⟨n, 1⟩)) = true → x ≤ -(Literal.units f ⟨n, 1200⟩ : Int)) ∧
      (floatLe f (floatNeg f (Literal.word f ⟨n, 1⟩)) tc = true → -(Literal.units f ⟨n, 1200⟩ : Int) ≤ x) := by
  obtain ⟨u, hu⟩ := isUnits_of_finite h
  obtain ⟨x, hx, hlit⟩ := floatDiv_literal hu (isUnits_tcPerOctave f) (by decide)
  refine ⟨x, hx, fun n hn => ?_⟩
  obtain ⟨hle, hge, hle', hge'⟩ := hu.le_whole_iff hn
  rw [hle, hge, hle', hge']
  exact hlit n (roundMagnitude_whole_lt_infinity f hn (by decide))

theorem max_zero_zero (f : NumFormat) : (floatArith f).max (floatArith f).zero (floatArith f).zero = (floatArith f).zero :=
  ite_self _

/-- The time-cents from which on the power overflows: `TC_PER_OCTAVE` for each octave up to the first that is no number of the
format (R107; G3). -/
def overflowTimecents (f : NumFormat) : Nat := 1200 * (f.maxExponent + 1)

theorem tcUnderflow_lt (f : NumFormat) : f.tcUnderflow < 2 ^ f.precision := by cases f <;> decide
theorem tcLeast_lt (f : NumFormat) : f.tcLeast < 2 ^ f.precision := by cases f <;> decide
theorem overflowTimecents_lt (f : NumFormat) : overflowTimecents f < 2 ^ f.precision := by cases f <;> decide

/-- The octave of the overflow threshold is exact, and one time-cent below it the quotient is below that octave. -/
theorem overflowTimecents_units (f : NumFormat) :
    (Literal.units f ⟨overflowTimecents f, 1200⟩ : Int) = ((f.maxExponent : Int) + 1) * f.unit ∧
    (Literal.units f ⟨overflowTimecents f - 1, 1200⟩ : Int) < ((f.maxExponent : Int) + 1) * f.unit := by
  cases f <;> decide +kernel

theorem ingestDuration_eq_zero {f : NumFormat} {tc : Word} (hf : floatFinite f tc = true)
    (h : floatLe f tc (floatNeg f (Literal.word f ⟨f.tcUnderflow, 1⟩)) = true) : (floatArith f).ingestDuration tc = f.word 0 := by
  obtain ⟨x, hx, hlim⟩ := timecents_quotient hf
  obtain ⟨-, hzero, -⟩ := floatPow2_spec hx
  obtain ⟨-, -, hbelow, -⟩ := hlim _ (tcUnderflow_lt f)
  have hp : (floatArith f).timecentsToSeconds tc = (floatArith f).zero := hzero (hbelow h)
  rw [Arith.ingestDuration, hp]
  exact max_zero_zero f

theorem ingestDuration_pos {f : NumFormat} {tc : Word} (hf : floatFinite f tc = true)
    (h : floatLe f (floatNeg f (Literal.word f ⟨f.tcLeast, 1⟩)) tc = true) :
    floatLt f (f.word 0) ((floatArith f).ingestDuration tc) = true := by
  obtain ⟨x, hx, hlim⟩ := timecents_quotient hf
  obtain ⟨-, -, r, hr, -, hpos, -⟩ := floatPow2_spec hx
  obtain ⟨-, -, -, habove⟩ := hlim _ (tcLeast_lt f)
  exact (floatLt_of_rank (rank_zero f) (rank_max (rank_zero f) hr)).mpr
    (lt_of_lt_of_le (hpos (habove h)) (Nat.le_max_right _ _))

theorem ingestDuration_eq_infinity {f : NumFormat} {tc : Word} (hf : floatFinite f tc = true)
    (h : floatLe f (Literal.word f ⟨overflowTimecents f, 1⟩) tc = true) :
    (floatArith f).ingestDuration tc = f.word f.infinity := by
  obtain ⟨x, hx, hlim⟩ := timecents_quotient hf
  obtain ⟨hinf, -⟩ := floatPow2_spec hx
  obtain ⟨-, habove, -⟩ := hlim _ (overflowTimecents_lt f)
  have hp : (floatArith f).timecentsToSeconds tc = f.signed false f.infinity :=
    hinf ((overflowTimecents_units f).1 ▸ habove h)
  rw [Arith.ingestDuration, hp]
  exact if_pos (floatLe_zero_iff.mpr ⟨_, rank_infinity f, (zeroRank_pos f).2.le⟩)

theorem ingestDuration_finite {f : NumFormat} {tc : Word} (hf : floatFinite f tc = true)
    (h : floatLe f tc (Literal.word f ⟨overflowTimecents f - 1, 1⟩) = true) :
    floatFinite f ((floatArith f).ingestDuration tc) = true := by
  obtain ⟨x, hx, hlim⟩ := timecents_quotient hf
  obtain ⟨-, -, r, hr, hr0, -, hfin⟩ := floatPow2_spec hx
  obtain ⟨hbelow, -⟩ := hlim _ (lt_of_le_of_lt (Nat.sub_le _ 1) (overflowTimecents_lt f))
  have htop := hfin (lt_of_le_of_lt (hbelow h) (overflowTimecents_units f).2)
  have hz := zeroRank_pos f
  refine (floatFinite_of_rank (rank_max (rank_zero f) hr)).mpr ⟨lt_of_lt_of_le hz.1 (Nat.le_max_left _ _), ?_⟩
  exact Nat.max_lt.mpr ⟨hz.2, htop⟩

/-! The limits of the sustain (R104, R107). -/

/-- The quotient of a finite sustain operand, negated, by `CB_PER_DECADE` lies where its operand lies among the whole centibels (R101). -/
theorem centibels_quotient {f : NumFormat} {cb : Word} (h : floatFinite f cb = true) :
    ∃ x, IsUnits f (floatDiv f (floatNeg f cb) (Config.cbPerDecade.word f)) x ∧ ∀ n : Nat, n < 2 ^ f.precision →
      (floatLe f (Literal.word f ⟨n, 1⟩) cb = true → x ≤ -(Literal.units f ⟨n, 200⟩ : Int)) ∧
      (floatLe f cb (Literal.word f ⟨n, 1⟩) = true → -(Literal.units f ⟨n, 200⟩ : Int) ≤ x) := by
  obtain ⟨u, hu⟩ := isUnits_of_finite h
  obtain ⟨x, hx, hlit⟩ := floatDiv_literal (floatNeg_units hu) (isUnits_cbPerDecade f) (by decide)
  refine ⟨x, hx, fun n hn => ?_⟩
  obtain ⟨-, -, hbelow, habove⟩ := hlit n (roundMagnitude_whole_lt_infinity f hn (by decide))
  obtain ⟨hle, hge, -⟩ := hu.le_whole_iff hn
  rw [hle, hge]
  exact ⟨fun h => hbelow (by omega), fun h => habove (by omega)⟩

theorem cbUnderflow_lt (f : NumFormat) : f.cbUnderflow < 2 ^ f.precision := by cases f <;> decide
theorem cbLeast_lt (f : NumFormat) : f.cbLeast < 2 ^ f.precision := by cases f <;> decide

theorem ingestSustain_of_negative {f : NumFormat} {cb : Word} (h : floatLt f cb (f.word 0) = true) :
    (floatArith f).ingestSustain cb = Literal.word f ⟨1, 1⟩ := if_pos h

theorem ingestSustain_of_not_negative {f : NumFormat} {cb : Word} (h : floatLt f cb (f.word 0) = false) :
    (floatArith f).ingestSustain cb =
      (floatArith f).clamp ((floatArith f).cbAttenToLin cb) (floatArith f).zero (floatArith f).one :=
  if_neg (Bool.eq_false_iff.mp h)

/-- An attenuation not below a whole number is not negative. -/
theorem not_negative_of_whole_le {f : NumFormat} {cb : Word} {n : Nat} (h : floatLe f (Literal.word f ⟨n, 1⟩) cb = true) :
    floatLt f cb (f.word 0) = false := by
  have h0 : floatLe f (f.word 0) cb = true :=
    floatLe_trans (floatLe_zero_iff.mpr ⟨_, rank_literal f ⟨n, 1⟩, Nat.le_add_right _ _⟩) h
  simp [floatLt, h0]

theorem ingestSustain_eq_zero {f : NumFormat} {cb : Word} (hf : floatFinite f cb = true)
    (h : floatLe f (Literal.word f ⟨f.cbUnderflow, 1⟩) cb = true) : (floatArith f).ingestSustain cb = f.word 0 := by
  obtain ⟨x, hx, hlim⟩ := centibels_quotient hf
  obtain ⟨hzero, -⟩ := floatPow10_spec hx
  obtain ⟨hbelow, -⟩ := hlim _ (cbUnderflow_lt f)
  have hp : (floatArith f).cbAttenToLin cb = (floatArith f).zero := hzero (hbelow h)
  have hone : ¬ floatLe f (Literal.word f ⟨1, 1⟩) (f.signed false 0) = true := by
    rw [floatLe_of_rank (rank_literal f ⟨1, 1⟩) (rank_zero f)]
    exact not_le.mpr (zeroRank_lt_oneRank f).1
  rw [ingestSustain_of_not_negative (not_negative_of_whole_le h), hp, Arith.clamp, max_zero_zero]
  exact if_neg hone

theorem ingestSustain_pos {f : NumFormat} {cb : Word} (hf : floatFinite f cb = true)
    (h : floatLe f cb (Literal.word f ⟨f.cbLeast, 1⟩) = true) :
    floatLt f (f.word 0) ((floatArith f).ingestSustain cb) = true := by
  have hone := (zeroRank_lt_oneRank f).1
  cases hneg : floatLt f cb (f.word 0) with
  | true =>
    rw [ingestSustain_of_negative hneg]
    exact (floatLt_of_rank (rank_zero f) (rank_literal f ⟨1, 1⟩)).mpr hone
  | false =>
    obtain ⟨x, hx, hlim⟩ := centibels_quotient hf
    obtain ⟨-, r, hr, -, hpos⟩ := floatPow10_spec hx
    obtain ⟨-, habove⟩ := hlim _ (cbLeast_lt f)
    have hrank := rank_min (rank_literal f ⟨1, 1⟩) (rank_max (rank_zero f) hr)
    rw [ingestSustain_of_not_negative hneg]
    exact (floatLt_of_rank (rank_zero f) hrank).mpr (Nat.lt_min.mpr ⟨hone, lt_of_lt_of_le (hpos (habove h)) (Nat.le_max_right _ _)⟩)

/-- Settles O22: the numbers are the thresholds of `pow2` and `pow10`, and a quotient, rounded, stays on its operand's side of each. -/
theorem conversionLimits : Obligations.ConversionLimits := by
  intro f zeroTc leastTc infiniteTc zeroCb leastCb tc cb hrow htc hcb
  obtain ⟨rfl, rfl, rfl, rfl, rfl⟩ : zeroTc = f.tcUnderflow ∧ leastTc = f.tcLeast ∧ infiniteTc = overflowTimecents f ∧
      zeroCb = f.cbUnderflow ∧ leastCb = f.cbLeast := by
    simp only [List.mem_cons, Prod.mk.injEq, List.not_mem_nil, or_false] at hrow
    rcases hrow with ⟨rfl, h⟩ | ⟨rfl, h⟩ <;> exact h
  exact ⟨ingestDuration_eq_zero htc, ingestDuration_pos htc, ingestDuration_eq_infinity htc, ingestDuration_finite htc,
    ingestSustain_of_negative, ingestSustain_eq_zero hcb, ingestSustain_pos hcb⟩

/-! The conversions (R100, R101). -/

/-- In both formats the two conversions are exact at 0, and 200 centibels are the format's 0.1: `pow2` and `pow10` are exact at 0 and
correctly rounded at -1 (I3 f). -/
theorem float_conversions_at_integers (f : NumFormat) :
    (floatArith f).timecentsToSeconds (f.word 0) = Literal.word f ⟨1, 1⟩ ∧
    (floatArith f).cbAttenToLin (f.word 0) = Literal.word f ⟨1, 1⟩ ∧
    (floatArith f).cbAttenToLin (Literal.word f ⟨200, 1⟩) = Literal.word f ⟨1, 10⟩ := by
  cases f <;> decide +kernel

theorem realArith_timecentsToSeconds (tc : ℝ) : realArith.timecentsToSeconds tc = (2 : ℝ) ^ (tc / 1200) := by
  simp [Arith.timecentsToSeconds]

theorem realArith_cbAttenToLin (cb : ℝ) : realArith.cbAttenToLin cb = (10 : ℝ) ^ (-cb / 200) := by
  simp [Arith.cbAttenToLin]

theorem realArith_timecentsToSeconds_pos (tc : ℝ) : 0 < realArith.timecentsToSeconds tc := by
  rw [realArith_timecentsToSeconds]
  positivity

theorem realArith_timecentsToSeconds_octave (tc : ℝ) :
    realArith.timecentsToSeconds (tc + 1200) = 2 * realArith.timecentsToSeconds tc := by
  rw [realArith_timecentsToSeconds, realArith_timecentsToSeconds, add_div, div_self (by norm_num),
    Real.rpow_add_one (by norm_num), mul_comm]

/-- Settles O53: in the floating formats by the exact integer powers, under `real` by the laws of real powers. -/
theorem unitConversions : Obligations.UnitConversions := by
  refine ⟨fun _ _ => ⟨rfl, rfl⟩, float_conversions_at_integers, fun tc => ⟨realArith_timecentsToSeconds tc,
    realArith_timecentsToSeconds_pos tc, realArith_timecentsToSeconds_octave tc⟩, realArith_cbAttenToLin, ?_, ?_, ?_, ?_⟩
  · simp [realArith_timecentsToSeconds]
  · simp [realArith_cbAttenToLin]
  · rw [realArith_cbAttenToLin, neg_div, div_self (by norm_num), Real.rpow_neg_one, one_div]
  · rw [realArith_cbAttenToLin]
    norm_num

/-! The clamps under `real` (R104, R105). -/

theorem realArith_cbAttenToLin_pos (cb : ℝ) : 0 < realArith.cbAttenToLin cb := by
  rw [realArith_cbAttenToLin]
  positivity

/-- The gain is above 1 exactly at a negative attenuation. -/
theorem one_lt_realArith_cbAttenToLin (cb : ℝ) : 1 < realArith.cbAttenToLin cb ↔ cb < 0 := by
  rw [realArith_cbAttenToLin, Real.one_lt_rpow_iff_of_pos (by norm_num)]
  constructor
  · rintro (⟨-, h⟩ | ⟨h, -⟩)
    · linarith
    · norm_num at h
  · exact fun h => .inl ⟨by norm_num, by linarith⟩

theorem realArith_ingestSustain_of_negative {cb : ℝ} (h : cb < 0) : realArith.ingestSustain cb = 1 := by
  simp [Arith.ingestSustain, h]

theorem realArith_ingestSustain_of_nonneg {cb : ℝ} (h : 0 ≤ cb) : realArith.ingestSustain cb = realArith.cbAttenToLin cb := by
  have hle : realArith.cbAttenToLin cb ≤ 1 := not_lt.mp fun hlt => not_lt.mpr h ((one_lt_realArith_cbAttenToLin cb).mp hlt)
  simp [Arith.ingestSustain, Arith.clamp, not_lt.mpr h, hle, (realArith_cbAttenToLin_pos cb).le]

/-- The seconds are below the release floor exactly below the floor's own time-cents. -/
theorem realArith_timecentsToSeconds_lt_floor (tc : ℝ) :
    realArith.timecentsToSeconds tc < 6 / 100 ↔ tc < 1200 * Real.logb 2 (6 / 100) := by
  rw [realArith_timecentsToSeconds, ← Real.lt_logb_iff_rpow_lt (by norm_num) (by norm_num), div_lt_iff₀' (by norm_num)]

theorem realArith_ingestRelease (tc : ℝ) : realArith.ingestRelease tc = max (6 / 100) (realArith.timecentsToSeconds tc) := by
  simp [Arith.ingestRelease, Arith.ingestDuration, (realArith_timecentsToSeconds_pos tc).le]

/-- Settles O54: the clamp meets a gain above 1 and the floor meets seconds below it, each on its side of one operand. -/
theorem realIngestionClamps : Obligations.RealIngestionClamps := by
  refine ⟨fun cb => ⟨⟨fun hne => ?_, fun hneg => ?_⟩, realArith_ingestSustain_of_negative⟩, fun tc => ?_⟩
  · by_contra hcb
    exact hne (realArith_ingestSustain_of_nonneg (not_lt.mp hcb))
  · rw [realArith_ingestSustain_of_negative hneg]
    exact ((one_lt_realArith_cbAttenToLin cb).mpr hneg).ne
  · rw [realArith_ingestRelease]
    split_ifs with hlow
    · exact max_eq_left ((realArith_timecentsToSeconds_lt_floor tc).mpr hlow).le
    · exact max_eq_right (not_lt.mp fun h => hlow ((realArith_timecentsToSeconds_lt_floor tc).mp h))

/-! CONFIG (R102, R108). -/

theorem exec_config_of_live {s : State} {d a h dc su r : Word} {v : Voice Word} (hl : s.life = .live v)
    (hf : s.arith.allFinite [d, a, h, dc, su, r] = true) :
    exec (.config d a h dc su r) s = .next { s with
      life := .live (v.configure (s.arith.ingest d a h dc su r)), cmdIndex := s.cmdIndex + 1 } :=
  exec_eq_next.mpr ⟨_, Block.config_of_live _ _ _ _ _ _ _ hl hf, rfl⟩

theorem exec_config_of_nonfinite {s : State} {d a h dc su r : Word} {v : Voice Word} (hl : s.life = .live v)
    (hf : s.arith.allFinite [d, a, h, dc, su, r] = false) :
    exec (.config d a h dc su r) s =
      .next { s with life := .faulted (some v), fault := ⟨.nonfiniteOperand, s.cmdIndex⟩, cmdIndex := s.cmdIndex + 1 } := by
  rw [exec_of_raise (i := .config d a h dc su r) (Block.config_of_nonfinite _ _ _ _ _ _ _ hl hf), hl, Life.voice_live]

/-- Settles O19: by the life CONFIG finds, and on a Live envelope by the check of its operands. -/
theorem configWritesTheSixRegisters : Obligations.ConfigWritesTheSixRegisters := by
  intro s d a h dc su r O seconds
  refine ⟨rfl, fun hl => exec_of_uncreated hl nofun, exec_of_destroyed _, fun v hl => ⟨fun hf => ?_, fun ⟨w, hw, hf⟩ => ?_⟩⟩
  · exact exec_config_of_live hl (List.all_eq_true.mpr hf)
  · exact exec_config_of_nonfinite hl (List.all_eq_false.mpr ⟨w, hw, Bool.eq_false_iff.mp hf⟩)

/-- Settles O20: an ignored CONFIG only counts, a fault keeps the registers, and an accepted one writes the phase's configuration alone. -/
theorem configFrame : Obligations.ConfigFrame := by
  intro s t d a h dc su r hexec
  rcases exec_cases hexec with ⟨hf, rfl⟩ | ⟨-, code, -, rfl⟩ | ⟨b, hacc, rfl⟩
  · exact ⟨rfl, rfl, rfl, rfl, .inr ⟨hf, rfl⟩⟩
  · exact ⟨rfl, rfl, rfl, rfl, .inr ⟨rfl, rfl⟩⟩
  · cases hacc with
    | config _ _ _ _ _ _ v hl => exact ⟨by simp [hl], rfl, rfl, rfl, .inl ⟨v, _, hl, rfl, rfl⟩⟩

/-! Commands that do nothing more the second time (R57). -/

/-- The commands of which R57 says that a second one in a row changes only the count. -/
def Command.Repeats (c : Command V) : Prop := c = .noteOn ∨ c = .noteOff ∨ ∃ d a h dc s r, c = .config d a h dc s r

/-- NOTE_OFF captures a level that it has not changed, and enters Release again from its start (R122). -/
theorem Voice.noteOff_noteOff (O : Arith V) (v : Voice V) : (v.noteOff O).noteOff O = v.noteOff O := by
  rcases v.noteOff_cases O with ⟨-, h⟩ | ⟨-, c, -, h⟩
  · rw [h, h]
  · rw [h, Voice.noteOff_of_sounding O rfl (by simp)]

theorem Block.Accepted.command_again {O : Arith V} {b b' : Block V} {c : Command V} (h : b.Accepted O c b') (hc : c.Repeats) :
    b'.command O c = .next b'.count := by
  cases h with
  | create | destroy | next => simp [Command.Repeats] at hc
  | config d a h dc s r v hl hf => exact Block.config_of_live O d a h dc s r (v := v.configure (O.ingest d a h dc s r)) rfl hf
  | noteOn v c hl hset => exact Block.noteOn_of_live O (v := { v with
      phase := .configured (if O.positive c.delay then .delay else .attack) c, elapsed := O.zero, level := O.zero }) rfl rfl
  | noteOff v hl =>
    refine (Block.noteOff_of_live O rfl).trans ?_
    rw [v.noteOff_noteOff O]
    rfl

theorem Block.command_again {O : Arith V} {b b' : Block V} {c : Command V} (h : b.command O c = .next b') (hc : c.Repeats) :
    b'.command O c = .next b'.count := by
  rcases Block.command_cases h with ⟨hf, rfl⟩ | ⟨-, code, -, rfl⟩ | hacc
  · exact Block.command_of_faulted O c hf
  · exact Block.command_of_faulted O c rfl
  · exact hacc.command_again hc

/-- Settles O15: a Faulted envelope only counts, and the three commands write on a Live one what they wrote before. -/
theorem repeatedCommandsAreIdempotent : Obligations.RepeatedCommandsAreIdempotent := by
  intro i s t hi h
  obtain ⟨b, hb, rfl⟩ := exec_eq_next.mp h
  have hc : (Command.ofInstr i).Repeats := by
    rcases hi with rfl | rfl | ⟨d, a, h', dc, su, r, rfl⟩ <;> simp [Command.Repeats, Command.ofInstr]
  exact exec_eq_next.mpr ⟨_, Block.command_again hb hc, rfl⟩

end Sys2Proof.Machine
end

section
/-! PROOFS. The note control family (spec 42_note_control): what NOTE_ON and NOTE_OFF write and leave, and the commands that change the stage. -/

namespace Sys2Proof.Machine

variable {V : Type}

/-! The frame of a command that writes registers of `Voice` alone (R90, R172, R173). -/

/-- What such a command keeps of the registers where it is accepted, it keeps wherever it gives a next state: ignored, it only counts, and a
fault leaves every register. -/
theorem exec_frame_of_accepted {α : Type} {g : Voice Word → α} {i : Instr} {s t : State} (h : exec i s = .next t)
    (haccepted : ∀ b, s.toBlock.Accepted s.arith (Command.ofInstr i) b →
      ∃ v w, s.life = .live v ∧ b.life = .live w ∧ b.fault = s.fault ∧ b.responses = s.responses ∧ g w = g v) :
    t.life.voice.map g = s.life.voice.map g ∧
    t.num = s.num ∧ t.channel = s.channel ∧ t.responses = s.responses ∧
    ((∃ v w, s.life = .live v ∧ t.life = .live w ∧ t.fault = s.fault) ∨
      (t.life.isFaulted = true ∧ t.life.voice = s.life.voice)) := by
  rcases exec_cases h with ⟨hf, rfl⟩ | ⟨-, code, -, rfl⟩ | ⟨b, hb, rfl⟩
  · exact ⟨rfl, rfl, rfl, rfl, .inr ⟨hf, rfl⟩⟩
  · exact ⟨rfl, rfl, rfl, rfl, .inr ⟨rfl, rfl⟩⟩
  · obtain ⟨v, w, hv, hw, hfault, hresponses, hg⟩ := haccepted b hb
    exact ⟨by simp [hv, hw, hg], rfl, rfl, hresponses, .inl ⟨v, w, hv, hw, hfault⟩⟩

/-! NOTE_ON (R120). -/

theorem exec_noteOn_of_live {s : State} {v : Voice Word} {c : Settings Word} (hl : s.life = .live v) (hc : v.settings = some c) :
    exec .noteOn s = .next { s with
      life := .live { v with
        phase := .configured (if s.arith.positive c.delay then .delay else .attack) c
        elapsed := s.arith.zero
        level := s.arith.zero }
      cmdIndex := s.cmdIndex + 1 } :=
  exec_eq_next.mpr ⟨_, Block.noteOn_of_live _ hl hc, rfl⟩

theorem exec_noteOn_of_unset {s : State} {v : Voice Word} (hl : s.life = .live v) (hc : v.settings = none) :
    exec .noteOn s =
      .next { s with life := .faulted (some v), fault := ⟨.unconfigured, s.cmdIndex⟩, cmdIndex := s.cmdIndex + 1 } := by
  rw [exec_of_raise (i := .noteOn) (Block.noteOn_of_unset _ hl hc), hl, Life.voice_live]

/-- Settles O23: by the life NOTE_ON finds, and on a Live envelope by whether the configuration is set. -/
theorem noteOnStartsTheNote : Obligations.NoteOnStartsTheNote := fun _ =>
  ⟨rfl, fun hl => exec_of_uncreated hl nofun, exec_of_destroyed _,
    fun _ hl => ⟨fun _ => exec_noteOn_of_live hl, exec_noteOn_of_unset hl⟩⟩

/-- Settles O24: an accepted NOTE_ON enters its stage with the configuration it finds, and writes `elapsed` and `level` besides. -/
theorem noteOnFrame : Obligations.NoteOnFrame := by
  refine fun s t h => exec_frame_of_accepted h fun b hb => ?_
  cases hb with
  | noteOn v c hl hc => exact ⟨v, _, hl, rfl, rfl, rfl, by rw [hc]; rfl⟩

/-! NOTE_OFF (R121, R122). -/

theorem exec_noteOff_of_live {s : State} {v : Voice Word} (hl : s.life = .live v) :
    exec .noteOff s = .next { s with life := .live (v.noteOff s.arith), cmdIndex := s.cmdIndex + 1 } :=
  exec_eq_next.mpr ⟨_, Block.noteOff_of_live _ hl, rfl⟩

/-- Settles O25: by the life NOTE_OFF finds, and on a Live envelope by whether the stage is Idle. -/
theorem noteOffReleasesTheNote : Obligations.NoteOffReleasesTheNote := by
  refine fun s => ⟨rfl, fun hl => exec_of_uncreated hl nofun, exec_of_destroyed _,
    fun v hl => ⟨fun hidle => ?_, fun stage c hp hs => ?_⟩⟩
  · rw [exec_noteOff_of_live hl, Voice.noteOff_of_idle _ hidle, ← hl]
  · rw [exec_noteOff_of_live hl, Voice.noteOff_of_sounding _ hp hs]
    rfl

/-- Settles O26: an accepted NOTE_OFF, in Idle or not, keeps the registers that R121 does not write. -/
theorem noteOffFrame : Obligations.NoteOffFrame := by
  refine fun s t h => exec_frame_of_accepted h fun b hb => ?_
  cases hb with
  | noteOff v hl => exact ⟨v, _, hl, rfl, rfl, rfl, by simp [v.noteOff_frame s.arith]⟩

/-! The commands that change the stage (R123). -/

/-- An accepted command that changes the stage is NEXT, or NOTE_ON into Delay or Attack, or NOTE_OFF from outside Idle into Release. -/
theorem Block.Accepted.stage_change {O : Arith V} {b b' : Block V} {c : Command V} {v w : Voice V} (h : b.Accepted O c b')
    (hv : b.life = .live v) (hw : b'.voice = some w) (hne : w.stage ≠ v.stage) :
    c = .next ∨ (c = .noteOn ∧ (w.stage = .delay ∨ w.stage = .attack)) ∨
      (c = .noteOff ∧ v.stage ≠ .idle ∧ w.stage = .release) := by
  cases h with
  | create sr hl => cases hv.symm.trans hl
  | destroy => cases hw
  | config d a h dc s r v' hl =>
    cases hv.symm.trans hl
    cases hw
    exact absurd rfl hne
  | noteOn v' c hl hc =>
    cases hw
    exact .inr (.inl ⟨rfl, ite_eq_or_eq _ _ _⟩)
  | noteOff v' hl =>
    cases hv.symm.trans hl
    cases hw
    rcases v.noteOff_cases O with ⟨-, hoff⟩ | ⟨hs, c, -, hoff⟩ <;> rw [hoff] at hne ⊢
    · exact absurd rfl hne
    · exact .inr (.inr ⟨rfl, hs, rfl⟩)
  | next => exact .inl rfl

/-- Settles O37: the frames of NOTE_ON and NOTE_OFF keep the responses; a fault keeps the stage, and an accepted command that changes it is
one of the three. -/
theorem onlyNoteCommandsAndNextChangeTheStage : Obligations.OnlyNoteCommandsAndNextChangeTheStage := by
  refine ⟨fun i s t hi h => ?_, fun i s t v w hv h hw hne => ?_⟩
  · rcases hi with rfl | rfl
    · obtain ⟨-, -, -, hresponses, -⟩ := noteOnFrame s t h
      exact hresponses
    · obtain ⟨-, -, -, hresponses, -⟩ := noteOffFrame s t h
      exact hresponses
  · rcases exec_cases h with ⟨hf, -⟩ | ⟨-, code, -, rfl⟩ | ⟨b, hacc, rfl⟩
    · simp [hv] at hf
    · cases (Block.voice_of_live hv).symm.trans hw
      exact absurd rfl hne
    · exact (hacc.stage_change hv hw hne).imp (@Command.ofInstr_injective i .next)
        (Or.imp (And.imp_left (@Command.ofInstr_injective i .noteOn)) (And.imp_left (@Command.ofInstr_injective i .noteOff)))

end Sys2Proof.Machine
end

section
/-! PROOFS. The sample step family (spec 43_sample_step): what NEXT leaves and responds in each stage, when it completes, and under `real` the
three curves and how many NEXT commands each stage lasts. -/

namespace Sys2Proof.Machine

variable {V : Type}

/-! NEXT by its stage step (R130). -/

/-- NEXT on a Live envelope whose stage step is done, with the level that it responds. -/
theorem exec_next_of_done {s : State} {v w : Voice Word} {r : Word} (hl : s.life = .live v) (hw : v.next s.arith = .done w)
    (hr : w.level = r) :
    exec .next s = .next { s with
      life := .live w, responses := s.responses ++ [r], cmdIndex := s.cmdIndex + 1 } :=
  hr ▸ exec_eq_next.mpr ⟨_, Block.next_of_done _ hl hw, rfl⟩

theorem exec_next_of_refuses {s : State} {v : Voice Word} {x : Refusal} (hl : s.life = .live v)
    (hw : v.next s.arith = .refuses x) : exec .next s = .refused x := by
  rw [exec_eq_lift, State.lift_eq_refused]
  exact Block.next_of_refuses _ hl hw

theorem Voice.next_of_stage (O : Arith V) {v : Voice V} {s : Stage} {c : Settings V} (hs : v.stage = s)
    (hc : v.settings = some c) : v.next O = v.stepConfigured O s c :=
  Voice.next_of_configured O (Voice.phase_eq_configured.mpr ⟨hs, hc⟩)

/-! Idle, Sustain, Delay and Hold (R131, R132, R134, R136). -/

/-- Settles O27: Idle reads no configuration register, and Sustain reads the sustain. -/
theorem nextInIdleAndSustain : Obligations.NextInIdleAndSustain := fun _ _ hl =>
  ⟨fun hs => exec_next_of_done hl (Voice.next_of_idle _ hs) rfl,
    fun hs _ hc => exec_next_of_done hl (Voice.next_of_stage _ hs hc) rfl⟩

/-- Delay's stage step by its exit test, which fails at an infinite delay (R132, R198). -/
theorem Voice.next_of_delay (O : Arith V) {v : Voice V} {c : Settings V} (hs : v.stage = .delay) (hc : v.settings = some c) :
    v.next O = .done (if O.finite c.delay = true ∧ O.le c.delay (v.advanced O) = true then
        { v with level := O.zero, phase := .configured .attack c, elapsed := O.zero }
      else { v with level := O.zero, elapsed := v.advanced O }) := by
  rw [Voice.next_of_stage O hs hc]
  simp only [Voice.stepConfigured, Voice.stepDelay, Arith.reached, Bool.and_eq_true, Voice.enter]

/-- Hold's stage step by its exit test, which fails at an infinite hold (R134, R198). -/
theorem Voice.next_of_hold (O : Arith V) {v : Voice V} {c : Settings V} (hs : v.stage = .hold) (hc : v.settings = some c) :
    v.next O = .done (if O.finite c.hold = true ∧ O.le c.hold (v.advanced O) = true then
        { v with level := O.peak, phase := .configured .decay c, elapsed := O.zero }
      else { v with level := O.peak, elapsed := v.advanced O }) := by
  rw [Voice.next_of_stage O hs hc]
  simp only [Voice.stepConfigured, Voice.stepHold, Arith.reached, Bool.and_eq_true, Voice.enter]

/-- Settles O28: by the exit test of each of the two stages, on both sides of which the level is the same. -/
theorem nextInDelayAndHold : Obligations.NextInDelayAndHold := fun _ _ _ hl hc =>
  ⟨fun hs => exec_next_of_done hl (Voice.next_of_delay _ hs hc) (by split <;> rfl),
    fun hs => exec_next_of_done hl (Voice.next_of_hold _ hs hc) (by split <;> rfl)⟩

/-! The stages with a curve (R133, R135, R137). -/

/-- NEXT in a stage whose step is the shortcut, the exit test and the curve: it leaves the stage where the shortcut or the exit test holds,
and otherwise goes on along the curve. -/
theorem exec_next_of_curve {s : State} {v : Voice Word} {d : Word} {leave : Voice Word → Voice Word} {curve : Word → Word}
    (hl : s.life = .live v)
    (hstep : v.next s.arith = if s.arith.notPositive d then .done (leave v) else v.stepCurve s.arith d leave curve) :
    let O := s.arith
    let e := v.advanced O
    let x := O.min O.one (O.div e d)
    (O.le d O.zero = true ∨ (O.isNaN (O.div e d) = false ∧ O.le O.one x = true) →
      exec .next s = .next { s with
        life := .live (leave v), responses := s.responses ++ [(leave v).level], cmdIndex := s.cmdIndex + 1 }) ∧
    (O.le d O.zero = false → O.isNaN (O.div e d) = false → O.le O.one x = false →
      exec .next s = .next { s with
        life := .live { v with level := curve x, elapsed := e }
        responses := s.responses ++ [curve x]
        cmdIndex := s.cmdIndex + 1 }) :=
  ⟨fun h => exec_next_of_done hl (hstep.trans (Voice.curve_ends _ d leave curve h)) rfl,
    fun h0 h1 h2 => exec_next_of_done hl (hstep.trans (Voice.curve_stays _ d leave curve h0 h1 h2)) rfl⟩

/-- Settles O29: Attack's stage step is the one shared by the stages with a curve. -/
theorem nextInAttack : Obligations.NextInAttack := fun _ _ _ hl hc hs =>
  exec_next_of_curve hl (Voice.next_of_stage _ hs hc)

/-- Under `real` the exponential of `lerp_log` is a product of powers of its two floored ends (R14, R135, R137). -/
theorem realArith_exp_lerpLog (a b x : ℝ) :
    realArith.exp (realArith.lerpLog a b x) = max a (1 / 100000) ^ (1 - x) * max b (1 / 100000) ^ x := by
  have hpos : ∀ t : ℝ, 0 < max t (1 / 100000) := fun t => lt_max_of_lt_right (by norm_num)
  rw [realArith_exp, realArith_lerpLog, Real.rpow_def_of_pos (hpos a), Real.rpow_def_of_pos (hpos b), ← Real.exp_add]
  ring_nf

/-- The Decay curve under `real` (R135): `PEAK` is 1, and its power is 1. -/
theorem realArith_decayLevel (sustain x : ℝ) : realArith.decayLevel sustain x = max sustain (1 / 100000) ^ x := by
  rw [Arith.decayLevel, realArith_exp_lerpLog, realArith_peak, max_eq_left (by norm_num), Real.one_rpow, one_mul]

/-- The Release curve under `real` (R137). -/
theorem realArith_releaseLevel (start x : ℝ) :
    realArith.releaseLevel start x = max start (1 / 100000) ^ (1 - x) * (1 / 100000 : ℝ) ^ x := by
  rw [Arith.releaseLevel, realArith_exp_lerpLog, realArith_eps, max_self]

/-- Settles O30: Decay's stage step is the one shared by the stages with a curve. -/
theorem nextInDecay : Obligations.NextInDecay :=
  ⟨fun _ _ _ hl hc hs => exec_next_of_curve hl (Voice.next_of_stage _ hs hc), realArith_decayLevel⟩

/-- A release that CONFIG writes is above 0, so Release takes its shortcut at none of them (R105, R137). -/
theorem ingestRelease_not_le_zero {f : NumFormat} {tc : Word} (h : floatFinite f tc = true) :
    floatLe f ((floatArith f).ingestRelease tc) (f.word 0) = false := by
  refine Bool.eq_false_iff.mpr fun hle => ?_
  have hfloor : floatLe f (Config.releaseFloor.word f) (f.word 0) = false := by cases f <;> decide +kernel
  rw [floatLe_trans (releaseFloor_le_ingestRelease h) hle] at hfloor
  cases hfloor

/-- Settles O31: Release's stage step is the one shared by the stages with a curve, and the floor of CONFIG's release is above 0. -/
theorem nextInRelease : Obligations.NextInRelease :=
  ⟨fun _ _ _ hl hc hs => exec_next_of_curve hl (Voice.next_of_stage _ hs hc), fun _ _ => ingestRelease_not_le_zero,
    realArith_releaseLevel⟩

/-! The frame of NEXT, and when it completes (R130, R172, R173, R176). -/

/-- Settles O32: an ignored NEXT only counts, a fault keeps the registers, and an accepted one is a stage step and its response. -/
theorem nextFrame : Obligations.NextFrame := by
  intro s t h
  rcases exec_cases h with ⟨hf, rfl⟩ | ⟨-, code, -, rfl⟩ | ⟨b, hacc, rfl⟩
  · exact ⟨rfl, rfl, rfl, .inr ⟨hf, rfl, rfl⟩⟩
  · exact ⟨rfl, rfl, rfl, .inr ⟨rfl, rfl, rfl⟩⟩
  · cases hacc with
    | next v w hl hn hw => exact ⟨by simp [hl, hw.frame], rfl, rfl, .inl ⟨v, w, hl, rfl, rfl, rfl⟩⟩

/-- A fraction has no value exactly at a NaN quotient (I5). -/
theorem Arith.fraction_eq_none {O : Arith V} {e d : V} : O.fraction e d = none ↔ O.isNaN (O.div e d) = true := by
  simp [Arith.fraction]

theorem floatFinite_of_inf {f : NumFormat} {w : Word} {neg : Bool} (h : w.datum f = .inf neg) : floatFinite f w = false := by
  rw [floatFinite, h]
  rfl

/-- In a sound state a fraction without a value has two infinite parts (R176). -/
theorem Voice.Sound.infinite_of_fraction {f : NumFormat} {v : Voice Word} (hv : v.Sound (floatArith f)) {d : Word}
    (hd : floatLe f (f.signed false 0) d = true) (hp : (floatArith f).notPositive d = false)
    (hx : (floatArith f).fraction (v.advanced (floatArith f)) d = none) :
    floatFinite f (v.advanced (floatArith f)) = false ∧ floatFinite f d = false := by
  have hnan := floatNaN_iff.mp (Arith.fraction_eq_none.mp hx)
  rcases quotient_cases (hv.advanced_nonneg (floatArith_keepsLevels f)) hd hp with ⟨-, he, hdi⟩ | ⟨r, hr, -⟩
  · exact ⟨floatFinite_of_inf he, floatFinite_of_inf hdi⟩
  · cases hr.symm.trans hnan

/-- Settles O35: the stage step is refused only where the fraction of a stage with a curve has no value. -/
theorem nextCompletesUnlessBothInfinite : Obligations.NextCompletesUnlessBothInfinite := by
  intro s v hs hl
  have hv : v.Sound (floatArith s.num) := hs.live v hl
  rcases v.next_outcome s.arith with ⟨w, hw⟩ | ⟨hr, c, hstage⟩
  · exact .inl ⟨_, w, exec_next_of_done hl hw rfl, rfl⟩
  · refine .inr ⟨exec_next_of_refuses hl hr, ?_⟩
    rcases hstage with ⟨hp, hd, hx⟩ | ⟨hp, hd, hx⟩ | ⟨hp, hd, hx⟩ <;> obtain ⟨hst, hc⟩ := Voice.phase_eq_configured.mp hp
    · obtain ⟨he, hi⟩ := hv.infinite_of_fraction (hv.legal hp).attack hd hx
      exact ⟨he, c, hc, .inl ⟨hst, hi⟩⟩
    · obtain ⟨he, hi⟩ := hv.infinite_of_fraction (hv.legal hp).decay hd hx
      exact ⟨he, c, hc, .inr (.inl ⟨hst, hi⟩)⟩
    · obtain ⟨he, hi⟩ := hv.infinite_of_fraction ((floatArith_keepsLevels s.num).floor (hv.legal hp).release) hd hx
      exact ⟨he, c, hc, .inr (.inr ⟨hst, hi⟩)⟩

/-! The curves under `real` (R139, R140, R141, R145). -/

/-- Settles O55: a fraction is at least 1 where its quotient is, and the quotient where the duration is reached. -/
theorem realExitTestsAgree : Obligations.RealExitTestsAgree := fun elapsed duration hpos =>
  ⟨_, realArith_fraction elapsed duration, by simp [Arith.complete, Arith.reached, one_le_div hpos]⟩

/-- Settles O56: the exponential grows strictly, and at a fraction below 1 its argument is above `-6`. -/
theorem realAttackGrows : Obligations.RealAttackGrows := by
  intro x y hxy
  simp only [realArith_attackLevel]
  exact ⟨sub_lt_sub_left (Real.exp_lt_exp.mpr (by linarith)) 1, fun hy => sub_lt_sub_left (Real.exp_lt_exp.mpr (by linarith)) 1⟩

/-- Settles O57: powers of a base between 0 and 1 fall as the exponent grows from 0 to 1. -/
theorem realDecayCurve : Obligations.RealDecayCurve := by
  intro sustain x y _ hs hx hxy hy
  have hpos : 0 < max sustain (1 / 100000) := lt_max_of_lt_right (by norm_num)
  have hle : max sustain (1 / 100000) ≤ 1 := max_le hs (by norm_num)
  simp only [realArith_decayLevel]
  exact ⟨Real.rpow_le_rpow_of_exponent_ge hpos hle hxy, Real.self_le_rpow_of_le_one hpos.le hle hy,
    Real.rpow_le_one hpos.le hle hx⟩

/-- A weighted geometric mean lies between its two ends. -/
theorem rpow_mul_rpow_mem_Icc {a m x : ℝ} (ha : 0 < a) (ham : a ≤ m) (h0 : 0 ≤ x) (h1 : x ≤ 1) :
    a ≤ m ^ (1 - x) * a ^ x ∧ m ^ (1 - x) * a ^ x ≤ m := by
  have hmean : ∀ t : ℝ, 0 < t → t ^ (1 - x) * t ^ x = t := fun t ht => by
    rw [← Real.rpow_add ht, sub_add_cancel, Real.rpow_one]
  have hm : 0 < m := ha.trans_le ham
  constructor
  · calc a = a ^ (1 - x) * a ^ x := (hmean a ha).symm
      _ ≤ m ^ (1 - x) * a ^ x := by gcongr
  · calc m ^ (1 - x) * a ^ x ≤ m ^ (1 - x) * m ^ x := by gcongr
      _ = m := hmean m hm

/-- Settles O58: the Release level is a weighted geometric mean of the floored start and `EPS`, which are one where the start is not above it. -/
theorem realReleaseCurve : Obligations.RealReleaseCurve := by
  intro start x h0 h1
  have hmean := rpow_mul_rpow_mem_Icc (a := 1 / 100000) (by norm_num) (le_max_right start _) h0 h1
  rw [realArith_releaseLevel]
  exact ⟨fun hs => le_antisymm (hmean.2.trans (max_eq_right hs).le) hmean.1, hmean⟩

/-! How long a stage lasts under `real` (R143). -/

/-- The last of `n + 1` NEXT steps is the step from where the first `n` lead. -/
theorem Voice.nextTimes_succ {O : Arith V} {n : Nat} {v w : Voice V} (h : Voice.nextTimes O n v = .done w) :
    Voice.nextTimes O (n + 1) v = w.next O := by
  induction n generalizing v with
  | zero =>
    cases h
    simp only [Voice.nextTimes]
    cases w.next O <;> rfl
  | succ n ih =>
    rw [Voice.nextTimes] at h ⊢
    cases hv : v.next O with
    | done v' => rw [hv] at h; exact ih h
    | raises c => rw [hv] at h; cases h
    | refuses r => rw [hv] at h; cases h

/-- A phase whose stage step tests the duration `d`: where it is reached the stage is left, and otherwise `elapsed` advances. -/
def Phase.TimedBy (p : Phase ℝ) (d : ℝ) (leave : Voice ℝ → Voice ℝ) : Prop :=
  ∀ v : Voice ℝ, v.phase = p → 0 ≤ v.advanced realArith → ∃ l, v.next realArith =
    .done (if d ≤ v.advanced realArith then leave v else { v with level := l, elapsed := v.advanced realArith })

theorem Phase.timedBy_delay (c : Settings ℝ) : (Phase.configured .delay c).TimedBy c.delay fun v =>
    { v with level := 0, phase := .configured .attack c, elapsed := 0 } := by
  intro v hp _
  obtain ⟨hs, hc⟩ := Voice.phase_eq_configured.mp hp
  exact ⟨0, by simp [Voice.next_of_delay _ hs hc]⟩

theorem Phase.timedBy_hold (c : Settings ℝ) : (Phase.configured .hold c).TimedBy c.hold fun v =>
    { v with level := 1, phase := .configured .decay c, elapsed := 0 } := by
  intro v hp _
  obtain ⟨hs, hc⟩ := Voice.phase_eq_configured.mp hp
  exact ⟨1, by simp [Voice.next_of_hold _ hs hc]⟩

/-- A stage with a curve: `elapsed` is not negative, so its shortcut at a duration that is not positive leaves no later than its exit test. -/
theorem Phase.timedBy_curve {s : Stage} {c : Settings ℝ} {d : ℝ} {leave : Voice ℝ → Voice ℝ} {curve : Voice ℝ → ℝ → ℝ}
    (hstep : ∀ v : Voice ℝ, v.stepConfigured realArith s c =
      if realArith.notPositive d then .done (leave v) else v.stepCurve realArith d leave (curve v)) :
    (Phase.configured s c).TimedBy d leave := by
  intro v hp he
  rw [Voice.next_of_configured _ hp, hstep]
  refine ⟨curve v (min 1 (v.advanced realArith / d)), ?_⟩
  by_cases hd : 0 < d
  · by_cases h : d ≤ v.advanced realArith
    · rw [if_pos h, Voice.curve_ends realArith d leave _ (.inr (by simp [one_le_div hd, h]))]
    · rw [if_neg h, Voice.curve_stays realArith d leave _ (by simpa using hd) rfl (by simp [one_le_div hd, h]), realArith_min]
      rfl
  · rw [Voice.curve_ends realArith d leave _ (.inl (by simpa using hd)), if_pos ((not_lt.mp hd).trans he)]

/-- After `n` NEXT steps from `elapsed` 0, all short of the duration, the stage goes on with `elapsed` at `n` times `dt`. -/
theorem Phase.TimedBy.nextTimes {p : Phase ℝ} {d : ℝ} {leave : Voice ℝ → Voice ℝ} (h : p.TimedBy d leave) {v : Voice ℝ}
    (hp : v.phase = p) (hr : 0 < v.sampleRate) (he : v.elapsed = 0) {n : Nat} (hn : n = 0 ∨ n < d * v.sampleRate) :
    ∃ w, Voice.nextTimes realArith n v = .done w ∧ w.phase = p ∧ w.sampleRate = v.sampleRate ∧
      w.advanced realArith = (n + 1 : ℕ) / v.sampleRate := by
  induction n with
  | zero => exact ⟨v, rfl, hp, rfl, by simp [Voice.advanced_real, he]⟩
  | succ n ih =>
    have hlt : ((n + 1 : ℕ) : ℝ) < d * v.sampleRate := hn.resolve_left n.succ_ne_zero
    obtain ⟨w, hw, hwp, hwr, hwa⟩ := ih (.inr (lt_of_le_of_lt (by simp) hlt))
    obtain ⟨l, hl⟩ := h w hwp (by rw [hwa]; positivity)
    rw [if_neg (by rwa [hwa, not_le, div_lt_iff₀ hr])] at hl
    refine ⟨_, (Voice.nextTimes_succ hw).trans hl, hwp, hwr, ?_⟩
    rw [Voice.advanced_real, hwa, hwr, ← add_div]
    push_cast
    rfl

/-- Such a stage lasts the duration in samples, rounded up, and at least one NEXT. -/
theorem Phase.TimedBy.stageLasts {p : Phase ℝ} {d : ℝ} {leave : Voice ℝ → Voice ℝ} (h : p.TimedBy d leave) {v : Voice ℝ}
    (hp : v.phase = p) (hr : 0 < v.sampleRate) (he : v.elapsed = 0) {after : Stage} {level : ℝ}
    (hleave : ∀ w, (leave w).stage = after ∧ (leave w).elapsed = 0 ∧ (leave w).level = level) :
    v.StageLasts realArith (max 1 ⌈d * v.sampleRate⌉₊) after level := by
  have hbefore : ∀ k < max 1 ⌈d * v.sampleRate⌉₊, k = 0 ∨ k < d * v.sampleRate := fun k hk => by
    rcases lt_max_iff.mp hk with hk | hk
    · exact .inl (Nat.lt_one_iff.mp hk)
    · exact .inr (Nat.lt_ceil.mp hk)
  refine ⟨lt_max_of_lt_left one_pos, fun k hk => ?_, ?_⟩
  · obtain ⟨w, hw, hwp, -⟩ := h.nextTimes hp hr he (hbefore k hk)
    exact ⟨w, hw, by rw [Voice.stage, Voice.stage, hwp, hp]⟩
  · obtain ⟨m, hm⟩ := Nat.exists_eq_succ_of_ne_zero (lt_max_of_lt_left one_pos : 0 < max 1 ⌈d * v.sampleRate⌉₊).ne'
    have hreached : d * v.sampleRate ≤ (m + 1 : ℕ) :=
      (Nat.le_ceil _).trans (Nat.cast_le.mpr ((le_max_right _ _).trans hm.le))
    obtain ⟨w, hw, hwp, -, hwa⟩ := h.nextTimes hp hr he (hbefore m (by omega))
    obtain ⟨l, hl⟩ := h w hwp (by rw [hwa]; positivity)
    rw [if_pos (by rwa [hwa, le_div_iff₀ hr])] at hl
    rw [hm]
    exact ⟨_, (Voice.nextTimes_succ hw).trans hl, hleave w⟩

/-- A stage step in Idle or Sustain stays there (R131, R136). -/
theorem Voice.NextTo.stays_in_untimed {O : Arith V} {v w : Voice V} (h : v.NextTo O w) (hs : v.stage = .idle ∨ v.stage = .sustain) :
    w.stage = v.stage := by
  by_contra hne
  obtain ⟨-, c, -, hrow⟩ := h.stage_change hne
  rcases hs with hs | hs <;> simp [hs] at hrow

/-- Idle and Sustain last for ever. -/
theorem Voice.nextTimes_of_untimed {v : Voice ℝ} (hs : v.stage = .idle ∨ v.stage = .sustain) (n : Nat) :
    ∃ w, Voice.nextTimes realArith n v = .done w ∧ w.stage = v.stage := by
  induction n with
  | zero => exact ⟨v, rfl, rfl⟩
  | succ n ih =>
    obtain ⟨w, hw, hst⟩ := ih
    obtain ⟨u, hu⟩ := w.next_real
    exact ⟨u, (Voice.nextTimes_succ hw).trans hu, ((Voice.next_done hu).stays_in_untimed (hst ▸ hs)).trans hst⟩

/-- Settles O59: each timed stage tests its own duration, and its exit enters the next stage. -/
theorem realStageLengths : Obligations.RealStageLengths := by
  intro v c hr he hc samples
  have hphase : ∀ {s : Stage}, v.stage = s → v.phase = .configured s c := fun hs => Voice.phase_eq_configured.mpr ⟨hs, hc⟩
  refine ⟨fun hs => ?_, fun hs => ?_, fun hs => ?_, fun hs => ?_, fun hs => ?_, Voice.nextTimes_of_untimed⟩
  · exact (Phase.timedBy_delay c).stageLasts (hphase hs) hr he fun _ => ⟨rfl, rfl, rfl⟩
  · exact (Phase.timedBy_curve (fun _ => rfl)).stageLasts (hphase hs) hr he fun _ =>
      ⟨by simp [Arith.positive], rfl, by simp⟩
  · exact (Phase.timedBy_hold c).stageLasts (hphase hs) hr he fun _ => ⟨rfl, rfl, rfl⟩
  · exact (Phase.timedBy_curve (fun _ => rfl)).stageLasts (hphase hs) hr he fun _ => ⟨rfl, rfl, rfl⟩
  · exact (Phase.timedBy_curve (fun _ => rfl)).stageLasts (hphase hs) hr he fun _ => ⟨rfl, rfl, rfl⟩

end Sys2Proof.Machine
end

section
/-! PROOFS. The exceptions family (spec 60_exceptions): the fault that a command raises, the Faulted state, and the NEXT that is refused. -/

namespace Sys2Proof.Machine

variable {V : Type}

/-! Raising a fault (R172). -/

theorem Block.Accepted.not_faulted {O : Arith V} {b b' : Block V} {c : Command V} (h : b.Accepted O c b') :
    b'.life.isFaulted = false := by
  cases h <;> rfl

/-- Settles O11: only a raised fault takes a machine that is not Faulted into Faulted, and an illegal word raises its own. -/
theorem faultsArePrecise : Obligations.FaultsArePrecise := by
  refine ⟨fun i s t hs h ht => ?_, fun s t rest hs hd h => ?_⟩
  · rcases exec_cases h with ⟨hf, -⟩ | ⟨-, code, hcode, rfl⟩ | ⟨b, hacc, rfl⟩
    · exact absurd hf (by simp [hs])
    · exact ⟨code, hcode, rfl⟩
    · exact absurd ht (by simp [hacc.not_faulted])
  · cases h.symm.trans (step_of_illegal_of_not_faulted hd hs)
    rfl

/-! The Faulted state (R173). -/

/-- Settles O12: a sound Faulted state holds a fault code other than NONE, which shuts out a successful end. -/
theorem faultedOnlyCounts : Obligations.FaultedOnlyCounts := fun _ hf =>
  ⟨fun _ => exec_of_faulted hf, fun _ hd => step_of_illegal_of_faulted hd hf, fun hs => hs.faulted.mp hf⟩

/-- The second envelope is the first with more commands counted. -/
def Block.OnlyCounted (b b' : Block V) : Prop := ∃ n, b' = { b with cmdIndex := b.cmdIndex + n }

theorem Block.OnlyCounted.refl (b : Block V) : b.OnlyCounted b := ⟨0, rfl⟩

theorem Block.OnlyCounted.count {b b' : Block V} (h : b.OnlyCounted b') : b.OnlyCounted b'.count := by
  obtain ⟨n, rfl⟩ := h
  exact ⟨n + 1, rfl⟩

theorem Block.OnlyCounted.life_eq {b b' : Block V} (h : b.OnlyCounted b') : b'.life = b.life := by
  obtain ⟨n, rfl⟩ := h
  rfl

/-- A step of a Faulted machine counts a command or an illegal word, or finds neither. -/
theorem step_block_of_faulted {s t : State} (hf : s.life.isFaulted = true) (h : step s = .next t) :
    t.toBlock = s.toBlock ∨ t.toBlock = s.toBlock.count := by
  rcases step_cases h with ⟨i, rest, -, he⟩ | ⟨rest, -, rfl⟩ | ⟨-, rfl⟩
  · cases he.symm.trans (exec_of_faulted hf)
    exact .inr rfl
  · exact .inr (Block.illegal_of_faulted hf)
  · exact .inl rfl

theorem step_keeps_onlyCounted {b : Block Word} (hf : b.life.isFaulted = true) {s t : State} (hs : b.OnlyCounted s.toBlock)
    (h : step s = .next t) : b.OnlyCounted t.toBlock := by
  rcases step_block_of_faulted (hs.life_eq ▸ hf) h with ht | ht <;> rw [ht]
  · exact hs
  · exact hs.count

/-- Settles O13: every step keeps the envelope of a Faulted machine as it was, but for the count. -/
theorem faultedForGood : Obligations.FaultedForGood := by
  intro n s t hf h
  obtain ⟨k, hk⟩ := run_keeps (M := core) (P := fun u => s.toBlock.OnlyCounted u.toBlock)
    (fun _ _ => step_keeps_onlyCounted hf) (Block.OnlyCounted.refl s.toBlock) h
  rw [hk]
  exact ⟨rfl, rfl, rfl, Nat.le_add_right s.cmdIndex k⟩

/-! The NEXT without a value (R176, I5). -/

/-- NEXT in a stage whose step is the shortcut, the exit test and the curve is refused past the shortcut at a NaN quotient. -/
theorem exec_next_of_nanQuotient {s : State} {v : Voice Word} {d : Word} {leave : Voice Word → Voice Word} {curve : Word → Word}
    (hl : s.life = .live v)
    (hstep : v.next s.arith = if s.arith.notPositive d then .done (leave v) else v.stepCurve s.arith d leave curve)
    (hd : s.arith.le d s.arith.zero = false) (hq : s.arith.isNaN (s.arith.div (v.advanced s.arith) d) = true) :
    exec .next s = .refused .nanQuotient :=
  exec_next_of_refuses hl (hstep.trans (Voice.curve_refuses _ d leave curve hd hq))

/-- Settles O33: Attack, Decay and Release share the stage step of a curve, each with its own duration. -/
theorem nanQuotientIsRefused : Obligations.NanQuotientIsRefused := by
  intro s v c hl hc O e hstage
  rcases hstage with ⟨hs, hd, hq⟩ | ⟨hs, hd, hq⟩ | ⟨hs, hd, hq⟩ <;>
    exact exec_next_of_nanQuotient hl (Voice.next_of_stage _ hs hc) hd hq

end Sys2Proof.Machine
end

section
/-! PROOFS. The reset and hazards family (spec 70_reset_and_hazards): the order of use that never faults, the stages of infinite duration, and the
smallest value of the Attack curve. -/

namespace Sys2Proof.Machine

/-! The order of use (R192, R201). -/

/-- The state of a run that has kept the order of use: Live in its format, with no fault recorded, and with the configuration set once a
CONFIG has been sent. -/
structure State.InUse (f : NumFormat) (configured : Bool) (s : State) : Prop where
  num : s.num = f
  successful : s.Successful
  live : ∃ v, s.life = .live v ∧ (configured = true → ∃ c, v.settings = some c)

/-- How a run that keeps the order of use ends: without a fault, Live or Destroyed, or at a NEXT that I5 refuses. -/
def EndsUnfaulted (o : Host.Outcome State Fault Refusal) : Prop :=
  (∃ t, o = .next t ∧ t.Successful ∧ ((∃ v, t.life = .live v) ∨ t.life = .destroyed)) ∨ o = .refused .nanQuotient

theorem runCommands_of_next {i : Instr} {s t : State} (is : List Instr) (h : exec i s = .next t) :
    runCommands (i :: is) s = runCommands is t := by
  simp only [runCommands, h]

theorem runCommands_of_refused {i : Instr} {s : State} {r : Refusal} (is : List Instr) (h : exec i s = .refused r) :
    runCommands (i :: is) s = .refused r := by
  simp only [runCommands, h]

/-- The commands that R192 allows on a Live envelope run to such an end: each of them but DESTROY, which is the last, leaves the envelope Live
and in use, or is a refused NEXT. -/
theorem runCommands_legalUse {f : NumFormat} {configured : Bool} {is : List Instr} {s : State} (hs : s.InUse f configured)
    (h : legalUse f configured is = true) : EndsUnfaulted (runCommands is s) := by
  induction is generalizing configured s with
  | nil => exact .inl ⟨s, rfl, hs.successful, .inl (hs.live.imp fun _ hv => hv.1)⟩
  | cons i is ih =>
    obtain ⟨v, hl, hset⟩ := hs.live
    cases i with
    | create sr => cases h
    | destroy =>
      obtain rfl := List.isEmpty_iff.mp h
      rw [runCommands_of_next [] (exec_destroy_of_live hl)]
      exact .inl ⟨_, rfl, hs.successful, .inr rfl⟩
    | config d a h' dc su r =>
      obtain ⟨hf, his⟩ := Bool.and_eq_true_iff.mp h
      rw [← hs.num] at hf
      rw [runCommands_of_next is (exec_config_of_live hl hf)]
      exact ih ⟨hs.num, hs.successful, _, rfl, fun _ => ⟨_, rfl⟩⟩ his
    | noteOn =>
      obtain ⟨hconf, his⟩ := Bool.and_eq_true_iff.mp h
      obtain ⟨c, hc⟩ := hset hconf
      rw [runCommands_of_next is (exec_noteOn_of_live hl hc)]
      exact ih ⟨hs.num, hs.successful, _, rfl, fun _ => ⟨c, rfl⟩⟩ his
    | noteOff =>
      rw [runCommands_of_next is (exec_noteOff_of_live hl)]
      exact ih ⟨hs.num, hs.successful, _, rfl, (v.noteOff_frame s.arith).2.2 ▸ hset⟩ h
    | next =>
      rcases v.next_outcome s.arith with ⟨w, hw⟩ | ⟨hr, -⟩
      · obtain ⟨-, -, hframe⟩ := (Voice.next_done hw).frame
        rw [runCommands_of_next is (exec_next_of_done hl hw rfl)]
        exact ih ⟨hs.num, hs.successful, w, rfl, hframe ▸ hset⟩ h
      · exact .inr (runCommands_of_refused is (exec_next_of_refuses hl hr))

/-- Settles O45: CREATE with a good sample rate leaves the envelope in use, and the commands after it keep it so. -/
theorem legalUseNeverFaults : Obligations.LegalUseNeverFaults := by
  intro f is h
  cases is with
  | nil => cases h
  | cons i is =>
    cases i with
    | create sr =>
      obtain ⟨hg, his⟩ := Bool.and_eq_true_iff.mp h
      rw [runCommands_of_next is (exec_create_of_goodRate (State.resetIn_life f) hg)]
      exact runCommands_legalUse (configured := false) ⟨rfl, rfl, _, rfl, nofun⟩ his
    | destroy | config | noteOn | noteOff | next => cases h

/-! The Attack curve near 0 (R133, R199). -/

theorem floatExp_eq_one {f : NumFormat} {w : Word} {r : Nat} (hr : w.rank f = some r) (h : expRank f r = f.oneRank) :
    floatExp f w = Literal.word f ⟨1, 1⟩ := by
  have hone : f.ofRank f.oneRank = Literal.word f ⟨1, 1⟩ := by cases f <;> decide +kernel
  simp only [floatExp, hr, h, hone]

/-- Where the exponential is 1 the Attack curve is `PEAK · (1 - 1)`, which is plus zero. -/
theorem attackLevel_of_exp_one {f : NumFormat} {x : Word} {r : Nat}
    (hr : (floatMul f (floatNeg f (Config.attackRate.word f)) x).rank f = some r) (h : expRank f r = f.oneRank) :
    (floatArith f).attackLevel x = f.word 0 := by
  change floatMul f (Config.peak.word f) (floatSub f (Literal.word f ⟨1, 1⟩)
    (floatExp f (floatMul f (floatNeg f (Config.attackRate.word f)) x))) = f.word 0
  rw [floatExp_eq_one hr h]
  cases f <;> decide +kernel

/-- The operand of `exp` in Attack lies where I3 (c) bounds it. -/
theorem rank_attack_exponent {f : NumFormat} {x : Word} (hx : (floatArith f).Level x) :
    ∃ r, (floatMul f (floatNeg f (Config.attackRate.word f)) x).rank f = some r ∧ expDomainRank f ≤ r ∧ r ≤ f.zeroRank := by
  obtain ⟨u, hu, hu0⟩ := attackRate_units f
  obtain ⟨v, hv, h0, h1⟩ := level_units hx
  obtain ⟨r, hr, hlo, hhi⟩ := rank_mul_fraction (floatNeg_units hu) hv (by omega) h0 h1
  exact ⟨r, hr, ((expDomain_le f).1 _ (floatNeg_units hu).rank).trans hlo, hhi⟩

/-- A product with 1 is the other factor, but for the sign of a zero. -/
theorem rank_floatMul_one {f : NumFormat} {y : Word} {u : Int} (hy : IsUnits f y u) :
    (floatMul f (Literal.word f ⟨1, 1⟩) y).rank f = y.rank f := by
  rw [rank_floatMul (isUnits_one f) hy, hy.rank]
  congr 1
  apply le_antisymm
  · exact valueRank_mono f (unit_pos f) Nat.one_pos (by rw [Nat.cast_one, mul_one, mul_comm])
  · exact valueRank_mono f Nat.one_pos (unit_pos f) (by rw [Nat.cast_one, mul_one, mul_comm])

/-- The distance from 1 to the value of the format just below it, in units of the least subnormal. -/
def unitBelowOne (f : NumFormat) : Nat := 2 ^ (f.scale - f.precision)

theorem isUnits_unitBelowOne (f : NumFormat) : IsUnits f (Literal.word f ⟨1, 2 ^ f.precision⟩) (unitBelowOne f) :=
  ⟨false, unitBelowOne f, by cases f <;> decide +kernel, rfl⟩

theorem isUnits_just_below_one (f : NumFormat) :
    IsUnits f (f.ofRank (f.oneRank - 1)) ((f.unit - unitBelowOne f : Nat) : Int) :=
  ⟨false, f.unit - unitBelowOne f, by cases f <;> decide +kernel, rfl⟩

/-- A level below 1 is below it by at least the unit just below 1, and so is their difference, rounded, from 0. -/
theorem unitBelowOne_le_one_sub {f : NumFormat} {w : Word} {r : Nat} (hr : w.rank f = some r) (h0 : f.zeroRank ≤ r)
    (h1 : r < f.oneRank) : ∃ y, IsUnits f (floatSub f (Literal.word f ⟨1, 1⟩) w) y ∧ (unitBelowOne f : Int) ≤ y := by
  obtain ⟨u, hu, hu0, -⟩ := level_units (level_iff.mpr ⟨r, hr, h0, h1.le⟩)
  have hbelow : u ≤ ((f.unit - unitBelowOne f : Nat) : Int) :=
    units_le hu (isUnits_just_below_one f) hr (rank_ofRank f (by have := zeroRank_lt_oneRank f; omega)) (by omega)
  have hunit : unitBelowOne f ≤ f.unit := Nat.pow_le_pow_right (by decide) (Nat.sub_le _ _)
  have hs := rank_floatSub (isUnits_one f) hu
  have hlo : valueRank f (unitBelowOne f : Int) 1 ≤ valueRank f ((f.unit : Int) - u) 1 :=
    valueRank_mono f Nat.one_pos Nat.one_pos (by omega)
  have hhi : valueRank f ((f.unit : Int) - u) 1 ≤ valueRank f (f.unit : Int) 1 :=
    valueRank_mono f Nat.one_pos Nat.one_pos (by omega)
  obtain ⟨y, hy⟩ := units_of_rank hs ((isUnits_unitBelowOne f).lt_topRank.1.trans_le hlo) (hhi.trans_lt (isUnits_one f).lt_topRank.2)
  exact ⟨y, hy, units_le (isUnits_unitBelowOne f) hy (isUnits_unitBelowOne f).rank hs hlo⟩

/-- Settles O52: where the exponential is 1 the curve is at 0, and elsewhere it is at most the value just below 1. -/
theorem attackIsNeverSubnormal : Obligations.AttackIsNeverSubnormal := by
  intro f x hx
  obtain ⟨r, hr, hdom, hz⟩ := rank_attack_exponent hx
  obtain ⟨h0, h1⟩ := expRank_range f hdom hz
  rcases h1.eq_or_lt with h1 | h1
  · exact .inl (attackLevel_of_exp_one hr h1)
  · right
    obtain ⟨y, hy, hle⟩ := unitBelowOne_le_one_sub (rank_floatExp hr) h0.le h1
    exact (floatLe_of_rank (isUnits_unitBelowOne f).rank ((rank_floatMul_one hy).trans hy.rank)).mpr
      (valueRank_mono f Nat.one_pos Nat.one_pos (by omega))

/-! The curves at the start of their stage, where the fraction is a zero of either sign (R198). -/

theorem attackLevel_of_zero {f : NumFormat} {x : Word} (hx : IsUnits f x 0) : (floatArith f).attackLevel x = f.word 0 := by
  obtain ⟨u, hu, -⟩ := attackRate_units f
  have hr := rank_floatMul (floatNeg_units hu) hx
  rw [mul_zero, valueRank_zero f (unit_pos f)] at hr
  exact attackLevel_of_exp_one hr (expRank_zero f)

/-- A word of rank zero is a zero. -/
theorem isUnits_zero_of_rank {f : NumFormat} {w : Word} (h : w.rank f = some f.zeroRank) : IsUnits f w 0 := by
  obtain ⟨u, hu⟩ := units_of_rank h (zeroRank_pos f).1 (zeroRank_pos f).2
  have hu0 : u = 0 := le_antisymm (units_le hu (isUnits_zero f) h (rank_zero f) le_rfl)
    (units_le (isUnits_zero f) hu (rank_zero f) h le_rfl)
  exact hu0 ▸ hu

/-- `exp` answers alike to operands of the same rank. -/
theorem floatExp_congr {f : NumFormat} {a b : Word} {r : Nat} (ha : a.rank f = some r) (hb : b.rank f = some r) :
    floatExp f a = floatExp f b := by
  simp only [floatExp, ha, hb]

/-- The difference of two floored logarithms of levels is finite. -/
theorem lnFloor_sub_units {f : NumFormat} {a b : Word} (ha : (floatArith f).Level a) (hb : (floatArith f).Level b) :
    ∃ d, IsUnits f (floatSub f (floatLn f ((floatArith f).max b (Config.eps.word f)))
      (floatLn f ((floatArith f).max a (Config.eps.word f)))) d := by
  obtain ⟨u, e, hu, he, heu, hu0⟩ := lnFloor_units ha
  obtain ⟨w, e', hw, he', hew, hw0⟩ := lnFloor_units hb
  refine units_of_rank (rank_floatSub hw hu) ?_ ?_
  · exact he'.lt_topRank.1.trans_le (valueRank_mono f Nat.one_pos Nat.one_pos (by omega))
  · exact lt_of_le_of_lt (valueRank_mono f Nat.one_pos Nat.one_pos (by omega)) (floatNeg_units he).lt_topRank.2

/-- The exponential of `lerp_log` between two levels starts at that of the first one's floored logarithm. -/
theorem exp_lerpLog_of_zero {f : NumFormat} {a b x : Word} (ha : (floatArith f).Level a) (hb : (floatArith f).Level b)
    (hx : IsUnits f x 0) :
    (floatArith f).exp ((floatArith f).lerpLog a b x) =
      (floatArith f).exp ((floatArith f).ln ((floatArith f).max a (floatArith f).eps)) := by
  obtain ⟨u, -, hu, -⟩ := lnFloor_units ha
  obtain ⟨d, hd⟩ := lnFloor_sub_units ha hb
  have hp := rank_floatMul hd hx
  rw [mul_zero, valueRank_zero f (unit_pos f)] at hp
  have hsum := rank_floatAdd hu (isUnits_zero_of_rank hp)
  rw [add_zero] at hsum
  exact floatExp_congr hsum hu.rank

theorem decayLevel_of_zero {f : NumFormat} {s x : Word} (hs : (floatArith f).Level s) (hx : IsUnits f x 0) :
    (floatArith f).decayLevel s x = (floatArith f).one := by
  have hpeak : (floatArith f).max (floatArith f).peak (floatArith f).eps = Literal.word f ⟨1, 1⟩ := by cases f <;> decide +kernel
  rw [Arith.decayLevel, exp_lerpLog_of_zero (level_peak f) hs hx, hpeak]
  exact floatExp_eq_one (rank_floatLn (rank_literal f ⟨1, 1⟩)) ((congrArg (expRank f) (lnRank_one f)).trans (expRank_zero f))

theorem releaseLevel_of_zero {f : NumFormat} {s x : Word} (hs : (floatArith f).Level s) (hx : IsUnits f x 0) :
    (floatArith f).releaseLevel s x = (floatArith f).exp ((floatArith f).ln ((floatArith f).max s (floatArith f).eps)) :=
  exp_lerpLog_of_zero hs (level_eps f) hx

/-! One NEXT in a stage of infinite duration (R198). -/

theorem floatFinite_infinity (f : NumFormat) : floatFinite f (f.word f.infinity) = false :=
  floatFinite_of_inf (datum_narrow_inf f false)

/-- A finite value over plus infinity is a zero with the value's sign. -/
theorem isUnits_div_infinity {f : NumFormat} {e : Word} (he : floatFinite f e = true) :
    IsUnits f (floatDiv f e (f.word f.infinity)) 0 := by
  obtain ⟨u, neg, n, hd, -⟩ := isUnits_of_finite he
  have hinf : (f.word f.infinity).datum f = .inf false := datum_narrow_inf f false
  refine ⟨neg, 0, ?_, by cases neg <;> rfl⟩
  rw [floatDiv, hd, hinf]
  simp only [Datum.div, Bool.bne_false]
  rw [datum_narrow_frac, roundMagnitude_zero f Nat.one_pos, if_pos (infinity_pos f), magnitudeValue_zero]

theorem Voice.next_of_endless_delay {f : NumFormat} {v : Voice Word} {c : Settings Word} (hs : v.stage = .delay)
    (hc : v.settings = some c) (hd : c.delay = f.word f.infinity) :
    v.next (floatArith f) = .done { v with level := (floatArith f).zero, elapsed := v.advanced (floatArith f) } := by
  rw [Voice.next_of_delay _ hs hc, if_neg]
  rw [hd]
  exact fun h => Bool.eq_false_iff.mp (floatFinite_infinity f) h.1

theorem Voice.next_of_endless_hold {f : NumFormat} {v : Voice Word} {c : Settings Word} (hs : v.stage = .hold)
    (hc : v.settings = some c) (hd : c.hold = f.word f.infinity) :
    v.next (floatArith f) = .done { v with level := (floatArith f).peak, elapsed := v.advanced (floatArith f) } := by
  rw [Voice.next_of_hold _ hs hc, if_neg]
  rw [hd]
  exact fun h => Bool.eq_false_iff.mp (floatFinite_infinity f) h.1

/-- A stage with a curve whose duration is infinite stays at the start of its curve while `elapsed + dt` is finite. -/
theorem Voice.curve_of_endless {f : NumFormat} {d : Word} {v : Voice Word} (leave : Voice Word → Voice Word) (curve : Word → Word)
    (hd : d = f.word f.infinity) (he : floatFinite f (v.advanced (floatArith f)) = true) :
    ∃ x, IsUnits f x 0 ∧ (if (floatArith f).notPositive d then .done (leave v) else v.stepCurve (floatArith f) d leave curve) =
      BodyResult.done { v with elapsed := v.advanced (floatArith f), level := curve x } := by
  subst hd
  have hq := isUnits_div_infinity he
  have hpos : floatLe f (f.word f.infinity) (f.word 0) = false := by cases f <;> decide +kernel
  have hnan : floatNaN f (floatDiv f (v.advanced (floatArith f)) (f.word f.infinity)) = false := by
    rw [Bool.eq_false_iff, Ne, floatNaN_iff, hq.rank]
    exact nofun
  have hone : ¬ floatLe f (Literal.word f ⟨1, 1⟩) (floatDiv f (v.advanced (floatArith f)) (f.word f.infinity)) = true := by
    rw [(isUnits_one f).le_iff hq]
    exact not_le.mpr (by exact_mod_cast unit_pos f)
  have hmin : (floatArith f).min (floatArith f).one ((floatArith f).div (v.advanced (floatArith f)) (f.word f.infinity)) =
      floatDiv f (v.advanced (floatArith f)) (f.word f.infinity) := if_neg hone
  refine ⟨_, hq, ?_⟩
  rw [Voice.curve_stays _ _ leave curve hpos hnan (by rw [hmin]; exact Bool.eq_false_iff.mpr hone), hmin]

/-- NEXT in such a stage responds the level at the start of its curve. -/
theorem exec_next_of_endless {s : State} {v : Voice Word} {d level : Word} {leave : Voice Word → Voice Word} {curve : Word → Word}
    (hl : s.life = .live v)
    (hstep : v.next s.arith = if s.arith.notPositive d then .done (leave v) else v.stepCurve s.arith d leave curve)
    (hd : d = s.num.word s.num.infinity) (he : floatFinite s.num (v.advanced s.arith) = true)
    (hcurve : ∀ x, IsUnits s.num x 0 → curve x = level) :
    exec .next s = .next { s with
      life := .live { v with level := level, elapsed := v.advanced s.arith }
      responses := s.responses ++ [level]
      cmdIndex := s.cmdIndex + 1 } := by
  obtain ⟨x, hx, hstays⟩ := Voice.curve_of_endless leave curve hd he
  rw [← hcurve x hx]
  exact exec_next_of_done hl (hstep.trans hstays) rfl

/-! Any number of NEXT commands in a stage of infinite duration (R198, I9). -/

/-- What every stage step is done with and keeps holds after any number of them. -/
theorem Voice.nextTimes_of_keeps {V : Type} {O : Arith V} {P : Voice V → Prop}
    (hstep : ∀ v, P v → ∃ w, v.next O = .done w ∧ P w) (n : Nat) {v : Voice V} (hv : P v) :
    ∃ w, Voice.nextTimes O n v = .done w ∧ P w := by
  induction n with
  | zero => exact ⟨v, rfl, hv⟩
  | succ n ih =>
    obtain ⟨w, hw, hP⟩ := ih
    obtain ⟨u, hu, hPu⟩ := hstep w hP
    exact ⟨u, (Voice.nextTimes_succ hw).trans hu, hPu⟩

/-- At a sample rate of at least 1 `dt` is between 0 and 1 (R25). -/
theorem dt_level {f : NumFormat} {sr : Word} (hg : (floatArith f).goodRate sr = true)
    (h1 : floatLe f (Literal.word f ⟨1, 1⟩) sr = true) : (floatArith f).Level (floatDiv f (Literal.word f ⟨1, 1⟩) sr) := by
  obtain ⟨v, hv0, hv⟩ := goodRate_units hg
  have hle := ((isUnits_one f).le_iff hv).mp h1
  refine level_iff.mpr ⟨_, rank_floatDiv (isUnits_one f) hv hv0, valueRank_nonneg f hv0 (by positivity), ?_⟩
  rw [← oneRank_eq f]
  apply valueRank_mono f hv0 Nat.one_pos
  rw [Nat.cast_one, mul_one]
  exact mul_le_mul_of_nonneg_left hle (by positivity)

/-- The greatest value of the format is so large that its sum with 1 does not overflow. -/
theorem valueRank_greatest_add_one (f : NumFormat) :
    valueRank f ((magnitudeValue f (f.infinity - 1) + f.unit : Nat) : Int) 1 < f.topRank := by
  cases f <;> decide +kernel

/-- A finite value that is not negative stays finite when a level is added. -/
theorem floatFinite_add_level {f : NumFormat} {a b : Word} (ha : floatFinite f a = true) (h0 : floatLe f (f.signed false 0) a = true)
    (hb : (floatArith f).Level b) : floatFinite f (floatAdd f a b) = true := by
  obtain ⟨u, hu⟩ := isUnits_of_finite ha
  obtain ⟨v, hv, hv0, hv1⟩ := level_units hb
  have hu0 := ((isUnits_zero f).le_iff hu).mp h0
  have hgreatest : u ≤ magnitudeValue f (f.infinity - 1) := by
    obtain ⟨neg, n, hd, rfl⟩ := hu
    obtain ⟨m, hm, rfl⟩ := datum_eq_fin hd
    have hle := (magnitudeValue_le_iff f).mpr (Nat.le_sub_one_of_lt hm)
    cases neg <;> simp only [signedUnits, Bool.false_eq_true, if_true, if_false] <;> omega
  refine (floatFinite_of_rank (rank_floatAdd hu hv)).mpr ⟨?_, ?_⟩
  · exact (zeroRank_pos f).1.trans_le (valueRank_nonneg f Nat.one_pos (by omega))
  · exact lt_of_le_of_lt (valueRank_mono f Nat.one_pos Nat.one_pos (by push_cast; omega)) (valueRank_greatest_add_one f)

/-- A sound envelope in the stage `s` with the configuration `c`, at a sample rate of at least 1 and with `elapsed` finite. -/
structure Voice.Endless (f : NumFormat) (s : Stage) (c : Settings Word) (v : Voice Word) : Prop where
  stage : v.stage = s
  settings : v.settings = some c
  sound : v.Sound (floatArith f)
  rate : floatLe f (Literal.word f ⟨1, 1⟩) v.sampleRate = true
  elapsed : floatFinite f v.elapsed = true

/-- `elapsed` stays finite, so a stage with a curve whose duration is infinite is never left. -/
theorem Voice.Endless.next {f : NumFormat} {s : Stage} {c : Settings Word} {d : Word} {leave : Voice Word → Voice Word}
    {curve : Voice Word → Word → Word} (hd : d = f.word f.infinity)
    (hstep : ∀ v : Voice Word, v.stepConfigured (floatArith f) s c =
      if (floatArith f).notPositive d then .done (leave v) else v.stepCurve (floatArith f) d leave (curve v))
    {v : Voice Word} (hv : v.Endless f s c) : ∃ w, v.next (floatArith f) = .done w ∧ w.Endless f s c := by
  have he : floatFinite f (v.advanced (floatArith f)) = true :=
    floatFinite_add_level hv.elapsed hv.sound.elapsed (dt_level hv.sound.rate hv.rate)
  obtain ⟨x, -, hstays⟩ := Voice.curve_of_endless leave (curve v) hd he
  have hnext := ((Voice.next_of_stage _ hv.stage hv.settings).trans (hstep v)).trans hstays
  exact ⟨_, hnext, hv.stage, hv.settings, hv.sound.next (floatArith_keepsLevels f) (Voice.next_done hnext), hv.rate, he⟩

theorem Voice.nextTimes_of_endless_delay_or_hold {f : NumFormat} {v : Voice Word} {c : Settings Word} (hc : v.settings = some c)
    (h : (v.stage = .delay ∧ c.delay = f.word f.infinity) ∨ (v.stage = .hold ∧ c.hold = f.word f.infinity)) (n : Nat) :
    ∃ w, Voice.nextTimes (floatArith f) n v = .done w ∧ w.stage = v.stage := by
  obtain ⟨w, hw, hs, -⟩ := Voice.nextTimes_of_keeps (O := floatArith f) (P := fun w => w.stage = v.stage ∧ w.settings = some c)
    (fun w ⟨hs, hset⟩ => by
      rcases h with ⟨hst, hd⟩ | ⟨hst, hd⟩
      · exact ⟨_, Voice.next_of_endless_delay (hs.trans hst) hset hd, hs, hset⟩
      · exact ⟨_, Voice.next_of_endless_hold (hs.trans hst) hset hd, hs, hset⟩) n ⟨rfl, hc⟩
  exact ⟨w, hw, hs⟩

theorem Voice.Endless.nextTimes {f : NumFormat} {s : Stage} {v : Voice Word} {c : Settings Word} (hv : v.Endless f s c)
    (h : (s = .attack ∧ c.attack = f.word f.infinity) ∨ (s = .decay ∧ c.decay = f.word f.infinity) ∨
      (s = .release ∧ c.release = f.word f.infinity)) (n : Nat) :
    ∃ w, Voice.nextTimes (floatArith f) n v = .done w ∧ w.stage = s := by
  obtain ⟨w, hw, hend⟩ := Voice.nextTimes_of_keeps (O := floatArith f) (P := Voice.Endless f s c)
    (fun w hw => by
      rcases h with ⟨rfl, hd⟩ | ⟨rfl, hd⟩ | ⟨rfl, hd⟩ <;> exact hw.next hd fun _ => rfl) n hv
  exact ⟨w, hw, hend.stage⟩

/-- Settles O41: in Delay and Hold the exit test fails, and in the stages with a curve the fraction is a zero. -/
theorem infiniteDurationKeepsTheStage : Obligations.InfiniteDurationKeepsTheStage := by
  constructor
  · intro s v c hl hc O infinity e goesOn
    refine ⟨fun hs hd => ?_, fun hs hd => ?_, fun he _ => ⟨fun hs hd => ?_, fun hs hd hsu => ?_, fun hs hd hr => ?_⟩⟩
    · exact exec_next_of_done hl (Voice.next_of_endless_delay hs hc hd) rfl
    · exact exec_next_of_done hl (Voice.next_of_endless_hold hs hc hd) rfl
    · exact exec_next_of_endless hl (Voice.next_of_stage _ hs hc) hd he fun _ => attackLevel_of_zero
    · exact exec_next_of_endless hl (Voice.next_of_stage _ hs hc) hd he fun _ => decayLevel_of_zero hsu
    · exact exec_next_of_endless hl (Voice.next_of_stage _ hs hc) hd he fun _ => releaseLevel_of_zero hr
  · intro f v c n hc infinity stays
    exact ⟨fun h => Voice.nextTimes_of_endless_delay_or_hold hc h n,
      fun hv hrate he h => Voice.Endless.nextTimes ⟨rfl, hc, hv, hrate, he⟩ h n⟩

end Sys2Proof.Machine
end

section
/-! PROOFS. The functions of a floating format (spec 93_implementation_defined I3): `exp` and `ln` keep the order and their ranges, and `pow2` is
exact at the integers whose power is a normal number. -/

namespace Sys2Proof

/-! `exp` and `ln` (I3 b to e). -/

/-- Settles O48: the two functions never fall by rank, and the order of the format is that of ranks. -/
theorem expAndLnNeverFall : Obligations.ExpAndLnNeverFall := by
  intro f a b h
  obtain ⟨r, s, hr, hs, hrs⟩ := floatLe_iff.mp h
  exact ⟨(floatLe_of_rank (rank_floatExp hr) (rank_floatExp hs)).mpr (expRank_mono f hrs),
    (floatLe_of_rank (rank_floatLn hr) (rank_floatLn hs)).mpr (lnRank_mono f hrs)⟩

/-- A word not above one of rank `r` has a rank not above `r`. -/
theorem exists_rank_le_of_floatLe {f : NumFormat} {a b : Word} {r : Nat} (hb : b.rank f = some r) (h : floatLe f a b = true) :
    ∃ d, a.rank f = some d ∧ d ≤ r := by
  obtain ⟨d, r', hd, hr', hle⟩ := floatLe_iff.mp h
  obtain rfl : r' = r := Option.some.inj (hr'.symm.trans hb)
  exact ⟨d, hd, hle⟩

/-- `exp` is bounded from `ln(EPS) - 1` up (I3 c). -/
theorem expDomain_le_lnEps_sub_one {f : NumFormat} {r : Nat}
    (hr : (floatSub f (floatLn f (Config.eps.word f)) (Literal.word f ⟨1, 1⟩)).rank f = some r) : expDomainRank f ≤ r := by
  simp only [expDomainRank, hr, Option.getD_some]
  exact (Nat.min_le_right _ _).trans (Nat.min_le_left _ _)

/-- An operand in the range of I3 (c), as the spec writes the range, is in the domain on which the model bounds `exp`. -/
theorem expDomain_le_of_floatLe {f : NumFormat} {v : Word} {r : Nat} (hr : v.rank f = some r)
    (h : floatLe f (floatSub f (floatLn f (Config.eps.word f)) (Literal.word f ⟨1, 1⟩)) v = true ∨
      floatLe f (floatNeg f (Config.attackRate.word f)) v = true) : expDomainRank f ≤ r := by
  rcases h with h | h
  · obtain ⟨d, hd, hle⟩ := exists_rank_le_of_floatLe hr h
    exact (expDomain_le_lnEps_sub_one hd).trans hle
  · obtain ⟨d, hd, hle⟩ := exists_rank_le_of_floatLe hr h
    exact ((Machine.expDomain_le f).1 d hd).trans hle

theorem floatLn_one (f : NumFormat) : floatLn f (Literal.word f ⟨1, 1⟩) = f.word 0 := by
  have hzero : f.ofRank f.zeroRank = f.word 0 := by cases f <;> decide +kernel
  have hln : lnRank f (Literal.rank f ⟨1, 1⟩) = f.zeroRank := lnRank_one f
  simp only [floatLn, rank_literal, hln, hzero]

/-- Settles O49: the values at 0 and 1 are the model's own, and the ranges hold by rank. -/
theorem expAndLnRanges : Obligations.ExpAndLnRanges := by
  refine fun f => ⟨Machine.floatExp_eq_one (rank_zero f) (expRank_zero f), floatLn_one f, fun v _ hv0 hdom => ?_, fun v hf he => ?_⟩
  · obtain ⟨r, hr, hrz⟩ := exists_rank_le_of_floatLe (rank_zero f) hv0
    obtain ⟨hpos, hone⟩ := expRank_range f (expDomain_le_of_floatLe hr hdom) hrz
    exact ⟨(floatLt_of_rank (rank_zero f) (rank_floatExp hr)).mpr hpos,
      (floatLe_of_rank (rank_floatExp hr) (rank_literal f ⟨1, 1⟩)).mpr hone⟩
  · obtain ⟨u, hu⟩ := isUnits_of_finite hf
    have hle := (floatLe_of_rank (rank_literal f _) hu.rank).mp he
    exact (floatFinite_of_rank (rank_floatLn hu.rank)).mpr (lnRank_finite f hle hu.lt_topRank.2)

/-! `pow2` at an integer (I3 f). -/

theorem integerOf_mul_unit (f : NumFormat) (k : Int) : integerOf f (k * f.unit) = some k := by
  have hu : (f.unit : Int) ≠ 0 := by exact_mod_cast (unit_pos f).ne'
  simp [integerOf, Int.mul_ediv_cancel _ hu]

/-- The powers that are normal numbers lie above the underflow threshold. -/
theorem minExponent_lt_tcUnderflow (f : NumFormat) : f.minExponent * f.unit < Literal.units f ⟨f.tcUnderflow, 1200⟩ := by
  cases f <;> decide +kernel

/-- At an integer whose power is a normal number `pow2` is that power, rounded once. -/
theorem floatPow2_of_integer {f : NumFormat} {w : Word} {k : Int} (h : IsUnits f w (k * f.unit)) (hlo : -(f.minExponent : Int) ≤ k)
    (hhi : k ≤ f.maxExponent) : floatPow2 f w = powerWord f 2 k := by
  have hu : (0 : Int) < f.unit := by exact_mod_cast unit_pos f
  have habove : ¬ ((f.maxExponent : Int) + 1) * f.unit ≤ k * f.unit := by
    rw [mul_le_mul_iff_left₀ hu]
    omega
  have hleast : -(f.minExponent : Int) * f.unit ≤ k * f.unit := mul_le_mul_of_nonneg_right hlo hu.le
  have hbelow : ¬ k * (f.unit : Int) ≤ -(Literal.units f ⟨f.tcUnderflow, 1200⟩ : Int) := by
    have := minExponent_lt_tcUnderflow f
    zify at this
    linarith
  obtain ⟨neg, n, hd, hn⟩ := h
  simp only [floatPow2, hd, ← hn, pow2Finite, if_neg habove, if_neg hbelow, integerOf_mul_unit, decide_eq_true hleast]

/-- A finite word above 0 is its number of units with the sign clear. -/
theorem IsUnits.datum_of_pos {f : NumFormat} {w : Word} {m : Nat} (h : IsUnits f w m) (hm : 0 < m) : w.datum f = .fin false m := by
  obtain ⟨neg, n, hd, hn⟩ := h
  cases neg with
  | false => rw [hd, Int.ofNat_inj.mp hn]
  | true =>
    have : (m : Int) = -n := hn
    omega

/-- Two to a power below the overflow is a value of the format, so rounding leaves it. -/
theorem datum_powerWord_two {f : NumFormat} {k : Nat} (hk : k ≤ f.maxExponent) :
    (powerWord f 2 k).datum f = .fin false (2 ^ k * f.unit) := by
  have hpow : 2 ^ k * f.unit = 2 ^ (f.scale + k) := by rw [NumFormat.unit, ← pow_add, add_comm]
  have hu := isUnits_narrow f (exists_magnitude_pow f (Nat.add_le_add_left hk _)) Nat.one_pos (hpow.trans (Nat.mul_one _).symm)
  rw [← hpow] at hu
  exact hu.datum_of_pos (Nat.mul_pos (Nat.two_pow_pos k) (unit_pos f))

/-- A negative power of two not below the least subnormal is a value of the format too. -/
theorem datum_powerWord_two_neg {f : NumFormat} {k : Nat} (hk : k ≤ f.scale) :
    (powerWord f 2 (-k)).datum f = .fin false (2 ^ (f.scale - k)) := by
  rcases Nat.eq_zero_or_pos k with rfl | hpos
  · simpa [NumFormat.unit] using datum_powerWord_two (f := f) (Nat.zero_le _)
  have hu : IsUnits f (Exact.narrow f (.frac false f.unit (2 ^ k))) (2 ^ (f.scale - k) : Nat) :=
    isUnits_narrow f (exists_magnitude_pow f (by omega)) (Nat.two_pow_pos k) (by rw [← pow_add, Nat.sub_add_cancel hk, NumFormat.unit])
  rw [powerWord, if_neg (by omega), Int.natAbs_neg, Int.natAbs_natCast]
  exact hu.datum_of_pos (Nat.two_pow_pos _)

/-- Settles O50: the answer is the power rounded once, and the power is a value of the format. -/
theorem powersOfTwoAreExact : Obligations.PowersOfTwoAreExact := by
  rintro f w neg n k hd rfl
  constructor
  · rintro rfl hk
    have hw : IsUnits f w ((k : Int) * f.unit) := ⟨false, k * f.unit, hd, (Nat.cast_mul _ _).symm⟩
    rw [floatPow2_of_integer hw (by omega) (by omega)]
    exact ⟨_, datum_powerWord_two hk, rfl⟩
  · rintro rfl hk
    have hw : IsUnits f w (-(k : Int) * f.unit) := ⟨true, k * f.unit, hd, by simp [signedUnits]⟩
    have hscale : k ≤ f.scale := hk.trans (by cases f <;> decide)
    rw [floatPow2_of_integer hw (by omega) (by omega)]
    exact ⟨_, datum_powerWord_two_neg hscale, by rw [← pow_add, Nat.sub_add_cancel hscale, NumFormat.unit]⟩

end Sys2Proof
end
